-- ==== Sys2Proof/Word.lean ====
section
/-! DEFINITION. The byte, and the 16-bit word of the length field. -/
namespace Sys2Proof

/-- A byte: an unsigned integer 0 to 255, bit 7 the most significant (R11). -/
abbrev Byte := BitVec 8

/-- The 16-bit width of the declared length (R9, R32). -/
abbrev Half := BitVec 16

end Sys2Proof
end

