-- ==== Sys2Proof/Config.lean ====
section
/-! DEFINITION. The constants fixed by the protocol, the range of its one parameter, the agents, and the
free scheduler. -/
namespace Sys2Proof

/-- Who takes a step. The first four are R10's agents; `encoder`, `decoder` and `framer` are callers of the
standalone functions `encode`, `decode` and `build_frame`, which the block gives no port (R110, D21).
DESIGN CHOICE (log 10) for the last three. -/
inductive Agent where
  | rx
  | tx
  | line
  | host
  | encoder
  | decoder
  | framer
  deriving DecidableEq, Repr, Inhabited

namespace Config

/-- `SPECIAL_BYTE`, the escape byte (R6). -/
abbrev specialByte : Byte := 0xFD#8

/-- `START_MARKER` (R6). -/
abbrev startMarker : Byte := 0xFE#8

/-- `END_MARKER` (R6). -/
abbrev endMarker : Byte := 0xFF#8

/-- `LEN_WIDTH`, bytes of the length field before stuffing (R7, D1). -/
abbrev lenWidth : Nat := 2

/-- Lower bound of `MAX_FRAME_LEN` (R8). -/
abbrev leastMaxFrameLen : Nat := 4

/-- Upper bound of `MAX_FRAME_LEN` (R8). -/
abbrev greatestMaxFrameLen : Nat := 65537

/-- The spec's reference value of `MAX_FRAME_LEN` (R8, D2), which `State.reset` carries.
DESIGN CHOICE (log 3): no statement rests on it. -/
abbrev referenceMaxFrameLen : Nat := 8189

/-- FREE VALUE (log 1). Which agent acts when State lists no turn: R10 lets any enabled unit step "in any
interleaving". No body, so nothing can be proved of the choice. -/
opaque freeTurn : Nat → Agent

end Config
end Sys2Proof
end

