-- ==== Sys2Proof/Syntax.lean ====
section
/-! DEFINITION. The operations of the block, one constructor per row of spec/opcode_table.json; the contexts a
byte is read in; what the host and the line send; the error kinds. -/
namespace Sys2Proof

/-- The error kinds of R210. The last two are the host's and never raised by the block (R213). -/
inductive ErrorKind where
  | malformedEscape
  | startMarkerNotFound
  | endMarkerNotFound
  | payloadTooLarge
  | invalidEscapeOperand
  | frameTooShort
  | lengthMismatch
  | peerReportedError
  deriving DecidableEq, Repr

/-- Who reads a stuffed region in context S (R76): the RX unit's parser over the stored body, or a standalone
call of `decode`. -/
inductive Reader where
  | scanner
  | call
  deriving DecidableEq, Repr

/-- One operation of the block: a row of spec/opcode_table.json. -/
inductive Instr where
  /-- `HUNT.START` (R155). -/
  | huntStart
  /-- `HUNT.SKIP` (R154). -/
  | huntSkip (b : Byte)
  /-- `HUNT.LIMIT` (R156). -/
  | huntLimit (b : Byte)
  /-- `ACC.END` (R157). -/
  | accEnd
  /-- `ACC.DATA` (R158). -/
  | accData (b : Byte)
  /-- `ACC.LIMIT` (R159). -/
  | accLimit (b : Byte)
  /-- `DEC.LIT` (R164). -/
  | decLit (u : Reader) (b : Byte)
  /-- `DEC.PASS.FE` (R164). -/
  | decPassFE (u : Reader)
  /-- `DEC.PASS.FF` (R104). -/
  | decPassFF (u : Reader)
  /-- `DEC.PREFIX` (R165). -/
  | decPrefix (u : Reader)
  /-- `DEC.ESC0` (R166). -/
  | decEsc0 (u : Reader)
  /-- `DEC.ESC1` (R166). -/
  | decEsc1 (u : Reader)
  /-- `DEC.ESC2` (R166). -/
  | decEsc2 (u : Reader)
  /-- `DEC.ESC.RSVD` (R167). -/
  | decEscRsvd (u : Reader) (d : Byte)
  /-- `DEC.ESC.TRUNC` (R168). -/
  | decEscTrunc (u : Reader)
  /-- `ENC.LIT` (R100). -/
  | encLit (b : Byte)
  /-- `ENC.ESC0` (R100). -/
  | encEsc0
  /-- `ENC.ESC1` (R100). -/
  | encEsc1
  /-- `ENC.ESC2` (R100). -/
  | encEsc2
  /-- `FRAME` (R71). -/
  | frame (p : List Byte)
  /-- `RESET` (R240). -/
  | reset
  /-- `SCAN_START` (R152). -/
  | scanStart
  /-- `TX_SUBMIT` (R137). -/
  | txSubmit (p : List Byte)
  /-- `BUILD` (R138). -/
  | build (p : List Byte)
  /-- `EMIT` (R139). -/
  | emit
  /-- `FIN.MALFORMED` (R168). -/
  | finMalformed
  /-- `FIN.OK` (R169). -/
  | finOk
  /-- `FIN.SHORT` (R170). -/
  | finShort
  deriving DecidableEq, Repr

/-- How `rx_count + 1` stands to `MAX_FRAME_LEN`: the `condition` that tells a limit row from its skip or data
row (R80, R154, R156, R158, R159). `past` is met in no run (R33). -/
inductive Room where
  | below
  | last
  | past
  deriving DecidableEq, Repr

/-- The commands and internal steps that have no bit pattern (R80), by name. -/
inductive Control where
  | reset
  | scanStart
  | txSubmit
  | build
  | emit
  | finMalformed
  | finOk
  | finShort
  deriving DecidableEq, Repr

/-- The context a sequence of bytes is read in (R76, R77, R80). -/
inductive Context where
  /-- Context H: hunting for the start marker. -/
  | hunt (r : Room)
  /-- Context A: accumulating the body. -/
  | acc (r : Room)
  /-- Context S at a symbol start, one byte at a time. -/
  | symStart (u : Reader)
  /-- Context S in operand position, one byte at a time. -/
  | operand (u : Reader)
  /-- Context S, one whole symbol, in a region that ends where the bytes end. -/
  | symbol (u : Reader)
  /-- The encoder's table: a raw byte (R77). -/
  | encoder
  /-- A whole frame (R71). -/
  | frame
  /-- A command or internal step: named, with the payload as its bytes where it takes one. -/
  | control (k : Control)
  deriving DecidableEq, Repr

/-- What the host sends (R199). -/
inductive Command where
  | reset
  | scanStart
  | txSubmit (p : List Byte)
  deriving DecidableEq, Repr

/-- What the line does besides exchanging bytes with the block: a byte of the peer arrives, or the line becomes
ready, or not, to take a byte (R43, R139, R190, R191). -/
inductive LineEvent where
  | deliver (b : Byte)
  | ready (r : Bool)
  deriving DecidableEq, Repr

end Sys2Proof
end

