-- ==== Sys2Proof/Machine/Codec.lean ====
section
/-! DEFINITION. The function-level rules: the escape codec (R100 to R106), the frame builder (R130 to R134), the
byte source's `read_until` (R151) and the frame scanner (R171). They read no state of the block (R110, R130). -/
namespace Sys2Proof.Codec

/-- The result of `decode` and of `build_frame`: a sequence of bytes, or an error kind and nothing else (R15). -/
inductive Result where
  | ok (bytes : List Byte)
  | error (k : ErrorKind)
  deriving DecidableEq, Repr

/-- The result with `bs` put before its bytes; an error stays as it is. -/
def Result.prepend (bs : List Byte) : Result → Result
  | .ok t => .ok (bs ++ t)
  | .error k => .error k

/-! ## The four classes of byte values (R70) -/

/-- The classes of R70. -/
inductive ByteClass where
  | lit
  | esc
  | sta
  | fin
  deriving DecidableEq, Repr

/-- The class of a wire byte (R70); `fin` is the class named `END`. -/
def classOf (b : Byte) : ByteClass :=
  if b = Config.specialByte then .esc
  else if b = Config.startMarker then .sta
  else if b = Config.endMarker then .fin
  else .lit

/-! ## Encode -/

/-- `ENC1` (R100). -/
def enc1 (b : Byte) : List Byte :=
  if Config.specialByte ≤ b then [Config.specialByte, b - Config.specialByte] else [b]

/-- `encode` (R101). -/
def encodeBytes : List Byte → List Byte
  | [] => []
  | b :: p => enc1 b ++ encodeBytes p

/-- How many bytes of a raw sequence are in the reserved range: the `k` and `j` of R72 and R102. -/
def reservedCount (p : List Byte) : Nat :=
  p.countP fun b => decide (Config.specialByte ≤ b)

/-! ## The escaped-byte parser and decode -/

/-- The outcome of one parser step (R104). -/
inductive ParseStep where
  | next (esc : Bool) (emitted : Option Byte)
  | error (k : ErrorKind)
  deriving DecidableEq, Repr

/-- `PARSE1` (R104). The sum `253 + b` is made only for `b <= 2` (R111). -/
def parse1 (esc : Bool) (b : Byte) : ParseStep :=
  if esc then
    if b ≤ 2#8 then .next false (some (Config.specialByte + b)) else .error .invalidEscapeOperand
  else if b = Config.specialByte then .next true none
  else .next false (some b)

/-- `PARSE_END` (R104): the error at the end of the input, if any. -/
def parseEnd (esc : Bool) : Option ErrorKind :=
  if esc then some .malformedEscape else none

/-- The parser over a whole input, from the flag `esc` (R106). -/
def parseAll : Bool → List Byte → Result
  | esc, [] => match parseEnd esc with
    | some k => .error k
    | none => .ok []
  | esc, b :: s => match parse1 esc b with
    | .error k => .error k
    | .next esc' emitted => (parseAll esc' s).prepend emitted.toList

/-- `decode` (R105). -/
def decodeBytes : List Byte → Result
  | [] => .ok []
  | [b] => if b = Config.specialByte then .error .malformedEscape else .ok [b]
  | b :: d :: s =>
    if b = Config.specialByte then
      if 3#8 ≤ d then .error .invalidEscapeOperand
      else (decodeBytes s).prepend [Config.specialByte + d]
    else (decodeBytes (d :: s)).prepend [b]

/-- A symbol of a stuffed region (R73, R75, R108): a literal byte, an escape pair with its operand, or a last escape byte
with no byte after it. -/
inductive Symbol where
  | literal (b : Byte)
  | pair (d : Byte)
  | unpaired
  deriving DecidableEq, Repr

/-- A wire sequence split greedily from the left into symbols (R75, R108). -/
def symbols : List Byte → List Symbol
  | [] => []
  | [b] => if b = Config.specialByte then [.unpaired] else [.literal b]
  | b :: d :: s => if b = Config.specialByte then .pair d :: symbols s else .literal b :: symbols (d :: s)

/-- Whether a symbol is an escape pair. -/
def Symbol.isPair : Symbol → Bool
  | .literal _ => false
  | .pair _ => true
  | .unpaired => false

/-- How many escape pairs a wire sequence holds: the `q` of R107. -/
def pairCount (s : List Byte) : Nat :=
  (symbols s).countP Symbol.isPair

/-! ## The length field and the frame builder -/

/-- The 16-bit value of two bytes, high byte first (R12, R50, R74). -/
def be16 (hi lo : Byte) : Half :=
  BitVec.ofNat 16 (hi.toNat * 256 + lo.toNat)

/-- The two raw bytes of a length value, `L div 256` then `L mod 256` (R50). -/
def lenBytes (l : Nat) : List Byte :=
  [BitVec.ofNat 8 (l / 256), BitVec.ofNat 8 (l % 256)]

/-- The frame of a payload: markers outside, length value `len(p) + LEN_WIDTH` and payload stuffed (R71, R132, R133). -/
def frameBytes (p : List Byte) : List Byte :=
  [Config.startMarker] ++ encodeBytes (lenBytes (p.length + Config.lenWidth)) ++ encodeBytes p ++ [Config.endMarker]

/-- `build_frame` for the parameter `m = MAX_FRAME_LEN` (R134): both size checks (R131, R133). -/
def buildFrame (m : Nat) (p : List Byte) : Result :=
  if m < p.length + Config.lenWidth + 2 then .error .payloadTooLarge
  else if m < (frameBytes p).length then .error .payloadTooLarge
  else .ok (frameBytes p)

/-! ## The byte source and the frame scanner -/

/-- What `read_until` answers (R151): the bytes removed and those left; `dry` when a finite stream ran out first. -/
inductive ReadUntil where
  | found (taken rest : List Byte)
  | notFound (taken rest : List Byte)
  | dry
  deriving DecidableEq, Repr

/-- `taken` with one byte more in front. -/
def ReadUntil.cons (b : Byte) : ReadUntil → ReadUntil
  | .found t r => .found (b :: t) r
  | .notFound t r => .notFound (b :: t) r
  | .dry => .dry

/-- `read_until(d, n)` (R151): removes bytes up to and including the first `d`, or `n` bytes none of which is `d`. -/
def readUntil (d : Byte) : Nat → List Byte → ReadUntil
  | 0, st => .notFound [] st
  | _ + 1, [] => .dry
  | n + 1, b :: st => if b = d then .found [b] st else (readUntil d n st).cons b

/-- The result of `scan_frame` with the number of bytes consumed (R171). -/
inductive ScanResult where
  | blocked
  | err (k : ErrorKind) (consumed : Nat)
  | ok (declared : Half) (payload : List Byte) (consumed : Nat)
  deriving DecidableEq, Repr

/-- The last part of `scan_frame`: decode the body, split off the length field (R171). -/
def scanFinish (pos : Nat) (body : List Byte) : ScanResult :=
  match decodeBytes body with
  | .error k => .err k pos
  | .ok (hi :: lo :: p) => .ok (be16 hi lo) p pos
  | .ok _ => .err .frameTooShort pos

/-- The second loop of `scan_frame`, `AccumulatingUntilEnd` (R171). -/
def scanAcc (m pos cnt : Nat) (body : List Byte) : List Byte → ScanResult
  | [] => .blocked
  | b :: st =>
    if b = Config.endMarker then scanFinish (pos + 1) body
    else if cnt + 1 = m then .err .endMarkerNotFound (pos + 1)
    else scanAcc m (pos + 1) (cnt + 1) (body ++ [b]) st

/-- The first loop of `scan_frame`, `ScanningForStart` (R171). -/
def scanHunt (m pos cnt : Nat) : List Byte → ScanResult
  | [] => .blocked
  | b :: st =>
    if b = Config.startMarker then scanAcc m (pos + 1) 0 [] st
    else if cnt + 1 = m then .err .startMarkerNotFound (pos + 1)
    else scanHunt m (pos + 1) (cnt + 1) st

/-- `scan_frame` on a finite stream (R171). -/
def scanFrame (m : Nat) (st : List Byte) : ScanResult :=
  scanHunt m 0 0 st

/-! ### On any stream

`scan_frame` takes "a finite or infinite sequence of bytes" (R171). Each loop consumes at most `MAX_FRAME_LEN` bytes
(R162), so the loops recur on how many bytes may still be consumed, and are total on infinite streams too (log 16). -/

/-- A finite or infinite stream (R171): the byte at each position, none from the end of a finite one on. -/
abbrev ByteStream := Nat → Option Byte

/-- A finite stream. -/
def finiteStream (bytes : List Byte) : ByteStream := fun pos => bytes[pos]?

/-- An infinite stream. -/
def infiniteStream (byteAt : Nat → Byte) : ByteStream := fun pos => some (byteAt pos)

/-- The second loop of `scan_frame` on any stream, with `n` bytes of the limit left (R171). -/
def scanStreamAcc (st : ByteStream) : Nat → Nat → List Byte → ScanResult
  | 0, pos, _ => .err .endMarkerNotFound pos
  | n + 1, pos, body =>
    match st pos with
    | none => .blocked
    | some b =>
      if b = Config.endMarker then scanFinish (pos + 1) body
      else scanStreamAcc st n (pos + 1) (body ++ [b])

/-- The first loop of `scan_frame` on any stream, with `n` bytes of the limit left (R171). -/
def scanStreamHunt (m : Nat) (st : ByteStream) : Nat → Nat → ScanResult
  | 0, pos => .err .startMarkerNotFound pos
  | n + 1, pos =>
    match st pos with
    | none => .blocked
    | some b =>
      if b = Config.startMarker then scanStreamAcc st m (pos + 1) []
      else scanStreamHunt m st n (pos + 1)

/-- `scan_frame` on any stream, finite or infinite (R171). -/
def scanStream (m : Nat) (st : ByteStream) : ScanResult :=
  scanStreamHunt m st m 0

end Sys2Proof.Codec
end

