-- ==== Sys2Proof/WellFormed.lean ====
section
/-! DEFINITION. Which instructions stand for words of the table: each operand in the class its row gives. -/
namespace Sys2Proof

/-- The operand of a row lies in the row's class of bytes (spec/opcode_table.json, `source_fields`), and the length
value of a frame fits its two bytes (R50, R132). -/
def Instr.wf : Instr → Bool
  | .huntStart => true
  | .huntSkip b => b != Config.startMarker
  | .huntLimit b => b != Config.startMarker
  | .accEnd => true
  | .accData b => b != Config.endMarker
  | .accLimit b => b != Config.endMarker
  | .decLit _ b => decide (b < Config.specialByte)
  | .decPassFE _ => true
  | .decPassFF _ => true
  | .decPrefix _ => true
  | .decEsc0 _ => true
  | .decEsc1 _ => true
  | .decEsc2 _ => true
  | .decEscRsvd _ d => decide (3#8 ≤ d)
  | .decEscTrunc _ => true
  | .encLit b => decide (b < Config.specialByte)
  | .encEsc0 => true
  | .encEsc1 => true
  | .encEsc2 => true
  | .frame p => decide (p.length + Config.lenWidth ≤ 65535)
  | .reset => true
  | .scanStart => true
  | .txSubmit _ => true
  | .build _ => true
  | .emit => true
  | .finMalformed => true
  | .finOk => true
  | .finShort => true

end Sys2Proof
end

