-- ==== Sys2Proof/Decode.lean ====
section
/-! DEFINITION. Reading bytes in a context (R76, R77, R80), and the words of a well-formed instruction. -/
namespace Sys2Proof

/-- Why bytes are no instruction in a context. -/
inductive Reject where
  /-- No byte is offered. -/
  | noByte
  /-- More than `MAX_FRAME_LEN` bytes would have been consumed: no rule covers it, and no run meets it (R33). -/
  | pastLimit
  /-- The bytes do not begin with a frame of R71. -/
  | noFrame
  /-- A command or internal step without operand was given bytes. -/
  | unexpectedOperand
  deriving DecidableEq, Repr

/-- What the decoder answers: an instruction with the bytes left over, or a named rejection. -/
inductive Decoded where
  | instr (i : Instr) (rest : List Byte)
  | reject (why : Reject)
  deriving DecidableEq, Repr

/-! ## One byte in each context -/

/-- Context H (R76, R154 to R156): the marker is tested before the limit. -/
def huntRow (r : Room) (b : Byte) : Option Instr :=
  if b = Config.startMarker then some .huntStart
  else match r with
    | .below => some (.huntSkip b)
    | .last => some (.huntLimit b)
    | .past => none

/-- Context A (R76, R157 to R159): the marker is tested before the limit. -/
def accRow (r : Room) (b : Byte) : Option Instr :=
  if b = Config.endMarker then some .accEnd
  else match r with
    | .below => some (.accData b)
    | .last => some (.accLimit b)
    | .past => none

/-- Context S at a symbol start (R76, R104). -/
def symStartRow (u : Reader) (b : Byte) : Instr :=
  if b = Config.specialByte then .decPrefix u
  else if b = Config.startMarker then .decPassFE u
  else if b = Config.endMarker then .decPassFF u
  else .decLit u b

/-- Context S in operand position (R76, R78, R104). -/
def operandRow (u : Reader) (d : Byte) : Instr :=
  if d = 0#8 then .decEsc0 u
  else if d = 1#8 then .decEsc1 u
  else if d = 2#8 then .decEsc2 u
  else .decEscRsvd u d

/-- The encoder's row for a raw byte (R77). -/
def encoderRow (b : Byte) : Instr :=
  if b = 0xFD#8 then .encEsc0
  else if b = 0xFE#8 then .encEsc1
  else if b = 0xFF#8 then .encEsc2
  else .encLit b

/-! ## A whole frame -/

/-- The bytes before the first end marker, and those after it. -/
def splitAtEnd : List Byte → Option (List Byte × List Byte)
  | [] => none
  | b :: s =>
    if b = Config.endMarker then some ([], s)
    else match splitAtEnd s with
      | some (body, rest) => some (b :: body, rest)
      | none => none

/-- A frame of R71 at the front of the bytes: the row's fields are exact (length value `len(payload) + 2`, length and
payload as `encode` gives them), so the bytes taken must be those of the payload found. -/
def frameRow (bytes : List Byte) : Decoded :=
  match bytes with
  | [] => .reject .noByte
  | b :: s =>
    if b = Config.startMarker then
      match splitAtEnd s with
      | none => .reject .noFrame
      | some (body, rest) =>
        match Codec.decodeBytes body with
        | .ok (_ :: _ :: p) =>
          if p.length + Config.lenWidth ≤ 65535 ∧
              Codec.frameBytes p = [Config.startMarker] ++ body ++ [Config.endMarker] then
            .instr (.frame p) rest
          else .reject .noFrame
        | _ => .reject .noFrame
    else .reject .noFrame

/-! ## The decoder -/

/-- A command or internal step by its name; the payload is the operand of `TX_SUBMIT` and `BUILD`. -/
def controlRow (k : Control) (bytes : List Byte) : Decoded :=
  match k, bytes with
  | .txSubmit, p => .instr (.txSubmit p) []
  | .build, p => .instr (.build p) []
  | .reset, [] => .instr .reset []
  | .scanStart, [] => .instr .scanStart []
  | .emit, [] => .instr .emit []
  | .finMalformed, [] => .instr .finMalformed []
  | .finOk, [] => .instr .finOk []
  | .finShort, [] => .instr .finShort []
  | _, _ :: _ => .reject .unexpectedOperand

/-- One byte taken by a row that may be absent. -/
def Decoded.ofRow (row : Option Instr) (rest : List Byte) : Decoded :=
  match row with
  | some i => .instr i rest
  | none => .reject .pastLimit

/-- Read bytes in a context (R76, R77, R80). Total; a rejection is named. -/
def decode (c : Context) (bytes : List Byte) : Decoded :=
  match c, bytes with
  | .control k, bs => controlRow k bs
  | .frame, bs => frameRow bs
  | _, [] => .reject .noByte
  | .hunt r, b :: rest => .ofRow (huntRow r b) rest
  | .acc r, b :: rest => .ofRow (accRow r b) rest
  | .symStart u, b :: rest => .instr (symStartRow u b) rest
  | .operand u, d :: rest => .instr (operandRow u d) rest
  | .symbol u, [b] =>
    if b = Config.specialByte then .instr (.decEscTrunc u) [] else .instr (symStartRow u b) []
  | .symbol u, b :: d :: rest =>
    if b = Config.specialByte then .instr (operandRow u d) rest else .instr (symStartRow u b) (d :: rest)
  | .encoder, b :: rest => .instr (encoderRow b) rest

/-! ## The encoder -/

/-- The words of a well-formed instruction, from the `encoding` of its row (spec/opcode_table.json); a pair's first
wire byte comes first (R51). A command's bytes are its payload. -/
def encode : Instr → List Byte
  | .huntStart => [0xFE#8]
  | .huntSkip b => [b]
  | .huntLimit b => [b]
  | .accEnd => [0xFF#8]
  | .accData b => [b]
  | .accLimit b => [b]
  | .decLit _ b => [b]
  | .decPassFE _ => [0xFE#8]
  | .decPassFF _ => [0xFF#8]
  | .decPrefix _ => [0xFD#8]
  | .decEsc0 _ => [0xFD#8, 0x00#8]
  | .decEsc1 _ => [0xFD#8, 0x01#8]
  | .decEsc2 _ => [0xFD#8, 0x02#8]
  | .decEscRsvd _ d => [0xFD#8, d]
  | .decEscTrunc _ => [0xFD#8]
  | .encLit b => [b]
  | .encEsc0 => [0xFD#8]
  | .encEsc1 => [0xFE#8]
  | .encEsc2 => [0xFF#8]
  | .frame p => Codec.frameBytes p
  | .reset => []
  | .scanStart => []
  | .txSubmit p => p
  | .build p => p
  | .emit => []
  | .finMalformed => []
  | .finOk => []
  | .finShort => []

/-- The context an instruction's words are read in: the `context` and `condition` of its row. -/
def contextOf : Instr → Context
  | .huntStart => .hunt .below
  | .huntSkip _ => .hunt .below
  | .huntLimit _ => .hunt .last
  | .accEnd => .acc .below
  | .accData _ => .acc .below
  | .accLimit _ => .acc .last
  | .decLit u _ => .symStart u
  | .decPassFE u => .symStart u
  | .decPassFF u => .symStart u
  | .decPrefix u => .symStart u
  | .decEsc0 u => .symbol u
  | .decEsc1 u => .symbol u
  | .decEsc2 u => .symbol u
  | .decEscRsvd u _ => .symbol u
  | .decEscTrunc u => .symbol u
  | .encLit _ => .encoder
  | .encEsc0 => .encoder
  | .encEsc1 => .encoder
  | .encEsc2 => .encoder
  | .frame _ => .frame
  | .reset => .control .reset
  | .scanStart => .control .scanStart
  | .txSubmit _ => .control .txSubmit
  | .build _ => .control .build
  | .emit => .control .emit
  | .finMalformed => .control .finMalformed
  | .finOk => .control .finOk
  | .finShort => .control .finShort

/-! ## The masks of the table (R80) -/

/-- Mask and match pairs of a literal: exactly `0x00` to `0xFC` (R80). -/
def literalMasks : List (Byte × Byte) :=
  [(0x80#8, 0x00#8), (0xC0#8, 0x80#8), (0xE0#8, 0xC0#8), (0xF0#8, 0xE0#8), (0xF8#8, 0xF0#8), (0xFC#8, 0xF8#8),
   (0xFF#8, 0xFC#8)]

/-- Mask and match pairs of "any byte but `0xFE`" (R80). -/
def notStartMasks : List (Byte × Byte) :=
  literalMasks.take 6 ++ [(0xFE#8, 0xFC#8), (0xFF#8, 0xFF#8)]

/-- Mask and match pairs of "any byte but `0xFF`" (R80). -/
def notEndMasks : List (Byte × Byte) :=
  literalMasks.take 6 ++ [(0xFE#8, 0xFC#8), (0xFF#8, 0xFE#8)]

/-- How many pairs of a set match a byte. -/
def maskHits (set : List (Byte × Byte)) (b : Byte) : Nat :=
  set.countP fun mm => decide (b &&& mm.1 = mm.2)

/-! ## Table words -/

/-- The bytes of a table word in transmission order. For a pair the table numbers the first wire byte in bits 15..8
(R80; log 7). -/
def tableWordBytes (nbits w : Nat) : List Byte :=
  if nbits = 8 then [BitVec.ofNat 8 w]
  else if nbits = 16 then [BitVec.ofNat 8 (w / 256), BitVec.ofNat 8 (w % 256)]
  else []

/-- The context a table word is read in when none is given: the marker sought in H and in A, the escape byte and
every literal at a symbol start, a pair as a whole symbol.
DESIGN CHOICE (log 8): one byte value stands in several rows, told apart by the context only. -/
def tableContext (bytes : List Byte) : Option Context :=
  match bytes with
  | [b] => match Codec.classOf b with
    | .sta => some (.hunt .below)
    | .fin => some (.acc .below)
    | .esc => some (.symStart .scanner)
    | .lit => some (.symStart .scanner)
  | [b, _] => if b = Config.specialByte then some (.symbol .scanner) else none
  | _ => none

/-- The instruction the decoder reads from a table word. -/
def decodeTableWord (nbits w : Nat) : Option Instr :=
  match tableContext (tableWordBytes nbits w) with
  | none => none
  | some c => match decode c (tableWordBytes nbits w) with
    | .instr i _ => some i
    | .reject _ => none

end Sys2Proof
end

