-- ==== Sys2Proof/Machine/State.lean ====
section
/-! DEFINITION. The state of the block and of what it exchanges bytes with, as plain data; the state after reset;
why a step can stop. -/
namespace Sys2Proof.Machine

/-- The block's three private buffers (R42). -/
inductive Space where
  | rxb
  | out
  | txb
  deriving DecidableEq, Repr

/-- A buffer's contents: pairs of index and byte, indices strictly rising (`Memory.wf`). An index that is not listed
has no value (D23, U8; log 4). -/
abbrev Memory := List Host.Cell

/-- The canonical form: indices strictly rising. -/
abbrev Memory.wf (m : Memory) : Prop :=
  m.Pairwise fun x y => x.1 < y.1

/-- `rx_state` (R22). -/
inductive RxState where
  | idle
  | scanningForStart
  | accumulatingUntilEnd
  | decoding
  | done
  deriving DecidableEq, Repr

/-- `tx_state` (R23). -/
inductive TxState where
  | idle
  | sending
  deriving DecidableEq, Repr

/-- `rx_status` (R31). -/
inductive RxStatus where
  | none
  | ok
  | startMarkerNotFound
  | endMarkerNotFound
  | malformedEscape
  | invalidEscapeOperand
  | frameTooShort
  deriving DecidableEq, Repr

/-- `tx_status` (R39). -/
inductive TxStatus where
  | none
  | ok
  | payloadTooLarge
  deriving DecidableEq, Repr

/-- The RX unit's registers and buffers (R22, R24 to R32). Counters and indices are naturals (R11, R180; log 6). -/
structure RxUnit where
  /-- `rx_state` (R22). -/
  state : RxState
  /-- `rx_count` (R24). -/
  count : Nat
  /-- `RXB` (R25). -/
  rxb : Memory
  /-- `rx_len` (R26). -/
  len : Nat
  /-- `dec_idx` (R27). -/
  decIdx : Nat
  /-- `esc_pending` (R28). -/
  escPending : Bool
  /-- `OUT` (R29). -/
  out : Memory
  /-- `out_len` (R30). -/
  outLen : Nat
  /-- `rx_status` (R31). -/
  status : RxStatus
  /-- `declared_length` (R32). -/
  declaredLength : Half
  deriving DecidableEq, Repr

/-- The TX unit's registers and buffer (R23, R36 to R39). -/
structure TxUnit where
  /-- `tx_state` (R23). -/
  state : TxState
  /-- `TXB` (R36). -/
  txb : Memory
  /-- `tx_len` (R37). -/
  len : Nat
  /-- `tx_idx` (R38). -/
  idx : Nat
  /-- `tx_status` (R39). -/
  status : TxStatus
  deriving DecidableEq, Repr

/-- The line (R43, R139, R190, R191). -/
structure Line where
  /-- The receive direction: bytes that have arrived and are not consumed, the next one first. -/
  rxQueue : List Byte
  /-- The transmit direction: bytes handed over so far, the first one first. -/
  txSent : List Byte
  /-- The line is ready to take a byte. -/
  ready : Bool
  /-- What the line will do: an input (R20; log 13). -/
  script : List LineEvent
  deriving DecidableEq, Repr

/-- The callers of the standalone functions: operands not yet read, and results. The model's own (log 10). -/
structure Calls where
  /-- Raw bytes `encode` has still to read. -/
  encIn : List Byte
  /-- Wire bytes `encode` has given. -/
  encOut : List Byte
  /-- Wire bytes `decode` has still to read. -/
  decIn : List Byte
  /-- The parser flag of the call of `decode` (R104). -/
  decEsc : Bool
  /-- Raw bytes `decode` has given. -/
  decOut : List Byte
  /-- The error kind the call of `decode` has ended with. -/
  decErr : Option ErrorKind
  /-- The payload `build_frame` is called with. -/
  frameIn : Option (List Byte)
  /-- What `build_frame` has answered. -/
  frameOut : Option Codec.Result
  deriving DecidableEq, Repr

/-- The whole state. `rx` and `tx` are the block (R20); `maxFrameLen` is its parameter, which no step writes (R8;
log 3); the rest is what the block exchanges bytes and commands with, and the order of turns (log 1). -/
structure State where
  /-- `MAX_FRAME_LEN` (R8). -/
  maxFrameLen : Nat
  /-- The RX unit. -/
  rx : RxUnit
  /-- The TX unit. -/
  tx : TxUnit
  /-- The line. -/
  line : Line
  /-- The commands the host offers, the next one first: an input (R20, R199). -/
  host : List Command
  /-- The standalone calls. -/
  calls : Calls
  /-- The agents that act next, in order (log 1). -/
  turns : List Agent
  /-- How many free turns have been taken: the argument of `Config.freeTurn`. -/
  tick : Nat
  deriving DecidableEq, Repr

/-- The RX unit after reset (R45). -/
def RxUnit.reset : RxUnit :=
  { state := .idle, count := 0, rxb := [], len := 0, decIdx := 0, escPending := false, out := [], outLen := 0,
    status := .none, declaredLength := 0#16 }

/-- The TX unit after reset (R45). -/
def TxUnit.reset : TxUnit :=
  { state := .idle, txb := [], len := 0, idx := 0, status := .none }

/-- A line on which nothing has happened. DESIGN CHOICE (log 13). -/
def Line.quiet : Line :=
  { rxQueue := [], txSent := [], ready := true, script := [] }

/-- No standalone call. DESIGN CHOICE (log 10). -/
def Calls.empty : Calls :=
  { encIn := [], encOut := [], decIn := [], decEsc := false, decOut := [], decErr := none, frameIn := none,
    frameOut := none }

/-- The machine right after reset with the parameter `m` (R45). -/
def State.resetWith (m : Nat) : State :=
  { maxFrameLen := m, rx := .reset, tx := .reset, line := .quiet, host := [], calls := .empty, turns := [], tick := 0 }

/-- The machine right after reset (R45), with the spec's reference parameter (R8; log 3). -/
def State.reset : State :=
  State.resetWith Config.referenceMaxFrameLen

/-- A step stops at a buffer access that the spec says is to be a fault (R53, D23, U8). None happens in a state that
meets the invariants of R33 and R40. -/
inductive Fault where
  /-- A read at or above the valid length, or of a byte never written (D23). Raised by EMIT, FIN.OK and the fetch of
  a DEC row. Safe: the machine stops where the spec gives no value. -/
  | bufferRead (sp : Space)
  /-- A write at an index outside the buffer's capacity (R53). Raised by ACC.DATA, the emitting DEC rows and BUILD.
  Safe: the machine stops where the spec has no storage. -/
  | bufferWrite (sp : Space)
  deriving DecidableEq, Repr

/-- Why an instruction has no meaning. -/
inductive Refusal where
  /-- The arm of `exec` is not written. Raised by Dispatch.lean only; no arm raises it now. Safe. -/
  | notModelled (mnemonic : String)
  deriving DecidableEq, Repr

end Sys2Proof.Machine
end

