-- ==== Sys2Proof/Machine/Ops.lean ====
section
/-! DEFINITION. The named operations: buffer bytes, the three buffers, holding, raising an error and recovering from
one, reset. -/
namespace Sys2Proof.Machine

/-! ## A buffer's bytes -/

/-- The byte at an index, if one is listed. -/
def Memory.read : Memory → Nat → Option Byte
  | [], _ => none
  | c :: m, i => if c.1 = i then some c.2 else Memory.read m i

/-- The buffer with a byte written; the canonical form is kept. -/
def Memory.write : Memory → Nat → Byte → Memory
  | [], i, b => [(i, b)]
  | c :: m, i, b =>
    if i < c.1 then (i, b) :: c :: m
    else if i = c.1 then (i, b) :: m
    else c :: Memory.write m i b

/-- The buffer with a sequence of bytes written from an index on. -/
def Memory.writeBlock : Memory → Nat → List Byte → Memory
  | m, _, [] => m
  | m, i, b :: bs => Memory.writeBlock (Memory.write m i b) (i + 1) bs

/-! ## The three buffers -/

/-- The contents of a buffer. -/
def bufOf (sp : Space) (s : State) : Memory :=
  match sp with
  | .rxb => s.rx.rxb
  | .out => s.rx.out
  | .txb => s.tx.txb

/-- The state with a buffer's contents replaced. -/
def setBuf (sp : Space) (m : Memory) (s : State) : State :=
  match sp with
  | .rxb => { s with rx := { s.rx with rxb := m } }
  | .out => { s with rx := { s.rx with out := m } }
  | .txb => { s with tx := { s.tx with txb := m } }

/-- How many bytes a buffer holds (R9, R57). -/
def capacity (sp : Space) (s : State) : Nat :=
  match sp with
  | .rxb => s.maxFrameLen - 1
  | .out => s.maxFrameLen - 1
  | .txb => s.maxFrameLen

/-- How many bytes of a buffer are valid (R26, R30, R37). -/
def validLen (sp : Space) (s : State) : Nat :=
  match sp with
  | .rxb => s.rx.len
  | .out => s.rx.outLen
  | .txb => s.tx.len

/-- `MemRead(SP:i, 1)` (R14): no value at or above the valid length or the capacity (R53, D23). -/
def memRead (sp : Space) (i : Nat) (s : State) : Option Byte :=
  if i < validLen sp s ∧ i < capacity sp s then Memory.read (bufOf sp s) i else none

/-- `MemWrite(SP:i, 1, v)` (R14): none outside the capacity (R53). -/
def memWrite (sp : Space) (i : Nat) (v : Byte) (s : State) : Option State :=
  if i < capacity sp s then some (setBuf sp (Memory.write (bufOf sp s) i v) s) else none

/-- `MemWrite` of a sequence of bytes from an index on (R138); none unless all of it lies in the capacity (R53). -/
def memWriteBlock (sp : Space) (i : Nat) (bs : List Byte) (s : State) : Option State :=
  if i + bs.length ≤ capacity sp s then some (setBuf sp (Memory.writeBlock (bufOf sp s) i bs) s) else none

/-- The bytes of a buffer from an index on, `n` of them. -/
def memReadBlock (sp : Space) (i n : Nat) (s : State) : Option (List Byte) :=
  match n with
  | 0 => some []
  | k + 1 => match memRead sp i s, memReadBlock sp (i + 1) k s with
    | some b, some bs => some (b :: bs)
    | _, _ => none

/-! ## The line's bytes -/

/-- The receive sequence with its front byte consumed, which leaves `rest` (R43, R153). -/
def leaveOnLine (rest : List Byte) (s : State) : State :=
  { s with line := { s.line with rxQueue := rest } }

/-! ## Holding -/

/-- A step that is not enabled does not happen: nothing changes (R16, D19; log 2). -/
def hold (s : State) : Host.Outcome State Fault Refusal :=
  .next s

/-! ## Raising an error, and recovering -/

/-- Raising an error in the RX unit: the kind's code and `Done`, and nothing else (R216). -/
def raiseRx (st : RxStatus) (s : State) : State :=
  { s with rx := { s.rx with status := st, state := .done } }

/-- Raising `PayloadTooLarge` in the TX unit (R217). -/
def raiseTx (s : State) : State :=
  { s with tx := { s.tx with status := .payloadTooLarge, len := 0, idx := 0, state := .idle } }

/-- Recovery of the RX unit: every register cleared and a fresh attempt begun; the buffers' contents are left as they
were (R152, R218). -/
def recoverRx (s : State) : State :=
  { s with rx := { s.rx with count := 0, len := 0, decIdx := 0, outLen := 0, escPending := false, status := .none,
                             declaredLength := 0#16, state := .scanningForStart } }

/-- An error of a standalone call of `decode`: its kind, and nothing returned (R104, R105). -/
def raiseCall (k : ErrorKind) (s : State) : State :=
  { s with calls := { s.calls with decErr := some k, decOut := [] } }

/-- Reset of both units; the buffers' contents become unspecified, and the line is not touched (R240). -/
def resetBlock (s : State) : State :=
  { s with rx := .reset, tx := .reset }

end Sys2Proof.Machine
end

