-- ==== Sys2Proof/Machine/Flags.lean ====
section
/-! DEFINITION. The numeric codes of states and statuses, the status of an error kind, and the outputs of both units. -/
namespace Sys2Proof.Machine

/-! ## Codes -/

/-- The codes of `rx_state` (R22). -/
def RxState.code : RxState → BitVec 3
  | .idle => 0#3
  | .scanningForStart => 1#3
  | .accumulatingUntilEnd => 2#3
  | .decoding => 3#3
  | .done => 4#3

/-- The codes of `tx_state` (R23). -/
def TxState.code : TxState → BitVec 1
  | .idle => 0#1
  | .sending => 1#1

/-- The codes of `rx_status` (R31). -/
def RxStatus.code : RxStatus → BitVec 3
  | .none => 0#3
  | .ok => 1#3
  | .startMarkerNotFound => 2#3
  | .endMarkerNotFound => 3#3
  | .malformedEscape => 4#3
  | .invalidEscapeOperand => 5#3
  | .frameTooShort => 6#3

/-- The codes of `tx_status` (R39). -/
def TxStatus.code : TxStatus → BitVec 2
  | .none => 0#2
  | .ok => 1#2
  | .payloadTooLarge => 2#2

/-- The `rx_status` an error kind is reported by; none for the kinds the RX unit never raises (R210, R213). -/
def rxStatusOf : ErrorKind → Option RxStatus
  | .startMarkerNotFound => some .startMarkerNotFound
  | .endMarkerNotFound => some .endMarkerNotFound
  | .malformedEscape => some .malformedEscape
  | .invalidEscapeOperand => some .invalidEscapeOperand
  | .frameTooShort => some .frameTooShort
  | .payloadTooLarge => none
  | .lengthMismatch => none
  | .peerReportedError => none

/-- The `tx_status` an error kind is reported by (R210). -/
def txStatusOf : ErrorKind → Option TxStatus
  | .payloadTooLarge => some .payloadTooLarge
  | .startMarkerNotFound => none
  | .endMarkerNotFound => none
  | .malformedEscape => none
  | .invalidEscapeOperand => none
  | .frameTooShort => none
  | .lengthMismatch => none
  | .peerReportedError => none

/-! ## Outputs of the RX unit (R34) -/

/-- `rx_ready`: the unit will consume the next byte the line offers. -/
def rxReady (s : State) : Bool :=
  s.rx.state = .scanningForStart ∨ s.rx.state = .accumulatingUntilEnd

/-- `scan_ready`: a `SCAN_START` will be accepted. -/
def scanReady (s : State) : Bool :=
  s.rx.state = .idle ∨ s.rx.state = .done

/-- `res_valid`: `rx_status` holds a result. -/
def resValid (s : State) : Bool :=
  s.rx.state = .done

/-- `res_status`. -/
def resStatus (s : State) : RxStatus :=
  s.rx.status

/-- `res_declared_length`. -/
def resDeclaredLength (s : State) : Half :=
  s.rx.declaredLength

/-- `res_payload`: `OUT[2:out_len]` when `rx_status = Ok`, else empty; none where a byte of it was never written, which
no run meets (D23). -/
def resPayload (s : State) : Option (List Byte) :=
  if s.rx.status = .ok then memReadBlock .out Config.lenWidth (s.rx.outLen - Config.lenWidth) s else some []

/-- `res_len_match`: information, never an error (R213). -/
def resLenMatch (s : State) : Bool :=
  s.rx.status = .ok ∧ s.rx.declaredLength.toNat = s.rx.outLen

/-! ## Outputs of the TX unit (R41) -/

/-- `tx_ready`: a `TX_SUBMIT` will be accepted. -/
def txReady (s : State) : Bool :=
  s.tx.state = .idle

/-- `tx_valid`: `tx_byte` is the next wire byte. -/
def txValid (s : State) : Bool :=
  s.tx.state = .sending

/-- `tx_byte`: no value when not `tx_valid`. -/
def txByte (s : State) : Option Byte :=
  if s.tx.state = .sending then memRead .txb s.tx.idx s else none

/-- `tx_res_status`. -/
def txResStatus (s : State) : TxStatus :=
  s.tx.status

/-! ## The line as the host may ask it -/

/-- `bytes_available()`: the current length of the receive sequence, a question the host puts to the line (R43, R192). -/
def bytesAvailable (s : State) : Nat :=
  s.line.rxQueue.length

end Sys2Proof.Machine
end

