-- ==== Sys2Proof/Machine/Operands.lean ====
section
/-! DEFINITION. Which row the state of a unit makes of a byte, a command or the end of a body: contexts (R76), the
limit's condition (R80), the cases of FIN (R168 to R170), the acceptance of commands (R136, R152); and the sequencing
conditions the rows share. -/
namespace Sys2Proof.Machine

/-- How `rx_count + 1` stands to `MAX_FRAME_LEN` (R154, R156, R158, R159). -/
def room (s : State) : Room :=
  if s.rx.count + 1 < s.maxFrameLen then .below
  else if s.rx.count + 1 = s.maxFrameLen then .last
  else .past

/-- The context a byte of the line is read in; none when the unit is not ready (R76, R153). -/
def lineContext (s : State) : Option Context :=
  match s.rx.state with
  | .scanningForStart => some (.hunt (room s))
  | .accumulatingUntilEnd => some (.acc (room s))
  | .idle => none
  | .decoding => none
  | .done => none

/-- The context a byte of a stuffed region is read in (R76). -/
def stuffedContext (u : Reader) (esc : Bool) : Context :=
  if esc then .operand u else .symStart u

/-- The case of FIN: the unpaired escape is tested before the length (R168 to R170, R215). -/
def finRow (s : State) : Instr :=
  if s.rx.escPending then .finMalformed
  else if Config.lenWidth ≤ s.rx.outLen then .finOk
  else .finShort

/-- A command is accepted in the unit's present state (R136, R152, R240). -/
def accepted (c : Command) (s : State) : Bool :=
  match c with
  | .reset => true
  | .scanStart => scanReady s
  | .txSubmit _ => txReady s

/-- The row of a command. -/
def commandRow (c : Command) : Instr :=
  match c with
  | .reset => .reset
  | .scanStart => .scanStart
  | .txSubmit p => .txSubmit p

/-! ## Conditions the rows share -/

/-- `DEC` reads a byte with the parser flag at `esc`: the RX unit is `Decoding` with `dec_idx < rx_len` (R163), or a
call of `decode` has not ended. -/
def decEnabled (u : Reader) (esc : Bool) (s : State) : Bool :=
  match u with
  | .scanner => s.rx.state = .decoding ∧ s.rx.decIdx < s.rx.len ∧ s.rx.escPending = esc
  | .call => s.calls.decErr = none ∧ s.calls.decEsc = esc

/-- The region has ended with the escape byte unpaired (R104, R168). -/
def truncEnabled (u : Reader) (s : State) : Bool :=
  match u with
  | .scanner => s.rx.state = .decoding ∧ s.rx.decIdx = s.rx.len ∧ s.rx.escPending = true
  | .call => s.calls.decErr = none ∧ s.calls.decIn = [] ∧ s.calls.decEsc = true

/-- `FIN` with the parser flag at `esc` (R168). -/
def finEnabled (esc : Bool) (s : State) : Bool :=
  s.rx.state = .decoding ∧ s.rx.decIdx = s.rx.len ∧ s.rx.escPending = esc

end Sys2Proof.Machine
end

