-- ==== Sys2Proof/Machine/Acc.lean ====
section
/-! DEFINITION. ACC: the byte taken from the line while `AccumulatingUntilEnd` (R157 to R162). The byte has been consumed
by the fetch (R153). -/
namespace Sys2Proof.Machine

/-- `ACC.END` (R157): the marker, within the limit or at it; not stored. -/
def execAccEnd (s : State) : Host.Outcome State Fault Refusal :=
  if s.rx.state = .accumulatingUntilEnd then
    .next { s with rx := { s.rx with count := s.rx.count + 1, state := .decoding } }
  else hold s

/-- `ACC.DATA` (R158): the byte is stored as it is, `0xFD` and `0xFE` too (R160). -/
def execAccData (b : Byte) (s : State) : Host.Outcome State Fault Refusal :=
  if s.rx.state = .accumulatingUntilEnd ∧ b ≠ Config.endMarker ∧ s.rx.count + 1 < s.maxFrameLen then
    match memWrite .rxb s.rx.len b s with
    | some s' => .next { s' with rx := { s'.rx with len := s.rx.len + 1, count := s.rx.count + 1 } }
    | none => .fault (.bufferWrite .rxb)
  else hold s

/-- `ACC.LIMIT` (R159): the limit is exhausted, `EndMarkerNotFound`; the byte is not stored. -/
def execAccLimit (b : Byte) (s : State) : Host.Outcome State Fault Refusal :=
  if s.rx.state = .accumulatingUntilEnd ∧ b ≠ Config.endMarker ∧ s.rx.count + 1 = s.maxFrameLen then
    .next (raiseRx .endMarkerNotFound { s with rx := { s.rx with count := s.rx.count + 1 } })
  else hold s

end Sys2Proof.Machine
end

