-- ==== Sys2Proof/Machine/Tx.lean ====
section
/-! DEFINITION. The TX unit's internal steps: BUILD (R138) and EMIT (R139). -/
namespace Sys2Proof.Machine

/-- What BUILD does (R138): the whole frame into TXB and `Sending`, or `PayloadTooLarge` with nothing to emit. -/
def buildFrameIntoTxb (p : List Byte) (s : State) : Host.Outcome State Fault Refusal :=
  match Codec.buildFrame s.maxFrameLen p with
  | .error _ => .next (raiseTx s)
  | .ok r => match memWriteBlock .txb 0 r s with
    | some s' => .next { s' with tx := { s'.tx with len := r.length, idx := 0, status := .ok, state := .sending } }
    | none => .fault (.bufferWrite .txb)

/-- `BUILD` (R138): enabled only in TX `Idle`. -/
def execBuild (p : List Byte) (s : State) : Host.Outcome State Fault Refusal :=
  if s.tx.state = .idle then buildFrameIntoTxb p s else hold s

/-- `EMIT` (R139): the line takes one byte; enabled only in `Sending` with the line ready. -/
def execEmit (s : State) : Host.Outcome State Fault Refusal :=
  if s.tx.state = .sending ∧ s.line.ready = true then
    match memRead .txb s.tx.idx s with
    | some b =>
      .next { s with line := { s.line with txSent := s.line.txSent ++ [b] },
                     tx := { s.tx with idx := s.tx.idx + 1,
                                       state := if s.tx.idx + 1 = s.tx.len then .idle else .sending } }
    | none => .fault (.bufferRead .txb)
  else hold s

end Sys2Proof.Machine
end

