-- ==== Sys2Proof/Machine/Command.lean ====
section
/-! DEFINITION. The host's commands: RESET (R240), SCAN_START (R152), TX_SUBMIT (R137). -/
namespace Sys2Proof.Machine

/-- `RESET` (R240): enabled in every state of both units. -/
def execReset (s : State) : Host.Outcome State Fault Refusal :=
  .next (resetBlock s)

/-- `SCAN_START` (R152): enabled only in `Idle` and `Done`. -/
def execScanStart (s : State) : Host.Outcome State Fault Refusal :=
  if s.rx.state = .idle ∨ s.rx.state = .done then .next (recoverRx s) else hold s

/-- `TX_SUBMIT` (R136, R137): accepted only in TX `Idle`, and followed at once by BUILD as one indivisible step. -/
def execTxSubmit (p : List Byte) (s : State) : Host.Outcome State Fault Refusal :=
  if s.tx.state = .idle then buildFrameIntoTxb p s else hold s

end Sys2Proof.Machine
end

