-- ==== Sys2Proof/Machine/Dec.lean ====
section
/-! DEFINITION. DEC: one byte of a stuffed region read by the escaped-byte parser (R104, R163 to R168). The operand is the
byte the fetch has read: `RXB[dec_idx]` for the RX unit, the next byte of its input for a call of `decode`. -/
namespace Sys2Proof.Machine

/-! ## Shared operations -/

/-- Emit one raw byte and leave operand position (R164, R166). -/
def decEmit (u : Reader) (b : Byte) (s : State) : Host.Outcome State Fault Refusal :=
  match u with
  | .scanner => match memWrite .out s.rx.outLen b s with
    | some s' =>
      .next { s' with rx := { s'.rx with outLen := s.rx.outLen + 1, escPending := false, decIdx := s.rx.decIdx + 1 } }
    | none => .fault (.bufferWrite .out)
  | .call => .next { s with calls := { s.calls with decOut := s.calls.decOut ++ [b], decEsc := false } }

/-- Emit a byte read at a symbol start unchanged (R164). -/
def decLiteral (u : Reader) (b : Byte) (s : State) : Host.Outcome State Fault Refusal :=
  if decEnabled u false s then decEmit u b s else hold s

/-- Emit `253 + d` for a legal operand (R166). -/
def decPair (u : Reader) (d : Byte) (s : State) : Host.Outcome State Fault Refusal :=
  if decEnabled u true s then decEmit u (Config.specialByte + d) s else hold s

/-! ## The rows -/

/-- `DEC.LIT` (R164). -/
def execDecLit (u : Reader) (b : Byte) (s : State) : Host.Outcome State Fault Refusal :=
  if b < Config.specialByte then decLiteral u b s else hold s

/-- `DEC.PASS.FE` (R164, R160). -/
def execDecPassFE (u : Reader) (s : State) : Host.Outcome State Fault Refusal :=
  decLiteral u 0xFE#8 s

/-- `DEC.PASS.FF` (R104). For the RX unit it is R164's case too, and no run meets it (R161; log 11). -/
def execDecPassFF (u : Reader) (s : State) : Host.Outcome State Fault Refusal :=
  decLiteral u 0xFF#8 s

/-- `DEC.PREFIX` (R165): nothing is emitted. -/
def execDecPrefix (u : Reader) (s : State) : Host.Outcome State Fault Refusal :=
  if decEnabled u false s then
    match u with
    | .scanner => .next { s with rx := { s.rx with escPending := true, decIdx := s.rx.decIdx + 1 } }
    | .call => .next { s with calls := { s.calls with decEsc := true } }
  else hold s

/-- `DEC.ESC0` (R166): `FD 00` stands for 253. -/
def execDecEsc0 (u : Reader) (s : State) : Host.Outcome State Fault Refusal :=
  decPair u 0#8 s

/-- `DEC.ESC1` (R166): `FD 01` stands for 254. -/
def execDecEsc1 (u : Reader) (s : State) : Host.Outcome State Fault Refusal :=
  decPair u 1#8 s

/-- `DEC.ESC2` (R166): `FD 02` stands for 255. -/
def execDecEsc2 (u : Reader) (s : State) : Host.Outcome State Fault Refusal :=
  decPair u 2#8 s

/-- `DEC.ESC.RSVD` (R167): `InvalidEscapeOperand`; the indices and the flag keep their values. -/
def execDecEscRsvd (u : Reader) (d : Byte) (s : State) : Host.Outcome State Fault Refusal :=
  if decEnabled u true s = true ∧ 3#8 ≤ d then
    match u with
    | .scanner => .next (raiseRx .invalidEscapeOperand s)
    | .call => .next (raiseCall .invalidEscapeOperand s)
  else hold s

/-- `DEC.ESC.TRUNC` (R168, R104): the region ends with an escape byte that has no operand, `MalformedEscape`. -/
def execDecEscTrunc (u : Reader) (s : State) : Host.Outcome State Fault Refusal :=
  if truncEnabled u s then
    match u with
    | .scanner => .next (raiseRx .malformedEscape s)
    | .call => .next (raiseCall .malformedEscape s)
  else hold s

end Sys2Proof.Machine
end

