-- ==== Sys2Proof/Machine/Enc.lean ====
section
/-! DEFINITION. ENC: one raw byte encoded in a standalone call of `encode` (R100, R101). The raw byte has been taken from
the call's input by the fetch; the wire bytes are appended to the call's result, and no register of the block changes
(R110; log 10). -/
namespace Sys2Proof.Machine

/-- Append wire bytes to the result of the call of `encode`. -/
def encEmit (ws : List Byte) (s : State) : State :=
  { s with calls := { s.calls with encOut := s.calls.encOut ++ ws } }

/-- `ENC.LIT` (R100): wire `b`. -/
def execEncLit (b : Byte) (s : State) : Host.Outcome State Fault Refusal :=
  if b < Config.specialByte then .next (encEmit [b] s) else hold s

/-- `ENC.ESC0` (R100): raw 253, wire `FD 00`. -/
def execEncEsc0 (s : State) : Host.Outcome State Fault Refusal :=
  .next (encEmit [0xFD#8, 0x00#8] s)

/-- `ENC.ESC1` (R100): raw 254, wire `FD 01`. -/
def execEncEsc1 (s : State) : Host.Outcome State Fault Refusal :=
  .next (encEmit [0xFD#8, 0x01#8] s)

/-- `ENC.ESC2` (R100): raw 255, wire `FD 02`. -/
def execEncEsc2 (s : State) : Host.Outcome State Fault Refusal :=
  .next (encEmit [0xFD#8, 0x02#8] s)

end Sys2Proof.Machine
end

