-- ==== Sys2Proof/Machine/Fin.lean ====
section
/-! DEFINITION. FIN: the end of the body (R168 to R170). -/
namespace Sys2Proof.Machine

/-- `FIN.MALFORMED` (R168): an unpaired escape byte; tested before the length (R215). -/
def execFinMalformed (s : State) : Host.Outcome State Fault Refusal :=
  if finEnabled true s then .next (raiseRx .malformedEscape s) else hold s

/-- `FIN.OK` (R169): the first two decoded bytes are the declared length, which is not checked (R174). -/
def execFinOk (s : State) : Host.Outcome State Fault Refusal :=
  if finEnabled false s = true ∧ Config.lenWidth ≤ s.rx.outLen then
    match memRead .out 0 s, memRead .out 1 s with
    | some hi, some lo =>
      .next { s with rx := { s.rx with declaredLength := Codec.be16 hi lo, status := .ok, state := .done } }
    | _, _ => .fault (.bufferRead .out)
  else hold s

/-- `FIN.SHORT` (R170): fewer than two decoded bytes, `FrameTooShort`. -/
def execFinShort (s : State) : Host.Outcome State Fault Refusal :=
  if finEnabled false s = true ∧ s.rx.outLen < Config.lenWidth then .next (raiseRx .frameTooShort s) else hold s

end Sys2Proof.Machine
end

