-- ==== Sys2Proof/Machine/Frame.lean ====
section
/-! DEFINITION. FRAME: a whole frame as the function `build_frame` answers it to its caller (R71, R130, R134). The function
reads no register and has no side effect (R130; log 9). -/
namespace Sys2Proof.Machine

/-- `FRAME` (R71, R134): the caller is answered the frame of the payload, or `PayloadTooLarge`. -/
def execFrame (p : List Byte) (s : State) : Host.Outcome State Fault Refusal :=
  .next { s with calls := { s.calls with frameOut := some (Codec.buildFrame s.maxFrameLen p) } }

end Sys2Proof.Machine
end

