-- ==== Sys2Proof/Machine/Hunt.lean ====
section
/-! DEFINITION. HUNT: the byte taken from the line while `ScanningForStart` (R154 to R156). The byte has been consumed by
the fetch (R153). -/
namespace Sys2Proof.Machine

/-- `HUNT.START` (R155): the marker, within the limit or at it; not stored. -/
def execHuntStart (s : State) : Host.Outcome State Fault Refusal :=
  if s.rx.state = .scanningForStart then
    .next { s with rx := { s.rx with count := 0, state := .accumulatingUntilEnd } }
  else hold s

/-- `HUNT.SKIP` (R154): the byte is discarded. -/
def execHuntSkip (b : Byte) (s : State) : Host.Outcome State Fault Refusal :=
  if s.rx.state = .scanningForStart ∧ b ≠ Config.startMarker ∧ s.rx.count + 1 < s.maxFrameLen then
    .next { s with rx := { s.rx with count := s.rx.count + 1 } }
  else hold s

/-- `HUNT.LIMIT` (R156): the limit is exhausted, `StartMarkerNotFound`. -/
def execHuntLimit (b : Byte) (s : State) : Host.Outcome State Fault Refusal :=
  if s.rx.state = .scanningForStart ∧ b ≠ Config.startMarker ∧ s.rx.count + 1 = s.maxFrameLen then
    .next (raiseRx .startMarkerNotFound { s with rx := { s.rx with count := s.rx.count + 1 } })
  else hold s

end Sys2Proof.Machine
end

