-- ==== Sys2Proof/Machine/Dispatch.lean ====
section
/-! DEFINITION. One arm per row of spec/opcode_table.json. -/
namespace Sys2Proof.Machine

def exec (i : Instr) (s : State) : Host.Outcome State Fault Refusal :=
  match i with
  | .huntStart => Sys2Proof.Machine.execHuntStart s
  | .huntSkip b => Sys2Proof.Machine.execHuntSkip b s
  | .huntLimit b => Sys2Proof.Machine.execHuntLimit b s
  | .accEnd => Sys2Proof.Machine.execAccEnd s
  | .accData b => Sys2Proof.Machine.execAccData b s
  | .accLimit b => Sys2Proof.Machine.execAccLimit b s
  | .decLit u b => Sys2Proof.Machine.execDecLit u b s
  | .decPassFE u => Sys2Proof.Machine.execDecPassFE u s
  | .decPassFF u => Sys2Proof.Machine.execDecPassFF u s
  | .decPrefix u => Sys2Proof.Machine.execDecPrefix u s
  | .decEsc0 u => Sys2Proof.Machine.execDecEsc0 u s
  | .decEsc1 u => Sys2Proof.Machine.execDecEsc1 u s
  | .decEsc2 u => Sys2Proof.Machine.execDecEsc2 u s
  | .decEscRsvd u d => Sys2Proof.Machine.execDecEscRsvd u d s
  | .decEscTrunc u => Sys2Proof.Machine.execDecEscTrunc u s
  | .encLit b => Sys2Proof.Machine.execEncLit b s
  | .encEsc0 => Sys2Proof.Machine.execEncEsc0 s
  | .encEsc1 => Sys2Proof.Machine.execEncEsc1 s
  | .encEsc2 => Sys2Proof.Machine.execEncEsc2 s
  | .frame p => Sys2Proof.Machine.execFrame p s
  | .reset => Sys2Proof.Machine.execReset s
  | .scanStart => Sys2Proof.Machine.execScanStart s
  | .txSubmit p => Sys2Proof.Machine.execTxSubmit p s
  | .build p => Sys2Proof.Machine.execBuild p s
  | .emit => Sys2Proof.Machine.execEmit s
  | .finMalformed => Sys2Proof.Machine.execFinMalformed s
  | .finOk => Sys2Proof.Machine.execFinOk s
  | .finShort => Sys2Proof.Machine.execFinShort s

end Sys2Proof.Machine
end

