-- ==== Sys2Proof/Machine/Fetch.lean ====
section
/-! DEFINITION. Which row an agent's next step runs, and what of its input it takes; whose turn it is; what the line does
by itself; placing a table word where the next step reads it. -/
namespace Sys2Proof.Machine

/-- What an agent finds to do: a row and the state after its input is taken, nothing (a hold), or a buffer access that
is to be a fault. -/
inductive Fetched where
  | take (i : Instr) (s : State)
  | hold
  | fault (r : Fault)
  deriving DecidableEq, Repr

/-! ## The RX unit -/

/-- The next byte of the line, consumed exactly when the unit is ready and a rule covers it (R153). -/
def fetchLineByte (s : State) : Fetched :=
  match lineContext s, s.line.rxQueue with
  | some c, b :: rest => match decode c [b] with
    | .instr i _ => .take i (leaveOnLine rest s)
    | .reject _ => .hold
  | _, _ => .hold

/-- The byte the parser reads next, `MemRead(RXB:dec_idx, 1)` (R163), or the end of the body (R168). -/
def fetchBodyByte (s : State) : Fetched :=
  if s.rx.decIdx < s.rx.len then
    match memRead .rxb s.rx.decIdx s with
    | some b => match decode (stuffedContext .scanner s.rx.escPending) [b] with
      | .instr i _ => .take i s
      | .reject _ => .hold
    | none => .fault (.bufferRead .rxb)
  else if s.rx.decIdx = s.rx.len then .take (finRow s) s
  else .hold

/-- The RX unit's next row: in each state at most one is enabled (R175, R181). -/
def fetchRx (s : State) : Fetched :=
  match s.rx.state with
  | .idle => .hold
  | .scanningForStart => fetchLineByte s
  | .accumulatingUntilEnd => fetchLineByte s
  | .decoding => fetchBodyByte s
  | .done => .hold

/-! ## The other agents -/

/-- The TX unit's next row: EMIT while `Sending`, when the line is ready (R139). -/
def fetchTx (s : State) : Fetched :=
  if s.tx.state = .sending ∧ s.line.ready = true then .take .emit s else .hold

/-- The command the host offers, taken only when accepted; else it stays offered (R16, D19). -/
def fetchHost (s : State) : Fetched :=
  match s.host with
  | [] => .hold
  | c :: rest => if accepted c s then .take (commandRow c) { s with host := rest } else .hold

/-- The next raw byte of a standalone call of `encode` (R101). -/
def fetchEncoder (s : State) : Fetched :=
  match s.calls.encIn with
  | [] => .hold
  | b :: rest => match decode .encoder [b] with
    | .instr i _ => .take i { s with calls := { s.calls with encIn := rest } }
    | .reject _ => .hold

/-- The next wire byte of a standalone call of `decode`, or its end in operand position (R104 to R106). -/
def fetchDecoder (s : State) : Fetched :=
  match s.calls.decErr, s.calls.decIn with
  | none, b :: rest => match decode (stuffedContext .call s.calls.decEsc) [b] with
    | .instr i _ => .take i { s with calls := { s.calls with decIn := rest } }
    | .reject _ => .hold
  | none, [] => if s.calls.decEsc then .take (.decEscTrunc .call) s else .hold
  | some _, _ => .hold

/-- The payload of a standalone call of `build_frame` (R130). -/
def fetchFramer (s : State) : Fetched :=
  match s.calls.frameIn with
  | none => .hold
  | some p => .take (.frame p) { s with calls := { s.calls with frameIn := none } }

/-- What an agent finds to do. The line runs no row of the block (`lineStep`). -/
def fetch (a : Agent) (s : State) : Fetched :=
  match a with
  | .rx => fetchRx s
  | .tx => fetchTx s
  | .line => .hold
  | .host => fetchHost s
  | .encoder => fetchEncoder s
  | .decoder => fetchDecoder s
  | .framer => fetchFramer s

/-! ## The line by itself, and turns -/

/-- A byte of the peer arrives at the end of the receive sequence, or the line becomes ready or not (R43, R59, R190). -/
def lineStep (s : State) : State :=
  match s.line.script with
  | [] => s
  | .deliver b :: rest => { s with line := { s.line with rxQueue := s.line.rxQueue ++ [b], script := rest } }
  | .ready r :: rest => { s with line := { s.line with ready := r, script := rest } }

/-- Whose turn it is, and the state with the turn taken: the next one listed, else the free choice (R10, R16; log 1). -/
def nextTurn (s : State) : Agent × State :=
  match s.turns with
  | a :: rest => (a, { s with turns := rest })
  | [] => (Config.freeTurn s.tick, { s with tick := s.tick + 1 })

/-! ## Placing a table word -/

/-- The RX unit `Decoding` the stored body `body`, at `idx` with the parser flag at `esc`, nothing decoded yet. -/
def placeBody (body : List Byte) (idx : Nat) (esc : Bool) (s : State) : State :=
  { s with rx := { s.rx with state := .decoding, rxb := (List.range body.length).zip body, len := body.length,
                             count := body.length + 1, decIdx := idx, escPending := esc, outLen := 0 },
           turns := .rx :: s.turns }

/-- The RX unit in the state that reads a line byte, with the byte offered next. -/
def placeLineByte (st : RxState) (b : Byte) (s : State) : State :=
  { s with rx := { s.rx with state := st }, line := { s.line with rxQueue := b :: s.line.rxQueue },
           turns := .rx :: s.turns }

/-- A table word where the next step reads it, in the context `tableContext` gives it (log 8, log 9): on the line for
contexts H and A; in RXB for context S, with the prefix of a pair already read. -/
def placeWord (nbits w : Nat) (s : State) : State :=
  match tableContext (tableWordBytes nbits w), tableWordBytes nbits w with
  | some (.hunt _), [b] => placeLineByte .scanningForStart b s
  | some (.acc _), [b] => placeLineByte .accumulatingUntilEnd b s
  | some (.symStart _), [b] => placeBody [b] 0 false s
  | some (.symbol _), [b, d] => placeBody [b, d] 1 true s
  | _, _ => s

end Sys2Proof.Machine
end

