-- ==== Sys2Proof/Machine/Agents.lean ====
section
/-! DEFINITION. One agent's step: the row it finds is run; where none is enabled nothing changes (R16). -/
namespace Sys2Proof.Machine

/-- What an agent's find comes to. -/
def runFetched (f : Fetched) (s : State) : Host.Outcome State Fault Refusal :=
  match f with
  | .take i s' => exec i s'
  | .hold => hold s
  | .fault r => .fault r

/-- One step of one agent (R10, R16). -/
def agentStep (a : Agent) (s : State) : Host.Outcome State Fault Refusal :=
  match a with
  | .line => .next (lineStep s)
  | .rx => runFetched (fetch .rx s) s
  | .tx => runFetched (fetch .tx s) s
  | .host => runFetched (fetch .host s) s
  | .encoder => runFetched (fetch .encoder s) s
  | .decoder => runFetched (fetch .decoder s) s
  | .framer => runFetched (fetch .framer s) s

end Sys2Proof.Machine
end

