-- ==== Sys2Proof/Machine/Step.lean ====
section
/-! DEFINITION. One step of the machine: the agent whose turn it is acts (R16). -/
namespace Sys2Proof.Machine

/-- One step (R16): one agent acts. -/
def step (s : State) : Host.Outcome State Fault Refusal :=
  agentStep (nextTurn s).1 (nextTurn s).2

/-- The state with a table word placed where the next step reads it (log 9). -/
def State.withFetchWord (s : State) (nbits w : Nat) : State :=
  placeWord nbits w s

end Sys2Proof.Machine
end

