-- ==== Sys2Proof/Machine/HostSide.lean ====
section
/-! DEFINITION. What the host makes of the results: outside the block (R5), written as functions so that a model of the
host can be (R193 to R197; log 15). Nothing of the machine calls them. -/
namespace Sys2Proof.Machine.HostSide

/-- The two kinds of message (R193). -/
inductive Message where
  | diagnostic
  | dataReply
  deriving DecidableEq, Repr

/-- The classifier of the canonical revision: `declared_length = 0` (R193, U13). -/
def classify (declared : Half) : Message :=
  if declared = 0#16 then .diagnostic else .dataReply

/-- The host's length check, made on data replies only, where its policy is to enforce it (R194, R247). -/
def lengthCheck (enforce : Bool) (declared : Half) (payload : List Byte) : Option ErrorKind :=
  match classify declared with
  | .diagnostic => none
  | .dataReply =>
    if enforce = true ∧ declared.toNat ≠ Config.lenWidth + payload.length then some .lengthMismatch else none

/-- What the handshake has come to: the diagnostics shown so far, whether the peer is ready, and the identity text of the
readiness frame where it holds one. -/
structure Handshake where
  shown : List (List Byte)
  ready : Bool
  identity : Option (List Byte)
  deriving DecidableEq, Repr

/-- `await_ready` over the texts of the frames received, in order (R195, R197). The recogniser of the readiness text, which
the spec leaves open, is an argument (U12): it answers nothing, or the identity text if the readiness text holds one.
DESIGN CHOICE (log 15): what the host does when a scan attempt during the handshake ends in an error is left open (R195,
N12); here such an attempt gives no text and leaves no trace, and the loop goes on with the next frame received. -/
def awaitReady (recognise : List Byte → Option (Option (List Byte))) : List (List Byte) → Handshake
  | [] => { shown := [], ready := false, identity := none }
  | text :: rest => match recognise text with
    | some identity => { shown := [], ready := true, identity := identity }
    | none =>
      { shown := text :: (awaitReady recognise rest).shown, ready := (awaitReady recognise rest).ready,
        identity := (awaitReady recognise rest).identity }

end Sys2Proof.Machine.HostSide
end

