-- ==== Sys2Proof/Safety.lean ====
section
/-! DEFINITION. What holds of every state a run reaches (R33, R40, R53), and runs of one agent. -/
namespace Sys2Proof.Machine

/-- No byte of the stored body is the end marker (R33, R161). -/
def NoEndMarker (r : RxUnit) : Prop :=
  ∀ i, i < r.len → Memory.read r.rxb i ≠ some Config.endMarker

/-- The invariants of the RX unit for the parameter `m`: those of R33, the ranges of R24 to R30, the equivalence of
R31, and what they rest on (the buffers are canonical, lie within their capacity and hold their valid bytes; a fresh
attempt has decoded nothing). -/
structure RxInv (m : Nat) (r : RxUnit) : Prop where
  rxbCanonical : Memory.wf r.rxb
  rxbWithin : ∀ c ∈ r.rxb, c.1 < m - 1
  rxbListed : ∀ i, i < r.len → (Memory.read r.rxb i).isSome = true
  outCanonical : Memory.wf r.out
  outWithin : ∀ c ∈ r.out, c.1 < m - 1
  outListed : ∀ i, i < r.outLen → (Memory.read r.out i).isSome = true
  countRange : r.count ≤ m
  lenRange : r.len ≤ m - 1
  decIdxRange : r.decIdx ≤ r.len
  outLenRange : r.outLen ≤ r.decIdx
  idleClear : r.state = .idle → r.count = 0 ∧ r.len = 0 ∧ r.decIdx = 0 ∧ r.outLen = 0 ∧ r.escPending = false ∧
    r.status = .none ∧ r.declaredLength = 0#16
  scanningRange : r.state = .scanningForStart → r.count ≤ m - 1 ∧ r.len = 0
  accumulatingRange : r.state = .accumulatingUntilEnd → r.len = r.count ∧ r.count ≤ m - 1 ∧ NoEndMarker r
  fresh : r.state = .scanningForStart ∨ r.state = .accumulatingUntilEnd →
    r.decIdx = 0 ∧ r.outLen = 0 ∧ r.escPending = false
  decodingRange : r.state = .decoding → r.count = r.len + 1 ∧ NoEndMarker r ∧
    (r.escPending = true → 1 ≤ r.decIdx ∧ Memory.read r.rxb (r.decIdx - 1) = some Config.specialByte)
  doneOk : r.state = .done → r.status = .ok → r.decIdx = r.len ∧ r.escPending = false ∧ Config.lenWidth ≤ r.outLen ∧
    ∃ hi lo, Memory.read r.out 0 = some hi ∧ Memory.read r.out 1 = some lo ∧ r.declaredLength = Codec.be16 hi lo
  statusDone : r.status ≠ .none ↔ r.state = .done
  declaredOnlyOk : r.status ≠ .ok → r.declaredLength = 0#16

/-- The invariants of the TX unit for the parameter `m` (R40), with the buffer canonical, within its capacity and holding
its valid bytes. -/
structure TxInv (m : Nat) (t : TxUnit) : Prop where
  txbCanonical : Memory.wf t.txb
  txbWithin : ∀ c ∈ t.txb, c.1 < m
  txbListed : ∀ i, i < t.len → (Memory.read t.txb i).isSome = true
  idxRange : t.idx ≤ t.len
  lenRange : t.len ≤ m
  sendingFrame : t.state = .sending → t.idx < t.len ∧ t.status = .ok ∧
    Memory.read t.txb 0 = some Config.startMarker ∧ Memory.read t.txb (t.len - 1) = some Config.endMarker ∧ 4 ≤ t.len ∧
    ∀ i, 1 ≤ i → i < t.len - 1 →
      Memory.read t.txb i ≠ some Config.startMarker ∧ Memory.read t.txb i ≠ some Config.endMarker
  idleSent : t.state = .idle → t.idx = t.len

/-- What every step keeps: the parameter's range (R8) and the invariants of both units. Nothing is asked of the line, the
host, the standalone calls or the turns. -/
structure Inv (s : State) : Prop where
  paramLeast : Config.leastMaxFrameLen ≤ s.maxFrameLen
  paramGreatest : s.maxFrameLen ≤ Config.greatestMaxFrameLen
  rxInv : RxInv s.maxFrameLen s.rx
  txInv : TxInv s.maxFrameLen s.tx

/-- `n` turns of one agent, before the turns the state lists. -/
def agentRun (a : Agent) (n : Nat) (s : State) : Host.Outcome State Fault Refusal :=
  Host.Core.run Sys2Proof.core n { s with turns := List.replicate n a ++ s.turns }

end Sys2Proof.Machine
end

