-- ==== Sys2Proof/Certificates/Slice0/Obligations.lean ====
section
/-! DEFINITION. The statements for the provers. Where a statement speaks of a field that the spec does not give (turns,
standalone calls, what a hold is), its docstring says so and names the log entry. -/
open Sys2Proof Sys2Proof.Machine

/-! ## The wire code -/

/-- Words written out from the encodings of spec/opcode_table.json read as the rows they stand for, one of each family. -/
def Obligations.TableWordsDecode : Prop :=
  decode (.hunt .below) [0b11111110#8] = .instr .huntStart [] ∧
  decode (.hunt .last) [0b00000111#8] = .instr (.huntLimit 0x07#8) [] ∧
  decode (.acc .below) [0b11111111#8] = .instr .accEnd [] ∧
  decode (.acc .below) [0b11111110#8] = .instr (.accData 0xFE#8) [] ∧
  decode (.symStart .scanner) [0b11111101#8] = .instr (.decPrefix .scanner) [] ∧
  decode (.symbol .scanner) [0b11111101#8, 0b00000010#8] = .instr (.decEsc2 .scanner) [] ∧
  decode (.symbol .call) [0b11111101#8, 0b00000011#8] = .instr (.decEscRsvd .call 0x03#8) [] ∧
  decode .encoder [0b11111110#8] = .instr .encEsc1 [] ∧
  decode .frame [0xFE#8, 0x00#8, 0x04#8, 0x41#8, 0xFD#8, 0x00#8, 0xFF#8] = .instr (.frame [0x41#8, 0xFD#8]) []

/-- Decode and encode agree: the words of every well-formed instruction, read in its context, give it back. -/
def Obligations.DecodeEncodeRoundTrip : Prop :=
  ∀ i : Instr, i.wf = true → decode (contextOf i) (encode i) = .instr i []

/-- The other direction: whatever is read, outside the byte-by-byte operand position, is the word of a well-formed
instruction, and no byte of it is dropped. -/
def Obligations.DecodedBytesAreEncoded : Prop :=
  ∀ (c : Context) (bytes rest : List Byte) (i : Instr), (∀ u, c ≠ .operand u) →
    decode c bytes = .instr i rest → i.wf = true ∧ bytes = encode i ++ rest

/-- R70: each byte value falls in exactly one class, and the hardware test of the reserved range. -/
def Obligations.ByteValueClasses : Prop :=
  ∀ b : Byte,
    (Codec.classOf b = .lit ↔ b.toNat ≤ 252) ∧ (Codec.classOf b = .esc ↔ b.toNat = 253) ∧
    (Codec.classOf b = .sta ↔ b.toNat = 254) ∧ (Codec.classOf b = .fin ↔ b.toNat = 255) ∧
    (253 ≤ b.toNat ↔ b.extractLsb' 2 6 = 0b111111#6 ∧ b.extractLsb' 0 2 ≠ 0b00#2)

/-- The table of R76, one byte at a time: what every byte value is in contexts H, A and S, at a symbol start and in operand
position, and at the end of a region. -/
def Obligations.ReadingContexts : Prop :=
  ∀ (b : Byte) (rest : List Byte),
    (∀ r, b = 0xFE#8 → decode (.hunt r) (b :: rest) = .instr .huntStart rest) ∧
    (b ≠ 0xFE#8 → decode (.hunt .below) (b :: rest) = .instr (.huntSkip b) rest ∧
      decode (.hunt .last) (b :: rest) = .instr (.huntLimit b) rest) ∧
    (∀ r, b = 0xFF#8 → decode (.acc r) (b :: rest) = .instr .accEnd rest) ∧
    (b ≠ 0xFF#8 → decode (.acc .below) (b :: rest) = .instr (.accData b) rest ∧
      decode (.acc .last) (b :: rest) = .instr (.accLimit b) rest) ∧
    (∀ u,
      (b.toNat ≤ 0xFC → decode (.symStart u) (b :: rest) = .instr (.decLit u b) rest) ∧
      (b = 0xFD#8 → decode (.symStart u) (b :: rest) = .instr (.decPrefix u) rest) ∧
      (b = 0xFE#8 → decode (.symStart u) (b :: rest) = .instr (.decPassFE u) rest) ∧
      (b = 0xFF#8 → decode (.symStart u) (b :: rest) = .instr (.decPassFF u) rest) ∧
      (b = 0x00#8 → decode (.operand u) (b :: rest) = .instr (.decEsc0 u) rest) ∧
      (b = 0x01#8 → decode (.operand u) (b :: rest) = .instr (.decEsc1 u) rest) ∧
      (b = 0x02#8 → decode (.operand u) (b :: rest) = .instr (.decEsc2 u) rest) ∧
      (3 ≤ b.toNat → decode (.operand u) (b :: rest) = .instr (.decEscRsvd u b) rest) ∧
      decode (.symbol u) [0xFD#8] = .instr (.decEscTrunc u) [])

/-- The mask and match pairs of R80: exactly one pair of a class's set matches each byte of the class, and none matches
another byte. -/
def Obligations.MaskSetsCoverTheirClasses : Prop :=
  ∀ b : Byte,
    maskHits literalMasks b = (if b.toNat ≤ 0xFC then 1 else 0) ∧
    maskHits notStartMasks b = (if b = 0xFE#8 then 0 else 1) ∧
    maskHits notEndMasks b = (if b = 0xFF#8 then 0 else 1)

/-! ## The codec -/

/-- R100 and R77: the encoder's table. -/
def Obligations.EncodeOneByte : Prop :=
  ∀ b : Byte,
    (b.toNat < 253 → Codec.enc1 b = [b]) ∧
    (253 ≤ b.toNat → Codec.enc1 b = [0xFD#8, BitVec.ofNat 8 (b.toNat - 253)])

/-- R102: the length law of `encode`. -/
def Obligations.EncodeLengthLaw : Prop :=
  ∀ p : List Byte,
    (Codec.encodeBytes p).length = p.length + Codec.reservedCount p ∧
    p.length ≤ (Codec.encodeBytes p).length ∧ (Codec.encodeBytes p).length ≤ 2 * p.length ∧
    ((Codec.encodeBytes p).length = p.length ↔ ∀ b ∈ p, b.toNat < 253) ∧
    ((Codec.encodeBytes p).length = 2 * p.length ↔ ∀ b ∈ p, 253 ≤ b.toNat)

/-- R103: what `encode` never emits. Every `0xFD` is at a symbol start (the byte before it is no `0xFD`) and is followed by 0,
1 or 2. -/
def Obligations.EncodedBytesHoldNoMarker : Prop :=
  ∀ p : List Byte,
    0xFE#8 ∉ Codec.encodeBytes p ∧ 0xFF#8 ∉ Codec.encodeBytes p ∧
    (∀ i, (Codec.encodeBytes p)[i]? = some 0xFD#8 →
      (∃ d : Byte, (Codec.encodeBytes p)[i + 1]? = some d ∧ d.toNat ≤ 2) ∧
      (1 ≤ i → (Codec.encodeBytes p)[i - 1]? ≠ some 0xFD#8)) ∧
    (Codec.encodeBytes p).getLast? ≠ some 0xFD#8

/-- R104: the escaped-byte parser, and the end of its input. -/
def Obligations.ParserSteps : Prop :=
  ∀ b : Byte,
    (b ≠ 0xFD#8 → Codec.parse1 false b = .next false (some b)) ∧
    (b = 0xFD#8 → Codec.parse1 false b = .next true none) ∧
    (b.toNat ≤ 2 → Codec.parse1 true b = .next false (some (BitVec.ofNat 8 (253 + b.toNat)))) ∧
    (3 ≤ b.toNat → Codec.parse1 true b = .error .invalidEscapeOperand) ∧
    Codec.parseEnd true = some .malformedEscape ∧ Codec.parseEnd false = none

/-- R106: `decode` is the parser run over the whole input. -/
def Obligations.DecodeIsTheParserRun : Prop :=
  ∀ s : List Byte, Codec.decodeBytes s = Codec.parseAll false s

/-- R107: the length law of `decode`. -/
def Obligations.DecodeLengthLaw : Prop :=
  ∀ s t : List Byte, Codec.decodeBytes s = .ok t →
    t.length + Codec.pairCount s = s.length ∧ s.length ≤ 2 * t.length ∧ t.length ≤ s.length

/-- R108: the exact condition for each outcome of `decode`. -/
def Obligations.DecodeOutcomes : Prop :=
  ∀ s : List Byte,
    (Codec.decodeBytes s = .error .invalidEscapeOperand ↔ ∃ d, .pair d ∈ Codec.symbols s ∧ 3 ≤ d.toNat) ∧
    (Codec.decodeBytes s = .error .malformedEscape ↔
      (¬∃ d, .pair d ∈ Codec.symbols s ∧ 3 ≤ d.toNat) ∧ (Codec.symbols s).getLast? = some .unpaired) ∧
    ((∃ t, Codec.decodeBytes s = .ok t) ↔
      (¬∃ d, .pair d ∈ Codec.symbols s ∧ 3 ≤ d.toNat) ∧ (Codec.symbols s).getLast? ≠ some .unpaired)

/-- R109: the round trip. -/
def Obligations.DecodeInvertsEncode : Prop :=
  ∀ x : List Byte, Codec.decodeBytes (Codec.encodeBytes x) = .ok x

/-- R79: `encode` is injective; `decode` undoes it, accepts more, and is undone by it exactly away from the marker
values. -/
def Obligations.EncodingIsUnique : Prop :=
  (∀ x y : List Byte, Codec.encodeBytes x = Codec.encodeBytes y → x = y) ∧
  (∀ x : List Byte, Codec.decodeBytes (Codec.encodeBytes x) = .ok x) ∧
  Codec.decodeBytes [0xFE#8] = .ok [0xFE#8] ∧ Codec.decodeBytes [0xFD#8, 0x01#8] = .ok [0xFE#8] ∧
  (∀ s t : List Byte, Codec.decodeBytes s = .ok t →
    (Codec.encodeBytes t = s ↔ 0xFE#8 ∉ s ∧ 0xFF#8 ∉ s))

/-! ## The frame builder -/

/-- R72: the size of a frame on the wire. -/
def Obligations.FrameSize : Prop :=
  (∀ p : List Byte,
    (Codec.frameBytes p).length =
      p.length + Codec.reservedCount p + Codec.reservedCount (Codec.lenBytes (p.length + 2)) + 4) ∧
  (∀ p : List Byte, 4 ≤ (Codec.frameBytes p).length) ∧
  Codec.frameBytes [] = [0xFE#8, 0x00#8, 0x02#8, 0xFF#8] ∧
  (∀ (m : Nat) (p f : List Byte), Codec.buildFrame m p = .ok f → f.length ≤ m)

/-- R131 to R134: `build_frame` rejects exactly when the stuffed frame is too long, and else is the frame; a payload that
fails the check before stuffing fails the one after. -/
def Obligations.BuildFrameChecksTheSize : Prop :=
  ∀ (m : Nat) (p : List Byte),
    (Codec.buildFrame m p = .error .payloadTooLarge ↔
      m < p.length + Codec.reservedCount p + Codec.reservedCount (Codec.lenBytes (p.length + 2)) + 4) ∧
    (Codec.buildFrame m p = .ok ([0xFE#8] ++ Codec.encodeBytes [BitVec.ofNat 8 ((p.length + 2) / 256),
        BitVec.ofNat 8 ((p.length + 2) % 256)] ++ Codec.encodeBytes p ++ [0xFF#8]) ↔
      p.length + Codec.reservedCount p + Codec.reservedCount (Codec.lenBytes (p.length + 2)) + 4 ≤ m) ∧
    (m < p.length + 4 → Codec.buildFrame m p = .error .payloadTooLarge)

/-- R135, its first sentence: when the boundary payload is accepted. -/
def Obligations.BoundaryPayload : Prop :=
  ∀ (m : Nat) (p : List Byte), 4 ≤ m → m ≤ 65537 → p.length = m - 4 →
    (Codec.buildFrame m p = .ok (Codec.frameBytes p) ↔
      Codec.reservedCount p = 0 ∧ (m - 2) / 256 < 253 ∧ (m - 2) % 256 < 253)

/-- R142: the laws of a built frame. -/
def Obligations.BuiltFrameLaws : Prop :=
  ∀ (m : Nat) (p f rest : List Byte), 4 ≤ m → m ≤ 65537 → Codec.buildFrame m p = .ok f →
    4 ≤ f.length ∧ f.length ≤ m ∧ f[0]? = some 0xFE#8 ∧ f[f.length - 1]? = some 0xFF#8 ∧
    (∀ i, 1 ≤ i → i < f.length - 1 → f[i]? ≠ some 0xFE#8 ∧ f[i]? ≠ some 0xFF#8) ∧
    Codec.decodeBytes ((f.drop 1).take (f.length - 2)) =
      .ok (BitVec.ofNat 8 ((p.length + 2) / 256) :: BitVec.ofNat 8 ((p.length + 2) % 256) :: p) ∧
    Codec.scanFrame m (f ++ rest) = .ok (BitVec.ofNat 16 (p.length + 2)) p f.length

/-! ## TX unit -/

/-- R137 and R138: an accepted submission is BUILD in the same step: the whole frame into TXB, from index 0 on, and
`Sending`; or `PayloadTooLarge`, with nothing to emit. Every other byte of TXB, and all else, is unchanged. That a rejection
leaves TXB as it was is the model's choice (log 4): R138 calls its contents then unspecified and unread, and R217 says that
nothing else changes. What BUILD run by itself does is the model's deduction (log 12). -/
def Obligations.SubmitBuildsOrRejects : Prop :=
  ∀ (s : State) (p : List Byte), s.tx.state = .idle →
    (Codec.buildFrame s.maxFrameLen p = .error .payloadTooLarge →
      exec (.txSubmit p) s = .next { s with tx := { s.tx with status := .payloadTooLarge, len := 0, idx := 0 } } ∧
      exec (.build p) s = .next { s with tx := { s.tx with status := .payloadTooLarge, len := 0, idx := 0 } }) ∧
    (∀ r, Codec.buildFrame s.maxFrameLen p = .ok r →
      ∃ t, exec (.txSubmit p) s = .next t ∧ exec (.build p) s = .next t ∧
        t = { s with tx := { state := .sending, txb := t.tx.txb, len := r.length, idx := 0, status := .ok } } ∧
        (∀ i, i < r.length → Memory.read t.tx.txb i = r[i]?) ∧
        (∀ i, r.length ≤ i → Memory.read t.tx.txb i = Memory.read s.tx.txb i))

/-- R136: while `Sending` a submission does not happen and changes nothing; it stays offered. What the step does around it is
the model's turn (log 1, log 2). -/
def Obligations.SubmissionWhileSendingDoesNotHappen : Prop :=
  ∀ (s : State) (p : List Byte), s.tx.state = .sending →
    exec (.txSubmit p) s = .next s ∧
    (∀ rest ts, s.host = .txSubmit p :: rest → s.turns = .host :: ts → step s = .next { s with turns := ts })

/-- R139: EMIT hands one byte to the line, and the last byte returns the unit to `Idle`; it holds while the line is not
ready or nothing is being sent. -/
def Obligations.EmitHandsOneByte : Prop :=
  ∀ s : State,
    (∀ b, s.tx.state = .sending → s.line.ready = true → memRead .txb s.tx.idx s = some b →
      exec .emit s = .next
        { s with line := { s.line with txSent := s.line.txSent ++ [b] },
                 tx := { s.tx with idx := s.tx.idx + 1,
                                   state := if s.tx.idx + 1 = s.tx.len then .idle else .sending } }) ∧
    (s.tx.state = .idle ∨ s.line.ready = false → exec .emit s = .next s)

/-- R141: what the line is handed after a submission is the built frame, in order, and nothing else before the unit is
`Idle` again; after a rejection no EMIT is enabled. -/
def Obligations.EmitStepsSendTheBuiltFrame : Prop :=
  ∀ (s : State) (p : List Byte), s.tx.state = .idle →
    (Codec.buildFrame s.maxFrameLen p = .error .payloadTooLarge →
      ∃ t, exec (.txSubmit p) s = .next t ∧ t.tx.status = .payloadTooLarge ∧ fetch .tx t = .hold ∧
        t.line.txSent = s.line.txSent) ∧
    (∀ f, Codec.buildFrame s.maxFrameLen p = .ok f →
      ∃ t, exec (.txSubmit p) s = .next t ∧
        (s.line.ready = true → ∀ k, k ≤ f.length →
          ∃ u, agentRun .tx k t = .next u ∧ u.line.txSent = s.line.txSent ++ f.take k ∧
            (u.tx.state = .idle ↔ k = f.length) ∧ u.tx.status = .ok))

/-! ## RX unit: the rows -/

/-- R152: SCAN_START clears every register and begins hunting, in `Idle` and `Done` only; the buffers' contents are left as
they were. -/
def Obligations.ScanStartClearsAndHunts : Prop :=
  ∀ s : State,
    (s.rx.state = .idle ∨ s.rx.state = .done → exec .scanStart s = .next
      { s with rx := { state := .scanningForStart, count := 0, rxb := s.rx.rxb, len := 0, decIdx := 0,
                       escPending := false, out := s.rx.out, outLen := 0, status := .none,
                       declaredLength := 0#16 } }) ∧
    (s.rx.state = .scanningForStart ∨ s.rx.state = .accumulatingUntilEnd ∨ s.rx.state = .decoding →
      exec .scanStart s = .next s)

/-- R154 to R156: the three cases of HUNT; nothing else changes. -/
def Obligations.HuntRows : Prop :=
  ∀ (s : State) (b : Byte), s.rx.state = .scanningForStart →
    exec .huntStart s = .next { s with rx := { s.rx with count := 0, state := .accumulatingUntilEnd } } ∧
    (b ≠ 0xFE#8 → s.rx.count + 1 < s.maxFrameLen →
      exec (.huntSkip b) s = .next { s with rx := { s.rx with count := s.rx.count + 1 } }) ∧
    (b ≠ 0xFE#8 → s.rx.count + 1 = s.maxFrameLen →
      exec (.huntLimit b) s = .next
        { s with rx := { s.rx with count := s.rx.count + 1, status := .startMarkerNotFound, state := .done } })

/-- R157 to R159: the three cases of ACC. ACC.DATA stores at `RXB[rx_len]` and nowhere else; nothing else changes. That
`rx_len = rx_count` while accumulating is R33's. -/
def Obligations.AccRows : Prop :=
  ∀ (s : State) (b : Byte), s.rx.state = .accumulatingUntilEnd →
    exec .accEnd s = .next { s with rx := { s.rx with count := s.rx.count + 1, state := .decoding } } ∧
    (b ≠ 0xFF#8 → s.rx.count + 1 < s.maxFrameLen → s.rx.len = s.rx.count →
      ∃ t, exec (.accData b) s = .next t ∧
        t = { s with rx := { s.rx with rxb := t.rx.rxb, len := s.rx.len + 1, count := s.rx.count + 1 } } ∧
        Memory.read t.rx.rxb s.rx.len = some b ∧
        ∀ i, i ≠ s.rx.len → Memory.read t.rx.rxb i = Memory.read s.rx.rxb i) ∧
    (b ≠ 0xFF#8 → s.rx.count + 1 = s.maxFrameLen →
      exec (.accLimit b) s = .next
        { s with rx := { s.rx with count := s.rx.count + 1, status := .endMarkerNotFound, state := .done } })

/-- R164: DEC at a symbol start on a byte other than `0xFD` (the rows DEC.LIT, DEC.PASS.FE and, for a body that holds
`0xFF`, which no run meets, DEC.PASS.FF): the byte is emitted at `OUT[out_len]`, and nothing else changes. The bounds are
R33's. -/
def Obligations.DecLiteralRows : Prop :=
  ∀ (s : State) (b : Byte), s.rx.state = .decoding → s.rx.decIdx < s.rx.len → s.rx.escPending = false →
    s.rx.outLen ≤ s.rx.decIdx → s.rx.len ≤ s.maxFrameLen - 1 → b ≠ 0xFD#8 →
    ∃ t,
      (b.toNat ≤ 0xFC → exec (.decLit .scanner b) s = .next t) ∧
      (b = 0xFE#8 → exec (.decPassFE .scanner) s = .next t) ∧
      (b = 0xFF#8 → exec (.decPassFF .scanner) s = .next t) ∧
      t = { s with rx := { s.rx with out := t.rx.out, outLen := s.rx.outLen + 1, decIdx := s.rx.decIdx + 1 } } ∧
      Memory.read t.rx.out s.rx.outLen = some b ∧
      ∀ i, i ≠ s.rx.outLen → Memory.read t.rx.out i = Memory.read s.rx.out i

/-- R165: DEC on the escape byte at a symbol start sets the flag and emits nothing. -/
def Obligations.DecPrefixRow : Prop :=
  ∀ s : State, s.rx.state = .decoding → s.rx.decIdx < s.rx.len → s.rx.escPending = false →
    exec (.decPrefix .scanner) s = .next { s with rx := { s.rx with escPending := true, decIdx := s.rx.decIdx + 1 } }

/-- R166: DEC on a legal operand emits 253, 254 or 255 at `OUT[out_len]` and clears the flag; nothing else changes. The bounds
are R33's. -/
def Obligations.DecPairRows : Prop :=
  ∀ s : State, s.rx.state = .decoding → s.rx.decIdx < s.rx.len → s.rx.escPending = true →
    s.rx.outLen ≤ s.rx.decIdx → s.rx.len ≤ s.maxFrameLen - 1 →
    ∀ (i : Instr) (b : Byte),
      (i = .decEsc0 .scanner ∧ b.toNat = 253) ∨ (i = .decEsc1 .scanner ∧ b.toNat = 254) ∨
        (i = .decEsc2 .scanner ∧ b.toNat = 255) →
      ∃ t, exec i s = .next t ∧
        t = { s with rx := { s.rx with out := t.rx.out, outLen := s.rx.outLen + 1, escPending := false,
                                       decIdx := s.rx.decIdx + 1 } } ∧
        Memory.read t.rx.out s.rx.outLen = some b ∧
        ∀ j, j ≠ s.rx.outLen → Memory.read t.rx.out j = Memory.read s.rx.out j

/-- R167: DEC on an operand of 3 or more raises `InvalidEscapeOperand`; the indices, the flag and all else keep their
values. -/
def Obligations.DecReservedOperandRow : Prop :=
  ∀ (s : State) (d : Byte), s.rx.state = .decoding → s.rx.decIdx < s.rx.len → s.rx.escPending = true → 3 ≤ d.toNat →
    exec (.decEscRsvd .scanner d) s = .next { s with rx := { s.rx with status := .invalidEscapeOperand, state := .done } }

/-- R168 to R170: the three cases of FIN; nothing else changes. -/
def Obligations.FinRows : Prop :=
  ∀ s : State, s.rx.state = .decoding → s.rx.decIdx = s.rx.len →
    (s.rx.escPending = true →
      exec .finMalformed s = .next { s with rx := { s.rx with status := .malformedEscape, state := .done } }) ∧
    (s.rx.escPending = false → 2 ≤ s.rx.outLen → ∀ hi lo, memRead .out 0 s = some hi → memRead .out 1 s = some lo →
      exec .finOk s = .next
        { s with rx := { s.rx with declaredLength := BitVec.ofNat 16 (hi.toNat * 256 + lo.toNat), status := .ok,
                                   state := .done } }) ∧
    (s.rx.escPending = false → s.rx.outLen < 2 →
      exec .finShort s = .next { s with rx := { s.rx with status := .frameTooShort, state := .done } })

/-- R240: RESET in every state: every register of both units to its value in R45; the line, the parameter and all that is
outside the block unchanged. -/
def Obligations.ResetCommandRestoresTheTable : Prop :=
  ∀ s : State, ∃ t, exec .reset s = .next t ∧
    t.rx.state = .idle ∧ t.rx.count = 0 ∧ t.rx.len = 0 ∧ t.rx.decIdx = 0 ∧ t.rx.escPending = false ∧ t.rx.outLen = 0 ∧
    t.rx.status = .none ∧ t.rx.declaredLength = 0#16 ∧
    t.tx.state = .idle ∧ t.tx.len = 0 ∧ t.tx.idx = 0 ∧ t.tx.status = .none ∧
    t = { s with rx := t.rx, tx := t.tx }

/-- R45: the state right after reset, whatever the parameter. -/
def Obligations.StateAfterReset : Prop :=
  ∀ s : State, (s = State.reset ∨ ∃ m : Nat, s = State.resetWith m) →
    s.rx.state = .idle ∧ s.rx.count = 0 ∧ s.rx.len = 0 ∧ s.rx.decIdx = 0 ∧ s.rx.escPending = false ∧ s.rx.outLen = 0 ∧
    s.rx.status = .none ∧ s.rx.declaredLength = 0#16 ∧
    s.tx.state = .idle ∧ s.tx.len = 0 ∧ s.tx.idx = 0 ∧ s.tx.status = .none

/-! ## The standalone calls (the model's own, log 10) -/

/-- DEC for a standalone call of `decode`: the call's fields follow PARSE1 and PARSE_END (R104, R105), and nothing else
changes (R110). That the call has fields in the state is the model's choice (log 10). -/
def Obligations.StandaloneDecodeRows : Prop :=
  ∀ (s : State) (b : Byte), s.calls.decErr = none →
    (s.calls.decEsc = false →
      (b.toNat ≤ 0xFC → exec (.decLit .call b) s = .next
        { s with calls := { s.calls with decOut := s.calls.decOut ++ [b] } }) ∧
      exec (.decPassFE .call) s = .next { s with calls := { s.calls with decOut := s.calls.decOut ++ [0xFE#8] } } ∧
      exec (.decPassFF .call) s = .next { s with calls := { s.calls with decOut := s.calls.decOut ++ [0xFF#8] } } ∧
      exec (.decPrefix .call) s = .next { s with calls := { s.calls with decEsc := true } }) ∧
    (s.calls.decEsc = true →
      exec (.decEsc0 .call) s = .next
        { s with calls := { s.calls with decOut := s.calls.decOut ++ [0xFD#8], decEsc := false } } ∧
      exec (.decEsc1 .call) s = .next
        { s with calls := { s.calls with decOut := s.calls.decOut ++ [0xFE#8], decEsc := false } } ∧
      exec (.decEsc2 .call) s = .next
        { s with calls := { s.calls with decOut := s.calls.decOut ++ [0xFF#8], decEsc := false } } ∧
      (3 ≤ b.toNat → exec (.decEscRsvd .call b) s = .next
        { s with calls := { s.calls with decErr := some .invalidEscapeOperand, decOut := [] } }) ∧
      (s.calls.decIn = [] → exec (.decEscTrunc .call) s = .next
        { s with calls := { s.calls with decErr := some .malformedEscape, decOut := [] } }))

/-- ENC for a standalone call of `encode`: the wire bytes of R100 are appended to the call's result, and nothing else
changes (R110). That the call has fields in the state is the model's choice (log 10). -/
def Obligations.StandaloneEncodeRows : Prop :=
  ∀ (s : State) (b : Byte),
    (b.toNat ≤ 0xFC → exec (.encLit b) s = .next
      { s with calls := { s.calls with encOut := s.calls.encOut ++ [b] } }) ∧
    exec .encEsc0 s = .next { s with calls := { s.calls with encOut := s.calls.encOut ++ [0xFD#8, 0x00#8] } } ∧
    exec .encEsc1 s = .next { s with calls := { s.calls with encOut := s.calls.encOut ++ [0xFD#8, 0x01#8] } } ∧
    exec .encEsc2 s = .next { s with calls := { s.calls with encOut := s.calls.encOut ++ [0xFD#8, 0x02#8] } }

/-- FRAME answers its caller what `build_frame` gives, and nothing else changes (R130). That the answer has a field in the
state is the model's choice (log 9, log 10). -/
def Obligations.FrameAnswersBuildFrame : Prop :=
  ∀ (s : State) (p : List Byte), exec (.frame p) s = .next
    { s with calls := { s.calls with frameOut := some (Codec.buildFrame s.maxFrameLen p) } }

/-- A whole standalone call, turn by turn, gives what the function gives: `encode` its sequence, `decode` its sequence or
its error kind (R101, R105). The caller and its turns are the model's (log 1, log 10). -/
def Obligations.StandaloneCallsComputeTheFunctions : Prop :=
  ∀ (s : State) (x : List Byte),
    (s.calls.encIn = x → s.calls.encOut = [] →
      ∃ t, agentRun .encoder x.length s = .next t ∧ t.calls.encIn = [] ∧ t.calls.encOut = Codec.encodeBytes x ∧
        t.rx = s.rx ∧ t.tx = s.tx ∧ t.line = s.line) ∧
    (s.calls.decIn = x → s.calls.decOut = [] → s.calls.decEsc = false → s.calls.decErr = none →
      ∃ t, agentRun .decoder (x.length + 1) s = .next t ∧ t.rx = s.rx ∧ t.tx = s.tx ∧ t.line = s.line ∧
        (∀ y, Codec.decodeBytes x = .ok y → t.calls.decErr = none ∧ t.calls.decOut = y ∧ t.calls.decIn = []) ∧
        (∀ k, Codec.decodeBytes x = .error k → t.calls.decErr = some k ∧ t.calls.decOut = []))

/-! ## Steps -/

/-- R153: a byte of the line is consumed exactly when `rx_ready`, one per step, and the row it is read as is run on the state
with the byte removed. The turn taken is the model's (log 1). -/
def Obligations.RxStepRunsTheByteOffered : Prop :=
  ∀ (s : State) (ts : List Agent), s.turns = .rx :: ts →
    (∀ c b rest i, lineContext s = some c → s.line.rxQueue = b :: rest → decode c [b] = .instr i [] →
      step s = exec i { s with turns := ts, line := { s.line with rxQueue := rest } }) ∧
    (Inv s → rxReady s = true → ∀ b rest, s.line.rxQueue = b :: rest →
      ∃ t, step s = .next t ∧ t.line.rxQueue = rest) ∧
    (rxReady s = false → ∀ t, step s = .next t → t.line = s.line) ∧
    (rxReady s = true → s.line.rxQueue = [] → step s = .next { s with turns := ts })

/-- While `Decoding` a step runs the row that `RXB[dec_idx]` is read as in context S, and at the end of the body the case of
FIN (R163, R168). The turn taken is the model's (log 1). DEC.ESC.TRUNC, the table's row for an escape byte that ends the
region, does there what FIN.MALFORMED does: the model's deduction (log 11). -/
def Obligations.RxStepRunsTheByteStored : Prop :=
  ∀ (s : State) (ts : List Agent), s.turns = .rx :: ts → s.rx.state = .decoding →
    (∀ b i, s.rx.decIdx < s.rx.len → memRead .rxb s.rx.decIdx s = some b →
      decode (if s.rx.escPending then .operand .scanner else .symStart .scanner) [b] = .instr i [] →
      step s = exec i { s with turns := ts }) ∧
    (s.rx.decIdx = s.rx.len →
      step s = exec (if s.rx.escPending then .finMalformed else if 2 ≤ s.rx.outLen then .finOk else .finShort)
        { s with turns := ts }) ∧
    (s.rx.decIdx = s.rx.len → s.rx.escPending = true →
      exec (.decEscTrunc .scanner) s = .next { s with rx := { s.rx with status := .malformedEscape, state := .done } })

/-- The other agents' steps run the row they find: EMIT for the TX unit; the command offered, taken when accepted; the rows
of the standalone calls. The turn taken is the model's (log 1). -/
def Obligations.StepRunsTheRowFetched : Prop :=
  ∀ (s u : State) (ts : List Agent) (a : Agent) (i : Instr), s.turns = a :: ts →
    (fetch a { s with turns := ts } = .take i u → step s = exec i u) ∧
    (a = .tx → s.tx.state = .sending → s.line.ready = true → step s = exec .emit { s with turns := ts }) ∧
    (a = .host → ∀ rest,
      (s.host = .reset :: rest → step s = exec .reset { s with turns := ts, host := rest }) ∧
      (s.host = .scanStart :: rest → scanReady s = true → step s = exec .scanStart { s with turns := ts, host := rest }) ∧
      (∀ p, s.host = .txSubmit p :: rest → txReady s = true →
        step s = exec (.txSubmit p) { s with turns := ts, host := rest }))

/-- R163: a DEC step applies PARSE1 to the flag and the byte read: what is emitted goes to `OUT[out_len]`, an error ends the
attempt with the indices and the flag as they were; every other case moves `dec_idx` on by one; the line is not touched. -/
def Obligations.DecStepAppliesParse1 : Prop :=
  ∀ (s : State) (ts : List Agent) (b : Byte), Inv s → s.turns = .rx :: ts → s.rx.state = .decoding →
    s.rx.decIdx < s.rx.len → memRead .rxb s.rx.decIdx s = some b →
    ∃ t, step s = .next t ∧ t.line = s.line ∧
      match Codec.parse1 s.rx.escPending b with
      | .next esc emitted =>
        t.rx.state = .decoding ∧ t.rx.escPending = esc ∧ t.rx.decIdx = s.rx.decIdx + 1 ∧
        t.rx.outLen = s.rx.outLen + emitted.toList.length ∧
        (∀ v, emitted = some v → Memory.read t.rx.out s.rx.outLen = some v) ∧
        (∀ i, i < s.rx.outLen → Memory.read t.rx.out i = Memory.read s.rx.out i)
      | .error k =>
        t.rx.state = .done ∧ rxStatusOf k = some t.rx.status ∧ t.rx.decIdx = s.rx.decIdx ∧
        t.rx.outLen = s.rx.outLen ∧ t.rx.escPending = s.rx.escPending

/-- R16: what a unit cannot accept does not happen and stays offered: a command while it is not accepted, a byte while the
RX unit is not ready. That such a step only passes the turn is the model's reading (log 1, log 2). -/
def Obligations.UnacceptedEventsStayOffered : Prop :=
  ∀ (s : State) (ts : List Agent),
    (s.turns = .host :: ts → ∀ c rest, s.host = c :: rest → accepted c s = false → step s = .next { s with turns := ts }) ∧
    (s.turns = .rx :: ts → s.rx.state = .idle ∨ s.rx.state = .done → step s = .next { s with turns := ts })

/-! ## Invariants -/

/-- The state after reset meets the invariants, for every value of the parameter in its range (R8, R45). -/
def Obligations.ResetMeetsTheInvariants : Prop :=
  Inv State.reset ∧ ∀ m : Nat, 4 ≤ m → m ≤ 65537 → Inv (State.resetWith m)

/-- R33 and R40: the invariants hold after every step, whoever takes it; no step writes the parameter (R8). -/
def Obligations.StepKeepsTheInvariants : Prop :=
  ∀ s t : State, Inv s → step s = .next t → Inv t ∧ t.maxFrameLen = s.maxFrameLen

/-- R53: no step makes an access outside a buffer, or of a byte never written: from a state that meets the invariants every
step answers a next state. -/
def Obligations.StepNeverStops : Prop :=
  ∀ s : State, Inv s → ∃ t, step s = .next t

/-- R181: the transitions of `rx_state`; no other exists. -/
def Obligations.RxStateTransitions : Prop :=
  ∀ s t : State, step s = .next t → t.rx.state ≠ s.rx.state →
    ((nextTurn s).1 = .host ∧
      ((s.host.head? = some .reset ∧ t.rx.state = .idle) ∨
       (s.host.head? = some .scanStart ∧ (s.rx.state = .idle ∨ s.rx.state = .done) ∧
        t.rx.state = .scanningForStart))) ∨
    ((nextTurn s).1 = .rx ∧
      ((s.rx.state = .scanningForStart ∧ s.line.rxQueue.head? = some 0xFE#8 ∧ t.rx.state = .accumulatingUntilEnd) ∨
       (s.rx.state = .scanningForStart ∧ s.line.rxQueue ≠ [] ∧ s.line.rxQueue.head? ≠ some 0xFE#8 ∧
        s.rx.count + 1 = s.maxFrameLen ∧ t.rx.state = .done ∧ t.rx.status = .startMarkerNotFound) ∨
       (s.rx.state = .accumulatingUntilEnd ∧ s.line.rxQueue.head? = some 0xFF#8 ∧ t.rx.state = .decoding) ∨
       (s.rx.state = .accumulatingUntilEnd ∧ s.line.rxQueue ≠ [] ∧ s.line.rxQueue.head? ≠ some 0xFF#8 ∧
        s.rx.count + 1 = s.maxFrameLen ∧ t.rx.state = .done ∧ t.rx.status = .endMarkerNotFound) ∨
       (s.rx.state = .decoding ∧ s.rx.decIdx < s.rx.len ∧ s.rx.escPending = true ∧
        (∃ b, memRead .rxb s.rx.decIdx s = some b ∧ 3 ≤ b.toNat) ∧ t.rx.state = .done ∧
        t.rx.status = .invalidEscapeOperand) ∨
       (s.rx.state = .decoding ∧ s.rx.decIdx = s.rx.len ∧ s.rx.escPending = true ∧ t.rx.state = .done ∧
        t.rx.status = .malformedEscape) ∨
       (s.rx.state = .decoding ∧ s.rx.decIdx = s.rx.len ∧ s.rx.escPending = false ∧ 2 ≤ s.rx.outLen ∧
        t.rx.state = .done ∧ t.rx.status = .ok) ∨
       (s.rx.state = .decoding ∧ s.rx.decIdx = s.rx.len ∧ s.rx.escPending = false ∧ s.rx.outLen < 2 ∧
        t.rx.state = .done ∧ t.rx.status = .frameTooShort)))

/-- R10: the units share no state: a step of one leaves the other's registers, buffers and direction of the line alone, and
the two may step in either order with one result. -/
def Obligations.UnitsShareNoState : Prop :=
  (∀ s t, agentStep .rx s = .next t → t.tx = s.tx ∧ t.line.txSent = s.line.txSent ∧ t.line.ready = s.line.ready) ∧
  (∀ s t, agentStep .tx s = .next t → t.rx = s.rx ∧ t.line.rxQueue = s.line.rxQueue) ∧
  (∀ s t, agentStep .line s = .next t → t.rx = s.rx ∧ t.tx = s.tx) ∧
  (∀ s t u, agentStep .rx s = .next t → agentStep .tx t = .next u →
    ∃ v, agentStep .tx s = .next v ∧ agentStep .rx v = .next u)

/-- R43 and R59: bytes arrive at the end of the receive sequence, in the order the peer sent them, and nothing but an RX step
removes one, from the front. What the line will do is the model's script (log 13). -/
def Obligations.LineIsFirstInFirstOut : Prop :=
  ∀ s t : State, step s = .next t →
    t.line.rxQueue = s.line.rxQueue ∨
    ((nextTurn s).1 = .line ∧ ∃ b rest, s.line.script = .deliver b :: rest ∧ t.line.script = rest ∧
      t.line.rxQueue = s.line.rxQueue ++ [b]) ∨
    ((nextTurn s).1 = .rx ∧ ∃ b, s.line.rxQueue = b :: t.line.rxQueue)

/-- R173: in `Done` no step but an accepted SCAN_START or RESET of the host changes a register of the RX unit, and its own turn
changes nothing and consumes no byte; on an error the payload reads as empty and the declared length as 0. -/
def Obligations.DoneHoldsTheResult : Prop :=
  ∀ s t : State, s.rx.state = .done → step s = .next t →
    (t.rx = s.rx ∨ ((nextTurn s).1 = .host ∧ (s.host.head? = some .reset ∨ s.host.head? = some .scanStart))) ∧
    ((nextTurn s).1 = .rx → t = (nextTurn s).2) ∧
    (Inv s → s.rx.status ≠ .ok → resPayload s = some [] ∧ resDeclaredLength s = 0#16)

/-- R34: the result outputs in a state that meets the invariants: the payload is `OUT[2:out_len]` after success and empty else,
and `res_len_match` compares the declared length with `out_len`. -/
def Obligations.ResultOutputs : Prop :=
  ∀ s : State, Inv s →
    (s.rx.status = .ok → ∃ p, resPayload s = some p ∧ p.length = s.rx.outLen - 2 ∧
      (∀ k, k < p.length → p[k]? = Memory.read s.rx.out (k + 2)) ∧
      (resLenMatch s = true ↔ s.rx.declaredLength.toNat = 2 + p.length)) ∧
    (s.rx.status ≠ .ok → resPayload s = some [] ∧ resLenMatch s = false) ∧
    (resValid s = true ↔ s.rx.status ≠ .none) ∧
    (rxReady s = true ↔ s.rx.state = .scanningForStart ∨ s.rx.state = .accumulatingUntilEnd) ∧
    (scanReady s = true ↔ s.rx.state = .idle ∨ s.rx.state = .done)

/-- R41: the byte offered to the line while `Sending` is `TXB[tx_idx]`, and EMIT hands over exactly it. -/
def Obligations.TxOutputs : Prop :=
  ∀ s : State, Inv s →
    (txReady s = true ↔ s.tx.state = .idle) ∧ (txValid s = true ↔ s.tx.state = .sending) ∧
    (s.tx.state = .idle → txByte s = none) ∧
    (s.tx.state = .sending → ∃ b, txByte s = some b ∧ Memory.read s.tx.txb s.tx.idx = some b ∧
      (s.line.ready = true → ∃ t, exec .emit s = .next t ∧ t.line.txSent = s.line.txSent ++ [b]))

/-- The numeric codes of the states and statuses (R22, R23, R31, R39), and the status of each error kind (R210, R213). -/
def Obligations.StatusCodes : Prop :=
  (RxState.code .idle = 0#3 ∧ RxState.code .scanningForStart = 1#3 ∧ RxState.code .accumulatingUntilEnd = 2#3 ∧
    RxState.code .decoding = 3#3 ∧ RxState.code .done = 4#3) ∧
  (TxState.code .idle = 0#1 ∧ TxState.code .sending = 1#1) ∧
  ((rxStatusOf .startMarkerNotFound).map RxStatus.code = some 2#3 ∧
    (rxStatusOf .endMarkerNotFound).map RxStatus.code = some 3#3 ∧
    (rxStatusOf .malformedEscape).map RxStatus.code = some 4#3 ∧
    (rxStatusOf .invalidEscapeOperand).map RxStatus.code = some 5#3 ∧
    (rxStatusOf .frameTooShort).map RxStatus.code = some 6#3 ∧
    (txStatusOf .payloadTooLarge).map TxStatus.code = some 2#2 ∧
    rxStatusOf .lengthMismatch = none ∧ rxStatusOf .peerReportedError = none ∧
    txStatusOf .lengthMismatch = none ∧ txStatusOf .peerReportedError = none) ∧
  (RxStatus.code .none = 0#3 ∧ RxStatus.code .ok = 1#3 ∧ TxStatus.code .none = 0#2 ∧ TxStatus.code .ok = 1#2)

/-! ## The scanner -/

/-- R151: `scan_frame` is `read_until` for the start marker, then for the end marker, each with the limit, then the decoding
of what stands before the end marker. R171: it is defined for every finite and infinite stream; bytes after those consumed
do not change a result; on an infinite stream it never blocks and gives what it gives of any `2 * MAX_FRAME_LEN` or more of
its first bytes. -/
def Obligations.ScanFrameIsReadUntil : Prop :=
  ∀ (m : Nat) (st : List Byte), 1 ≤ m →
    (Codec.scanFrame m st =
      match Codec.readUntil 0xFE#8 m st with
      | .dry => .blocked
      | .notFound taken _ => .err .startMarkerNotFound taken.length
      | .found taken rest =>
        match Codec.readUntil 0xFF#8 m rest with
        | .dry => .blocked
        | .notFound taken' _ => .err .endMarkerNotFound (taken.length + taken'.length)
        | .found taken' _ => Codec.scanFinish (taken.length + taken'.length) taken'.dropLast) ∧
    (∀ more : List Byte, Codec.scanFrame m st ≠ .blocked → Codec.scanFrame m (st ++ more) = Codec.scanFrame m st) ∧
    Codec.scanStream m (Codec.finiteStream st) = Codec.scanFrame m st ∧
    (∀ byteAt : Nat → Byte, Codec.scanStream m (Codec.infiniteStream byteAt) ≠ .blocked ∧
      ∀ n, 2 * m ≤ n →
        Codec.scanStream m (Codec.infiniteStream byteAt) = Codec.scanFrame m ((List.range n).map byteAt))

/-- R175: a scan attempt of the RX unit, run until nothing is enabled, gives what `scan_frame` gives of the bytes on the
line: the same result, the same bytes consumed, and a hold where the bytes run out. -/
def Obligations.ScannerRunIsScanFrame : Prop :=
  ∀ s : State, Inv s → s.rx.state = .idle ∨ s.rx.state = .done →
    ∃ s0, exec .scanStart s = .next s0 ∧ ∃ n t, agentRun .rx n s0 = .next t ∧ fetch .rx t = .hold ∧
      match Codec.scanFrame s.maxFrameLen s.line.rxQueue with
      | .ok declared payload c =>
        t.rx.state = .done ∧ t.rx.status = .ok ∧ t.rx.declaredLength = declared ∧ resPayload t = some payload ∧
        c ≤ s.line.rxQueue.length ∧ t.line.rxQueue = s.line.rxQueue.drop c
      | .err k c =>
        t.rx.state = .done ∧ rxStatusOf k = some t.rx.status ∧
        c ≤ s.line.rxQueue.length ∧ t.line.rxQueue = s.line.rxQueue.drop c
      | .blocked =>
        t.line.rxQueue = [] ∧ (t.rx.state = .scanningForStart ∨ t.rx.state = .accumulatingUntilEnd) ∧
        t.rx.status = .none

/-- R176: what the builder builds the scanner recovers, junk without a start marker before it or not, and the lengths
match. -/
def Obligations.ScannerRecoversBuiltFrames : Prop :=
  ∀ (m : Nat) (p f g rest : List Byte), 4 ≤ m → m ≤ 65537 → Codec.buildFrame m p = .ok f →
    0xFE#8 ∉ g → g.length ≤ m - 1 →
    Codec.scanFrame m (f ++ rest) = .ok (BitVec.ofNat 16 (p.length + 2)) p f.length ∧
    Codec.scanFrame m (g ++ f ++ rest) = .ok (BitVec.ofNat 16 (p.length + 2)) p (g.length + f.length) ∧
    (BitVec.ofNat 16 (p.length + 2)).toNat = 2 + p.length

/-- R177: bytes consumed, by outcome; `h` counts up to and including the start marker, `e` after it up to and including the
end marker. -/
def Obligations.BytesConsumedByOutcome : Prop :=
  ∀ (m : Nat) (st : List Byte), 4 ≤ m →
    (∀ c, (∃ k, Codec.scanFrame m st = .err k c) ∨ (∃ declared payload, Codec.scanFrame m st = .ok declared payload c) →
      c ≤ 2 * m) ∧
    (∀ c, Codec.scanFrame m st = .err .startMarkerNotFound c → c = m) ∧
    (∀ c, Codec.scanFrame m st = .err .endMarkerNotFound c →
      ∃ h, 1 ≤ h ∧ h ≤ m ∧ st[h - 1]? = some 0xFE#8 ∧ 0xFE#8 ∉ st.take (h - 1) ∧ c = h + m) ∧
    (∀ c, (∃ declared payload, Codec.scanFrame m st = .ok declared payload c) ∨
        (∃ k, k ≠ .startMarkerNotFound ∧ k ≠ .endMarkerNotFound ∧ Codec.scanFrame m st = .err k c) →
      ∃ h e, 1 ≤ h ∧ h ≤ m ∧ 1 ≤ e ∧ e ≤ m ∧ st[h - 1]? = some 0xFE#8 ∧ 0xFE#8 ∉ st.take (h - 1) ∧
        st[h + e - 1]? = some 0xFF#8 ∧ 0xFF#8 ∉ (st.drop h).take (e - 1) ∧ c = h + e)

/-- R174: every declared length 0 to 65535 is passed on, whatever was received with it. -/
def Obligations.EveryDeclaredLengthIsPassedOn : Prop :=
  ∀ (m : Nat) (declared : Half) (p rest : List Byte), 4 ≤ m →
    (Codec.encodeBytes (Codec.lenBytes declared.toNat ++ p)).length + 1 ≤ m →
    Codec.scanFrame m
        (0xFE#8 :: (Codec.encodeBytes (Codec.lenBytes declared.toNat ++ p) ++ 0xFF#8 :: rest)) =
      .ok declared p ((Codec.encodeBytes (Codec.lenBytes declared.toNat ++ p)).length + 2)

/-- R178: no leakage between attempts: two machines with the same parameter and the same bytes on the line, whatever went
before in either, show the same through every step of the attempt. The bytes are those on the line when SCAN_START is
accepted; bytes that arrive during the attempt are left out. -/
def Obligations.NoLeakageBetweenAttempts : Prop :=
  ∀ (s s' : State) (n : Nat) (u : State), s.maxFrameLen = s'.maxFrameLen → s.line.rxQueue = s'.line.rxQueue →
    s.rx.state = .idle ∨ s.rx.state = .done → s'.rx.state = .idle ∨ s'.rx.state = .done →
    ∀ t t', exec .scanStart s = .next t → exec .scanStart s' = .next t' → agentRun .rx n t = .next u →
      ∃ u', agentRun .rx n t' = .next u' ∧ u'.rx.state = u.rx.state ∧ u'.rx.status = u.rx.status ∧
        u'.rx.declaredLength = u.rx.declaredLength ∧ resPayload u' = resPayload u ∧
        u'.line.rxQueue = u.line.rxQueue

/-- R254: decoding a body takes at most `rx_len - dec_idx + 1` internal steps, so at most `rx_len + 1`, and consumes
nothing. -/
def Obligations.DecodingEndsInBoundedSteps : Prop :=
  ∀ s : State, Inv s → s.rx.state = .decoding →
    ∃ n t, n ≤ s.rx.len - s.rx.decIdx + 1 ∧ n ≤ s.maxFrameLen ∧ agentRun .rx n s = .next t ∧ t.rx.state = .done ∧
      t.line.rxQueue = s.line.rxQueue

/-! ## The host's side (outside the block, log 15) -/

/-- R193, R194, R247 and R197: the classifier comes before the length check, which is made on data replies only; the
handshake shows what comes before readiness and returns the identity, for every recogniser of the readiness text. A scan
attempt that fails during the handshake gives no text and is not spoken of: the model's choice (log 15). -/
def Obligations.HostSideRules : Prop :=
  (∀ d : Half, (HostSide.classify d = .diagnostic ↔ d = 0#16) ∧ (HostSide.classify d = .dataReply ↔ d ≠ 0#16)) ∧
  (∀ (d : Half) (p : List Byte),
    HostSide.lengthCheck false d p = none ∧
    (HostSide.lengthCheck true d p = some .lengthMismatch ↔ d ≠ 0#16 ∧ d.toNat ≠ 2 + p.length)) ∧
  (∀ (recognise : List Byte → Option (Option (List Byte))) (unrelated : List (List Byte)) (text : List Byte)
      (identity : Option (List Byte)) (later : List (List Byte)),
    (∀ d ∈ unrelated, recognise d = none) → recognise text = some identity →
    HostSide.awaitReady recognise (unrelated ++ text :: later) =
      { shown := unrelated, ready := true, identity := identity })
end

