-- ==== Sys2Proof/Laws/Codec.lean ====
section
/-! SUPPORT. Byte classes (R70), the sums of the codec (R111), and how its functions unfold on one symbol. -/
namespace Sys2Proof.Laws
open Sys2Proof.Codec

/-! ## Byte classes -/

/-- A byte outside the three reserved values is a literal (R70). -/
theorem literal_of_ne {b : Byte} (h1 : b ≠ 0xFD#8) (h2 : b ≠ 0xFE#8) (h3 : b ≠ 0xFF#8) : b < 0xFD#8 := by
  bv_omega

theorem ne_of_literal {b : Byte} (h : b < 0xFD#8) : b ≠ 0xFD#8 ∧ b ≠ 0xFE#8 ∧ b ≠ 0xFF#8 := by
  refine ⟨?_, ?_, ?_⟩ <;> bv_omega

/-- A byte that is no legal operand is a reserved one (R78). -/
theorem reserved_of_ne {d : Byte} (h0 : d ≠ 0#8) (h1 : d ≠ 1#8) (h2 : d ≠ 2#8) : 3#8 ≤ d := by
  bv_omega

theorem legal_cases {d : Byte} (h : ¬3#8 ≤ d) : d = 0#8 ∨ d = 1#8 ∨ d = 2#8 := by
  bv_omega

theorem legal_iff {d : Byte} : d ≤ 2#8 ↔ ¬3#8 ≤ d := by
  bv_omega

/-- A byte in the reserved range is one of the three (R70). -/
theorem special_cases {b : Byte} (h : 0xFD#8 ≤ b) : b = 0xFD#8 ∨ b = 0xFE#8 ∨ b = 0xFF#8 := by
  bv_omega

/-! ## ENC1 and encode -/

theorem enc1_literal {b : Byte} (h : b < 0xFD#8) : enc1 b = [b] :=
  if_neg (by bv_omega)

theorem enc1_reserved {b : Byte} (h : 0xFD#8 ≤ b) : enc1 b = [0xFD#8, b - 0xFD#8] :=
  if_pos h

@[simp] theorem encodeBytes_nil : encodeBytes [] = [] := rfl

@[simp] theorem encodeBytes_cons (b : Byte) (p : List Byte) : encodeBytes (b :: p) = enc1 b ++ encodeBytes p := rfl

theorem encodeBytes_append (p q : List Byte) : encodeBytes (p ++ q) = encodeBytes p ++ encodeBytes q := by
  induction p with
  | nil => rfl
  | cons b p ih => rw [List.cons_append, encodeBytes_cons, encodeBytes_cons, ih, List.append_assoc]

/-! ## PARSE1 -/

theorem parse1_literal {b : Byte} (h : b ≠ 0xFD#8) : parse1 false b = .next false (some b) := by
  simp [parse1, h]

theorem parse1_prefix : parse1 false 0xFD#8 = .next true none := rfl

theorem parse1_legal {d : Byte} (h : d ≤ 2#8) : parse1 true d = .next false (some (0xFD#8 + d)) := by
  simp [parse1, h]

theorem parse1_reserved {d : Byte} (h : 3#8 ≤ d) : parse1 true d = .error .invalidEscapeOperand := by
  have : ¬d ≤ 2#8 := fun e => legal_iff.mp e h
  simp only [parse1, if_true]
  rw [if_neg this]

/-! ## decode, one symbol at a time -/

theorem decodeBytes_literal {b : Byte} (h : b ≠ 0xFD#8) (s : List Byte) :
    decodeBytes (b :: s) = (decodeBytes s).prepend [b] := by
  cases s with
  | nil => simp [decodeBytes, h, Result.prepend]
  | cons d s => simp [decodeBytes, h]

theorem decodeBytes_legal {d : Byte} (h : ¬3#8 ≤ d) (s : List Byte) :
    decodeBytes (0xFD#8 :: d :: s) = (decodeBytes s).prepend [0xFD#8 + d] := by
  simp only [decodeBytes, if_true]
  rw [if_neg h]

theorem decodeBytes_reserved {d : Byte} (h : 3#8 ≤ d) (s : List Byte) :
    decodeBytes (0xFD#8 :: d :: s) = .error .invalidEscapeOperand := by
  simp only [decodeBytes, if_true]
  rw [if_pos h]

theorem decodeBytes_unpaired : decodeBytes [0xFD#8] = .error .malformedEscape := rfl

@[simp] theorem prepend_ok (bs t : List Byte) : (Result.ok t).prepend bs = .ok (bs ++ t) := rfl

@[simp] theorem prepend_error (bs : List Byte) (k : ErrorKind) : (Result.error k).prepend bs = .error k := rfl

theorem prepend_prepend (a b : List Byte) (r : Result) : (r.prepend b).prepend a = r.prepend (a ++ b) := by
  cases r <;> simp

/-! ## Rows of one byte -/

theorem symStartRow_literal (u : Reader) {b : Byte} (h : b < 0xFD#8) : symStartRow u b = .decLit u b := by
  obtain ⟨h1, h2, h3⟩ := ne_of_literal h
  simp [symStartRow, h1, h2, h3]

theorem operandRow_reserved (u : Reader) {d : Byte} (h : 3#8 ≤ d) : operandRow u d = .decEscRsvd u d := by
  have h0 : d ≠ 0#8 := by bv_omega
  have h1 : d ≠ 1#8 := by bv_omega
  have h2 : d ≠ 2#8 := by bv_omega
  simp [operandRow, h0, h1, h2]

theorem encoderRow_literal {b : Byte} (h : b < 0xFD#8) : encoderRow b = .encLit b := by
  obtain ⟨h1, h2, h3⟩ := ne_of_literal h
  simp [encoderRow, h1, h2, h3]

end Sys2Proof.Laws
end

