-- ==== Sys2Proof/Laws/Memory.lean ====
section
/-! SUPPORT. The laws of a buffer's bytes: read after write, and that a write keeps the canonical form. -/
namespace Sys2Proof.Laws
open Sys2Proof.Machine

@[simp] theorem read_nil (i : Nat) : Memory.read [] i = none := rfl

theorem read_cons (c : Host.Cell) (m : Memory) (i : Nat) :
    Memory.read (c :: m) i = if c.1 = i then some c.2 else Memory.read m i := rfl

@[simp] theorem read_write_same (m : Memory) (i : Nat) (b : Byte) : Memory.read (Memory.write m i b) i = some b := by
  induction m with
  | nil => simp [Memory.write, Memory.read]
  | cons c m ih =>
    unfold Memory.write
    split
    · simp [Memory.read]
    · split
      · simp [Memory.read]
      · next h => rw [read_cons, if_neg (fun e => h e.symm), ih]

theorem read_write_other (m : Memory) (i j : Nat) (b : Byte) (h : j ≠ i) :
    Memory.read (Memory.write m i b) j = Memory.read m j := by
  induction m with
  | nil => simp [Memory.write, Memory.read, h.symm]
  | cons c m ih =>
    unfold Memory.write
    split
    · rw [read_cons, if_neg h.symm]
    · split
      · next e => rw [read_cons, read_cons, if_neg h.symm, if_neg (e ▸ h.symm)]
      · rw [read_cons, read_cons, ih]

theorem read_write (m : Memory) (i j : Nat) (b : Byte) :
    Memory.read (Memory.write m i b) j = if j = i then some b else Memory.read m j := by
  split
  · next h => rw [h, read_write_same]
  · next h => exact read_write_other m i j b h

theorem mem_write {m : Memory} {i : Nat} {b : Byte} {c : Host.Cell} (h : c ∈ Memory.write m i b) :
    c = (i, b) ∨ c ∈ m := by
  induction m with
  | nil => simpa [Memory.write] using h
  | cons d m ih =>
    unfold Memory.write at h
    split at h
    · simpa using h
    · split at h
      · rcases List.mem_cons.mp h with h | h
        · exact .inl h
        · exact .inr (List.mem_cons_of_mem _ h)
      · rcases List.mem_cons.mp h with h | h
        · exact .inr (h ▸ List.mem_cons_self)
        · exact (ih h).imp_right (List.mem_cons_of_mem _)

/-- A write keeps the canonical form. -/
theorem write_wf {m : Memory} (i : Nat) (b : Byte) (h : Memory.wf m) : Memory.wf (Memory.write m i b) := by
  induction m with
  | nil => simp [Memory.write]
  | cons c m ih =>
    obtain ⟨hc, hm⟩ := List.pairwise_cons.mp h
    unfold Memory.write
    split
    · next hi =>
      refine List.pairwise_cons.mpr ⟨fun d hd => ?_, h⟩
      rcases List.mem_cons.mp hd with hd | hd
      · exact hd ▸ hi
      · exact Nat.lt_trans hi (hc d hd)
    · split
      · next _ hi => exact List.pairwise_cons.mpr ⟨fun d hd => hi ▸ hc d hd, hm⟩
      · next h1 h2 =>
        refine List.pairwise_cons.mpr ⟨fun d hd => ?_, ih hm⟩
        rcases mem_write hd with hd | hd
        · rw [hd]; exact Nat.lt_of_le_of_ne (Nat.le_of_not_lt h1) (Ne.symm h2)
        · exact hc d hd

/-- A write inside a bound keeps every index inside it. -/
theorem write_within {m : Memory} {n i : Nat} (b : Byte) (h : ∀ c ∈ m, c.1 < n) (hi : i < n) :
    ∀ c ∈ Memory.write m i b, c.1 < n := fun _ hc => by
  rcases mem_write hc with hc | hc
  · rw [hc]; exact hi
  · exact h _ hc

/-- A write leaves the valid bytes listed and lists one more. -/
theorem write_listed {m : Memory} {n : Nat} (b : Byte) (h : ∀ i, i < n → (Memory.read m i).isSome = true) :
    ∀ i, i < n + 1 → (Memory.read (Memory.write m n b) i).isSome = true := fun i hi => by
  rw [read_write]
  split
  · rfl
  · exact h i (by omega)

/-! ## Blocks -/

theorem read_writeBlock (m : Memory) (i : Nat) (bs : List Byte) (j : Nat) :
    Memory.read (Memory.writeBlock m i bs) j =
      if i ≤ j ∧ j < i + bs.length then bs[j - i]? else Memory.read m j := by
  induction bs generalizing m i with
  | nil => simp only [Memory.writeBlock, List.length_nil]; rw [if_neg (by omega)]
  | cons b bs ih =>
    simp only [Memory.writeBlock, List.length_cons]
    rw [ih, read_write]
    by_cases h : j = i
    · subst h
      rw [if_neg (by omega), if_pos rfl, if_pos (by omega)]; simp
    · by_cases h1 : i + 1 ≤ j ∧ j < i + 1 + bs.length
      · rw [if_pos h1, if_pos (by omega), show j - i = (j - (i + 1)) + 1 by omega]; simp
      · rw [if_neg h1, if_neg h, if_neg (by omega)]

theorem writeBlock_wf {m : Memory} (i : Nat) (bs : List Byte) (h : Memory.wf m) : Memory.wf (Memory.writeBlock m i bs) := by
  induction bs generalizing m i with
  | nil => exact h
  | cons b bs ih => exact ih (i + 1) (write_wf i b h)

theorem writeBlock_within {m : Memory} {n i : Nat} {bs : List Byte} (h : ∀ c ∈ m, c.1 < n) (hi : i + bs.length ≤ n) :
    ∀ c ∈ Memory.writeBlock m i bs, c.1 < n := by
  induction bs generalizing m i with
  | nil => exact h
  | cons b bs ih =>
    rw [List.length_cons] at hi
    exact ih (write_within b h (by omega)) (by omega)

/-! ## Equal contents are equal data -/

theorem read_eq_some_of_mem {m : Memory} {c : Host.Cell} (h : Memory.wf m) (hc : c ∈ m) :
    Memory.read m c.1 = some c.2 := by
  induction m with
  | nil => simp at hc
  | cons d m ih =>
    obtain ⟨hd, hm⟩ := List.pairwise_cons.mp h
    rcases List.mem_cons.mp hc with rfl | hc
    · simp [Memory.read]
    · rw [read_cons, if_neg (Nat.ne_of_lt (hd c hc)), ih hm hc]

theorem mem_of_read_eq_some {m : Memory} {i : Nat} {b : Byte} (h : Memory.read m i = some b) : (i, b) ∈ m := by
  induction m with
  | nil => simp at h
  | cons d m ih =>
    rw [read_cons] at h
    split at h
    · next e => exact List.mem_cons.mpr (.inl (Prod.ext e.symm (Option.some.inj h).symm))
    · exact List.mem_cons_of_mem _ (ih h)

/-- Two buffers in canonical form that read alike everywhere are the same list. -/
theorem eq_of_read_eq {m m' : Memory} (h : Memory.wf m) (h' : Memory.wf m')
    (e : ∀ i, Memory.read m i = Memory.read m' i) : m = m' := by
  refine List.Pairwise.eq_of_mem_iff (r := fun x y : Host.Cell => x.1 < y.1) h h' fun c => ⟨fun hc => ?_, fun hc => ?_⟩
  · exact mem_of_read_eq_some (e c.1 ▸ read_eq_some_of_mem h hc)
  · exact mem_of_read_eq_some ((e c.1).symm ▸ read_eq_some_of_mem h' hc)

end Sys2Proof.Laws
end

