-- ==== Sys2Proof/Laws/State.lean ====
section
/-! SUPPORT. One lemma per field for each named update of the state, and the two buffers a replacement leaves alone. -/
namespace Sys2Proof.Laws
open Sys2Proof.Machine

/-! ## `setBuf` -/

@[simp] theorem setBuf_maxFrameLen (sp : Space) (m : Memory) (s : State) : (setBuf sp m s).maxFrameLen = s.maxFrameLen :=
  by cases sp <;> rfl
@[simp] theorem setBuf_line (sp : Space) (m : Memory) (s : State) : (setBuf sp m s).line = s.line := by cases sp <;> rfl
@[simp] theorem setBuf_host (sp : Space) (m : Memory) (s : State) : (setBuf sp m s).host = s.host := by cases sp <;> rfl
@[simp] theorem setBuf_calls (sp : Space) (m : Memory) (s : State) : (setBuf sp m s).calls = s.calls :=
  by cases sp <;> rfl
@[simp] theorem setBuf_turns (sp : Space) (m : Memory) (s : State) : (setBuf sp m s).turns = s.turns :=
  by cases sp <;> rfl
@[simp] theorem setBuf_tick (sp : Space) (m : Memory) (s : State) : (setBuf sp m s).tick = s.tick := by cases sp <;> rfl
@[simp] theorem setBuf_rx_state (sp : Space) (m : Memory) (s : State) : (setBuf sp m s).rx.state = s.rx.state :=
  by cases sp <;> rfl
@[simp] theorem setBuf_rx_count (sp : Space) (m : Memory) (s : State) : (setBuf sp m s).rx.count = s.rx.count :=
  by cases sp <;> rfl
@[simp] theorem setBuf_rx_len (sp : Space) (m : Memory) (s : State) : (setBuf sp m s).rx.len = s.rx.len :=
  by cases sp <;> rfl
@[simp] theorem setBuf_rx_decIdx (sp : Space) (m : Memory) (s : State) : (setBuf sp m s).rx.decIdx = s.rx.decIdx :=
  by cases sp <;> rfl
@[simp] theorem setBuf_rx_escPending (sp : Space) (m : Memory) (s : State) : (setBuf sp m s).rx.escPending = s.rx.escPending :=
  by cases sp <;> rfl
@[simp] theorem setBuf_rx_outLen (sp : Space) (m : Memory) (s : State) : (setBuf sp m s).rx.outLen = s.rx.outLen :=
  by cases sp <;> rfl
@[simp] theorem setBuf_rx_status (sp : Space) (m : Memory) (s : State) : (setBuf sp m s).rx.status = s.rx.status :=
  by cases sp <;> rfl
@[simp] theorem setBuf_rx_declaredLength (sp : Space) (m : Memory) (s : State) : (setBuf sp m s).rx.declaredLength = s.rx.declaredLength :=
  by cases sp <;> rfl
@[simp] theorem setBuf_tx_state (sp : Space) (m : Memory) (s : State) : (setBuf sp m s).tx.state = s.tx.state :=
  by cases sp <;> rfl
@[simp] theorem setBuf_tx_len (sp : Space) (m : Memory) (s : State) : (setBuf sp m s).tx.len = s.tx.len :=
  by cases sp <;> rfl
@[simp] theorem setBuf_tx_idx (sp : Space) (m : Memory) (s : State) : (setBuf sp m s).tx.idx = s.tx.idx :=
  by cases sp <;> rfl
@[simp] theorem setBuf_tx_status (sp : Space) (m : Memory) (s : State) : (setBuf sp m s).tx.status = s.tx.status :=
  by cases sp <;> rfl
@[simp] theorem bufOf_setBuf_same (sp : Space) (m : Memory) (s : State) : bufOf sp (setBuf sp m s) = m :=
  by cases sp <;> rfl
theorem bufOf_setBuf_other {sp sp' : Space} (m : Memory) (s : State) (h : sp' ≠ sp) :
    bufOf sp' (setBuf sp m s) = bufOf sp' s := by
  cases sp <;> cases sp' <;> first | rfl | exact absurd rfl h
@[simp] theorem setBuf_rxb_rx_rxb (m : Memory) (s : State) : (setBuf .rxb m s).rx.rxb = m := rfl
@[simp] theorem setBuf_rxb_rx_out (m : Memory) (s : State) : (setBuf .rxb m s).rx.out = s.rx.out := rfl
@[simp] theorem setBuf_rxb_tx_txb (m : Memory) (s : State) : (setBuf .rxb m s).tx.txb = s.tx.txb := rfl
@[simp] theorem setBuf_out_rx_rxb (m : Memory) (s : State) : (setBuf .out m s).rx.rxb = s.rx.rxb := rfl
@[simp] theorem setBuf_out_rx_out (m : Memory) (s : State) : (setBuf .out m s).rx.out = m := rfl
@[simp] theorem setBuf_out_tx_txb (m : Memory) (s : State) : (setBuf .out m s).tx.txb = s.tx.txb := rfl
@[simp] theorem setBuf_txb_rx_rxb (m : Memory) (s : State) : (setBuf .txb m s).rx.rxb = s.rx.rxb := rfl
@[simp] theorem setBuf_txb_rx_out (m : Memory) (s : State) : (setBuf .txb m s).rx.out = s.rx.out := rfl
@[simp] theorem setBuf_txb_tx_txb (m : Memory) (s : State) : (setBuf .txb m s).tx.txb = m := rfl
@[simp] theorem setBuf_rxb_tx (m : Memory) (s : State) : (setBuf .rxb m s).tx = s.tx := rfl
@[simp] theorem setBuf_out_tx (m : Memory) (s : State) : (setBuf .out m s).tx = s.tx := rfl
@[simp] theorem setBuf_txb_rx (m : Memory) (s : State) : (setBuf .txb m s).rx = s.rx := rfl

/-! ## `raiseRx`: an error of the RX unit (R216) -/

@[simp] theorem raiseRx_maxFrameLen (st : RxStatus) (s : State) : (raiseRx st s).maxFrameLen = s.maxFrameLen :=
  rfl
@[simp] theorem raiseRx_line (st : RxStatus) (s : State) : (raiseRx st s).line = s.line := rfl
@[simp] theorem raiseRx_host (st : RxStatus) (s : State) : (raiseRx st s).host = s.host := rfl
@[simp] theorem raiseRx_calls (st : RxStatus) (s : State) : (raiseRx st s).calls = s.calls := rfl
@[simp] theorem raiseRx_turns (st : RxStatus) (s : State) : (raiseRx st s).turns = s.turns := rfl
@[simp] theorem raiseRx_tick (st : RxStatus) (s : State) : (raiseRx st s).tick = s.tick := rfl
@[simp] theorem raiseRx_rx_state (st : RxStatus) (s : State) : (raiseRx st s).rx.state = .done := rfl
@[simp] theorem raiseRx_rx_count (st : RxStatus) (s : State) : (raiseRx st s).rx.count = s.rx.count := rfl
@[simp] theorem raiseRx_rx_rxb (st : RxStatus) (s : State) : (raiseRx st s).rx.rxb = s.rx.rxb := rfl
@[simp] theorem raiseRx_rx_len (st : RxStatus) (s : State) : (raiseRx st s).rx.len = s.rx.len := rfl
@[simp] theorem raiseRx_rx_decIdx (st : RxStatus) (s : State) : (raiseRx st s).rx.decIdx = s.rx.decIdx :=
  rfl
@[simp] theorem raiseRx_rx_escPending (st : RxStatus) (s : State) : (raiseRx st s).rx.escPending = s.rx.escPending :=
  rfl
@[simp] theorem raiseRx_rx_out (st : RxStatus) (s : State) : (raiseRx st s).rx.out = s.rx.out := rfl
@[simp] theorem raiseRx_rx_outLen (st : RxStatus) (s : State) : (raiseRx st s).rx.outLen = s.rx.outLen :=
  rfl
@[simp] theorem raiseRx_rx_status (st : RxStatus) (s : State) : (raiseRx st s).rx.status = st := rfl
@[simp] theorem raiseRx_rx_declaredLength (st : RxStatus) (s : State) : (raiseRx st s).rx.declaredLength = s.rx.declaredLength :=
  rfl
@[simp] theorem raiseRx_tx (st : RxStatus) (s : State) : (raiseRx st s).tx = s.tx := rfl

/-! ## `raiseTx`: an error of the TX unit (R217) -/

@[simp] theorem raiseTx_maxFrameLen (s : State) : (raiseTx s).maxFrameLen = s.maxFrameLen := rfl
@[simp] theorem raiseTx_line (s : State) : (raiseTx s).line = s.line := rfl
@[simp] theorem raiseTx_host (s : State) : (raiseTx s).host = s.host := rfl
@[simp] theorem raiseTx_calls (s : State) : (raiseTx s).calls = s.calls := rfl
@[simp] theorem raiseTx_turns (s : State) : (raiseTx s).turns = s.turns := rfl
@[simp] theorem raiseTx_tick (s : State) : (raiseTx s).tick = s.tick := rfl
@[simp] theorem raiseTx_tx_state (s : State) : (raiseTx s).tx.state = .idle := rfl
@[simp] theorem raiseTx_tx_txb (s : State) : (raiseTx s).tx.txb = s.tx.txb := rfl
@[simp] theorem raiseTx_tx_len (s : State) : (raiseTx s).tx.len = 0 := rfl
@[simp] theorem raiseTx_tx_idx (s : State) : (raiseTx s).tx.idx = 0 := rfl
@[simp] theorem raiseTx_tx_status (s : State) : (raiseTx s).tx.status = .payloadTooLarge := rfl
@[simp] theorem raiseTx_rx (s : State) : (raiseTx s).rx = s.rx := rfl

/-! ## `recoverRx`: a fresh attempt (R152) -/

@[simp] theorem recoverRx_maxFrameLen (s : State) : (recoverRx s).maxFrameLen = s.maxFrameLen := rfl
@[simp] theorem recoverRx_line (s : State) : (recoverRx s).line = s.line := rfl
@[simp] theorem recoverRx_host (s : State) : (recoverRx s).host = s.host := rfl
@[simp] theorem recoverRx_calls (s : State) : (recoverRx s).calls = s.calls := rfl
@[simp] theorem recoverRx_turns (s : State) : (recoverRx s).turns = s.turns := rfl
@[simp] theorem recoverRx_tick (s : State) : (recoverRx s).tick = s.tick := rfl
@[simp] theorem recoverRx_rx_state (s : State) : (recoverRx s).rx.state = .scanningForStart := rfl
@[simp] theorem recoverRx_rx_count (s : State) : (recoverRx s).rx.count = 0 := rfl
@[simp] theorem recoverRx_rx_rxb (s : State) : (recoverRx s).rx.rxb = s.rx.rxb := rfl
@[simp] theorem recoverRx_rx_len (s : State) : (recoverRx s).rx.len = 0 := rfl
@[simp] theorem recoverRx_rx_decIdx (s : State) : (recoverRx s).rx.decIdx = 0 := rfl
@[simp] theorem recoverRx_rx_escPending (s : State) : (recoverRx s).rx.escPending = false := rfl
@[simp] theorem recoverRx_rx_out (s : State) : (recoverRx s).rx.out = s.rx.out := rfl
@[simp] theorem recoverRx_rx_outLen (s : State) : (recoverRx s).rx.outLen = 0 := rfl
@[simp] theorem recoverRx_rx_status (s : State) : (recoverRx s).rx.status = .none := rfl
@[simp] theorem recoverRx_rx_declaredLength (s : State) : (recoverRx s).rx.declaredLength = 0#16 := rfl
@[simp] theorem recoverRx_tx (s : State) : (recoverRx s).tx = s.tx := rfl

/-! ## `resetBlock`: reset of both units (R240) -/

@[simp] theorem resetBlock_maxFrameLen (s : State) : (resetBlock s).maxFrameLen = s.maxFrameLen := rfl
@[simp] theorem resetBlock_line (s : State) : (resetBlock s).line = s.line := rfl
@[simp] theorem resetBlock_host (s : State) : (resetBlock s).host = s.host := rfl
@[simp] theorem resetBlock_calls (s : State) : (resetBlock s).calls = s.calls := rfl
@[simp] theorem resetBlock_turns (s : State) : (resetBlock s).turns = s.turns := rfl
@[simp] theorem resetBlock_tick (s : State) : (resetBlock s).tick = s.tick := rfl
@[simp] theorem resetBlock_rx (s : State) : (resetBlock s).rx = .reset := rfl
@[simp] theorem resetBlock_tx (s : State) : (resetBlock s).tx = .reset := rfl

/-! ## `raiseCall`: an error of a call of `decode` (R105) -/

@[simp] theorem raiseCall_maxFrameLen (k : ErrorKind) (s : State) : (raiseCall k s).maxFrameLen = s.maxFrameLen :=
  rfl
@[simp] theorem raiseCall_rx (k : ErrorKind) (s : State) : (raiseCall k s).rx = s.rx := rfl
@[simp] theorem raiseCall_tx (k : ErrorKind) (s : State) : (raiseCall k s).tx = s.tx := rfl
@[simp] theorem raiseCall_line (k : ErrorKind) (s : State) : (raiseCall k s).line = s.line := rfl
@[simp] theorem raiseCall_host (k : ErrorKind) (s : State) : (raiseCall k s).host = s.host := rfl
@[simp] theorem raiseCall_turns (k : ErrorKind) (s : State) : (raiseCall k s).turns = s.turns := rfl
@[simp] theorem raiseCall_tick (k : ErrorKind) (s : State) : (raiseCall k s).tick = s.tick := rfl
@[simp] theorem raiseCall_calls_encIn (k : ErrorKind) (s : State) : (raiseCall k s).calls.encIn = s.calls.encIn :=
  rfl
@[simp] theorem raiseCall_calls_encOut (k : ErrorKind) (s : State) : (raiseCall k s).calls.encOut = s.calls.encOut :=
  rfl
@[simp] theorem raiseCall_calls_decIn (k : ErrorKind) (s : State) : (raiseCall k s).calls.decIn = s.calls.decIn :=
  rfl
@[simp] theorem raiseCall_calls_decEsc (k : ErrorKind) (s : State) : (raiseCall k s).calls.decEsc = s.calls.decEsc :=
  rfl
@[simp] theorem raiseCall_calls_decOut (k : ErrorKind) (s : State) : (raiseCall k s).calls.decOut = [] :=
  rfl
@[simp] theorem raiseCall_calls_decErr (k : ErrorKind) (s : State) : (raiseCall k s).calls.decErr = some k :=
  rfl
@[simp] theorem raiseCall_calls_frameIn (k : ErrorKind) (s : State) : (raiseCall k s).calls.frameIn = s.calls.frameIn :=
  rfl
@[simp] theorem raiseCall_calls_frameOut (k : ErrorKind) (s : State) : (raiseCall k s).calls.frameOut = s.calls.frameOut :=
  rfl

/-! ## `encEmit`: wire bytes of a call of `encode` (R101) -/

@[simp] theorem encEmit_maxFrameLen (ws : List Byte) (s : State) : (encEmit ws s).maxFrameLen = s.maxFrameLen :=
  rfl
@[simp] theorem encEmit_rx (ws : List Byte) (s : State) : (encEmit ws s).rx = s.rx := rfl
@[simp] theorem encEmit_tx (ws : List Byte) (s : State) : (encEmit ws s).tx = s.tx := rfl
@[simp] theorem encEmit_line (ws : List Byte) (s : State) : (encEmit ws s).line = s.line := rfl
@[simp] theorem encEmit_host (ws : List Byte) (s : State) : (encEmit ws s).host = s.host := rfl
@[simp] theorem encEmit_turns (ws : List Byte) (s : State) : (encEmit ws s).turns = s.turns := rfl
@[simp] theorem encEmit_tick (ws : List Byte) (s : State) : (encEmit ws s).tick = s.tick := rfl
@[simp] theorem encEmit_calls_encIn (ws : List Byte) (s : State) : (encEmit ws s).calls.encIn = s.calls.encIn :=
  rfl
@[simp] theorem encEmit_calls_encOut (ws : List Byte) (s : State) : (encEmit ws s).calls.encOut = s.calls.encOut ++ ws :=
  rfl
@[simp] theorem encEmit_calls_decIn (ws : List Byte) (s : State) : (encEmit ws s).calls.decIn = s.calls.decIn :=
  rfl
@[simp] theorem encEmit_calls_decEsc (ws : List Byte) (s : State) : (encEmit ws s).calls.decEsc = s.calls.decEsc :=
  rfl
@[simp] theorem encEmit_calls_decOut (ws : List Byte) (s : State) : (encEmit ws s).calls.decOut = s.calls.decOut :=
  rfl
@[simp] theorem encEmit_calls_decErr (ws : List Byte) (s : State) : (encEmit ws s).calls.decErr = s.calls.decErr :=
  rfl
@[simp] theorem encEmit_calls_frameIn (ws : List Byte) (s : State) : (encEmit ws s).calls.frameIn = s.calls.frameIn :=
  rfl
@[simp] theorem encEmit_calls_frameOut (ws : List Byte) (s : State) : (encEmit ws s).calls.frameOut = s.calls.frameOut :=
  rfl

/-! ## `lineStep`: the line by itself (R43) -/

@[simp] theorem lineStep_maxFrameLen (s : State) : (lineStep s).maxFrameLen = s.maxFrameLen := by unfold lineStep; split <;> rfl
@[simp] theorem lineStep_rx (s : State) : (lineStep s).rx = s.rx := by unfold lineStep; split <;> rfl
@[simp] theorem lineStep_tx (s : State) : (lineStep s).tx = s.tx := by unfold lineStep; split <;> rfl
@[simp] theorem lineStep_host (s : State) : (lineStep s).host = s.host := by unfold lineStep; split <;> rfl
@[simp] theorem lineStep_calls (s : State) : (lineStep s).calls = s.calls := by unfold lineStep; split <;> rfl
@[simp] theorem lineStep_turns (s : State) : (lineStep s).turns = s.turns := by unfold lineStep; split <;> rfl
@[simp] theorem lineStep_tick (s : State) : (lineStep s).tick = s.tick := by unfold lineStep; split <;> rfl
@[simp] theorem lineStep_line_txSent (s : State) : (lineStep s).line.txSent = s.line.txSent := by unfold lineStep; split <;> rfl

/-! ## `nextTurn`: whose turn it is -/

@[simp] theorem nextTurn_maxFrameLen (s : State) : (nextTurn s).2.maxFrameLen = s.maxFrameLen := by unfold nextTurn; split <;> rfl
@[simp] theorem nextTurn_rx (s : State) : (nextTurn s).2.rx = s.rx := by unfold nextTurn; split <;> rfl
@[simp] theorem nextTurn_tx (s : State) : (nextTurn s).2.tx = s.tx := by unfold nextTurn; split <;> rfl
@[simp] theorem nextTurn_line (s : State) : (nextTurn s).2.line = s.line := by unfold nextTurn; split <;> rfl
@[simp] theorem nextTurn_host (s : State) : (nextTurn s).2.host = s.host := by unfold nextTurn; split <;> rfl
@[simp] theorem nextTurn_calls (s : State) : (nextTurn s).2.calls = s.calls := by unfold nextTurn; split <;> rfl

/-! ## `leaveOnLine`: a byte consumed (R153) -/

@[simp] theorem leaveOnLine_maxFrameLen (rest : List Byte) (s : State) : (leaveOnLine rest s).maxFrameLen = s.maxFrameLen := rfl
@[simp] theorem leaveOnLine_rx (rest : List Byte) (s : State) : (leaveOnLine rest s).rx = s.rx := rfl
@[simp] theorem leaveOnLine_tx (rest : List Byte) (s : State) : (leaveOnLine rest s).tx = s.tx := rfl
@[simp] theorem leaveOnLine_host (rest : List Byte) (s : State) : (leaveOnLine rest s).host = s.host := rfl
@[simp] theorem leaveOnLine_calls (rest : List Byte) (s : State) : (leaveOnLine rest s).calls = s.calls := rfl
@[simp] theorem leaveOnLine_turns (rest : List Byte) (s : State) : (leaveOnLine rest s).turns = s.turns := rfl
@[simp] theorem leaveOnLine_tick (rest : List Byte) (s : State) : (leaveOnLine rest s).tick = s.tick := rfl
@[simp] theorem leaveOnLine_line_txSent (rest : List Byte) (s : State) : (leaveOnLine rest s).line.txSent = s.line.txSent := rfl
@[simp] theorem leaveOnLine_line_ready (rest : List Byte) (s : State) : (leaveOnLine rest s).line.ready = s.line.ready := rfl
@[simp] theorem leaveOnLine_line_script (rest : List Byte) (s : State) : (leaveOnLine rest s).line.script = s.line.script := rfl
@[simp] theorem leaveOnLine_line_rxQueue (rest : List Byte) (s : State) : (leaveOnLine rest s).line.rxQueue = rest := rfl

end Sys2Proof.Laws
end

