-- ==== Sys2Proof/Laws/Ops.lean ====
section
/-! SUPPORT. What each shared operation over buffers can do. -/
namespace Sys2Proof.Laws
open Sys2Proof.Machine

/-- A read answers a byte exactly inside the valid length and the capacity, where one is listed (R53, D23). -/
theorem memRead_eq_some {sp : Space} {i : Nat} {s : State} {b : Byte} :
    memRead sp i s = some b ↔ i < validLen sp s ∧ i < capacity sp s ∧ Memory.read (bufOf sp s) i = some b := by
  unfold memRead
  split
  · next h => simp [h]
  · next h => simp only [reduceCtorEq, false_iff]; exact fun ⟨a, b, _⟩ => h ⟨a, b⟩

/-- A write happens exactly inside the capacity, and replaces one byte of one buffer (R53). -/
theorem memWrite_eq_some {sp : Space} {i : Nat} {v : Byte} {s s' : State} :
    memWrite sp i v s = some s' ↔ i < capacity sp s ∧ s' = setBuf sp (Memory.write (bufOf sp s) i v) s := by
  unfold memWrite
  split
  · next h => simp [h, eq_comm]
  · next h => simp [h]

theorem memWrite_of_lt {sp : Space} {i : Nat} (v : Byte) {s : State} (h : i < capacity sp s) :
    memWrite sp i v s = some (setBuf sp (Memory.write (bufOf sp s) i v) s) :=
  if_pos h

/-- A block write happens exactly inside the capacity, and replaces the bytes of one buffer (R138). -/
theorem memWriteBlock_eq_some {sp : Space} {i : Nat} {bs : List Byte} {s s' : State} :
    memWriteBlock sp i bs s = some s' ↔
      i + bs.length ≤ capacity sp s ∧ s' = setBuf sp (Memory.writeBlock (bufOf sp s) i bs) s := by
  unfold memWriteBlock
  split
  · next h => simp [h, eq_comm]
  · next h => simp [h]

theorem memWriteBlock_of_le {sp : Space} {i : Nat} {bs : List Byte} {s : State} (h : i + bs.length ≤ capacity sp s) :
    memWriteBlock sp i bs s = some (setBuf sp (Memory.writeBlock (bufOf sp s) i bs) s) :=
  if_pos h

/-- A block read answers exactly the bytes that the single reads answer. -/
theorem memReadBlock_eq_some {sp : Space} {i n : Nat} {s : State} {bs : List Byte} :
    memReadBlock sp i n s = some bs ↔ bs.length = n ∧ ∀ k, k < n → memRead sp (i + k) s = bs[k]? := by
  induction n generalizing i bs with
  | zero =>
    simp only [memReadBlock, Option.some.injEq, Nat.not_lt_zero, false_implies, implies_true, and_true]
    exact ⟨fun h => h ▸ rfl, fun h => (List.length_eq_zero_iff.mp h).symm⟩
  | succ n ih =>
    unfold memReadBlock
    constructor
    · intro h
      split at h
      · next b bs' hb hbs =>
        obtain rfl := Option.some.inj h
        obtain ⟨hl, hk⟩ := ih.mp hbs
        refine ⟨by simp [hl], fun k hkn => ?_⟩
        cases k with
        | zero => simpa using hb
        | succ k => simpa [Nat.add_assoc, Nat.add_comm 1] using hk k (by omega)
      · cases h
    · rintro ⟨hl, hk⟩
      cases bs with
      | nil => simp at hl
      | cons b bs =>
        have h0 := hk 0 (by omega)
        have hr : memReadBlock sp (i + 1) n s = some bs := ih.mpr ⟨by simpa using hl, fun k hkn => by
          simpa [Nat.add_assoc, Nat.add_comm 1] using hk (k + 1) (by omega)⟩
        simp only [Nat.add_zero, List.getElem?_cons_zero] at h0
        rw [h0, hr]

/-- A read of one buffer is not changed by replacing another. -/
theorem memRead_setBuf_other {sp sp' : Space} (m : Memory) (i : Nat) (s : State) (h : sp' ≠ sp) :
    memRead sp' i (setBuf sp m s) = memRead sp' i s := by
  cases sp <;> cases sp' <;> first | rfl | exact absurd rfl h

end Sys2Proof.Laws
end

