-- ==== Sys2Proof/Laws/PerInstr.lean ====
section
/-! SUPPORT. Statements made once per constructor of `Instr`: the width of a row's words (spec/opcode_table.json,
`width_bits`). -/
namespace Sys2Proof.Laws.RowWidth

/-- The `width_bits` of an instruction's row; none where the table gives the row no fixed width. -/
def width : Instr → Option Nat
  | .huntStart => some 8
  | .huntSkip _ => some 8
  | .huntLimit _ => some 8
  | .accEnd => some 8
  | .accData _ => some 8
  | .accLimit _ => some 8
  | .decLit _ _ => some 8
  | .decPassFE _ => some 8
  | .decPassFF _ => some 8
  | .decPrefix _ => some 8
  | .decEsc0 _ => some 16
  | .decEsc1 _ => some 16
  | .decEsc2 _ => some 16
  | .decEscRsvd _ _ => some 16
  | .decEscTrunc _ => some 8
  | .encLit _ => some 8
  | .encEsc0 => some 8
  | .encEsc1 => some 8
  | .encEsc2 => some 8
  | .frame _ => none
  | .reset => none
  | .scanStart => none
  | .txSubmit _ => none
  | .build _ => none
  | .emit => none
  | .finMalformed => none
  | .finOk => none
  | .finShort => none

/-- The words the encoder writes for an instruction are as wide as its row. -/
def Statement (i : Instr) : Prop :=
  ∀ n, width i = some n → 8 * (encode i).length = n

theorem huntStart : Statement .huntStart := by
  intro n h
  cases h
  rfl

theorem huntSkip (b : Byte) : Statement (.huntSkip b) := by
  intro n h
  cases h
  rfl

theorem huntLimit (b : Byte) : Statement (.huntLimit b) := by
  intro n h
  cases h
  rfl

theorem accEnd : Statement .accEnd := by
  intro n h
  cases h
  rfl

theorem accData (b : Byte) : Statement (.accData b) := by
  intro n h
  cases h
  rfl

theorem accLimit (b : Byte) : Statement (.accLimit b) := by
  intro n h
  cases h
  rfl

theorem decLit (u : Reader) (b : Byte) : Statement (.decLit u b) := by
  intro n h
  cases h
  rfl

theorem decPassFE (u : Reader) : Statement (.decPassFE u) := by
  intro n h
  cases h
  rfl

theorem decPassFF (u : Reader) : Statement (.decPassFF u) := by
  intro n h
  cases h
  rfl

theorem decPrefix (u : Reader) : Statement (.decPrefix u) := by
  intro n h
  cases h
  rfl

theorem decEsc0 (u : Reader) : Statement (.decEsc0 u) := by
  intro n h
  cases h
  rfl

theorem decEsc1 (u : Reader) : Statement (.decEsc1 u) := by
  intro n h
  cases h
  rfl

theorem decEsc2 (u : Reader) : Statement (.decEsc2 u) := by
  intro n h
  cases h
  rfl

theorem decEscRsvd (u : Reader) (d : Byte) : Statement (.decEscRsvd u d) := by
  intro n h
  cases h
  rfl

theorem decEscTrunc (u : Reader) : Statement (.decEscTrunc u) := by
  intro n h
  cases h
  rfl

theorem encLit (b : Byte) : Statement (.encLit b) := by
  intro n h
  cases h
  rfl

theorem encEsc0 : Statement .encEsc0 := by
  intro n h
  cases h
  rfl

theorem encEsc1 : Statement .encEsc1 := by
  intro n h
  cases h
  rfl

theorem encEsc2 : Statement .encEsc2 := by
  intro n h
  cases h
  rfl

theorem frame (p : List Byte) : Statement (.frame p) := by
  intro n h
  cases h

theorem reset : Statement .reset := by
  intro n h
  cases h

theorem scanStart : Statement .scanStart := by
  intro n h
  cases h

theorem txSubmit (p : List Byte) : Statement (.txSubmit p) := by
  intro n h
  cases h

theorem build (p : List Byte) : Statement (.build p) := by
  intro n h
  cases h

theorem emit : Statement .emit := by
  intro n h
  cases h

theorem finMalformed : Statement .finMalformed := by
  intro n h
  cases h

theorem finOk : Statement .finOk := by
  intro n h
  cases h

theorem finShort : Statement .finShort := by
  intro n h
  cases h

end Sys2Proof.Laws.RowWidth
end

