-- ==== Sys2Proof/Laws/Step.lean ====
section
/-! SUPPORT. What one step of each agent can do, said once. -/
namespace Sys2Proof.Laws
open Sys2Proof.Machine

/-! ## Rows of a byte -/

theorem room_below {s : State} (h : s.rx.count + 1 < s.maxFrameLen) : room s = .below := if_pos h

theorem room_last {s : State} (h : s.rx.count + 1 = s.maxFrameLen) : room s = .last := by
  rw [room, if_neg (by omega), if_pos h]

theorem room_past {s : State} (h : s.maxFrameLen < s.rx.count + 1) : room s = .past := by
  rw [room, if_neg (by omega), if_neg (by omega)]

/-! ## The RX unit -/

/-- The shape of a DEC step of the RX unit on the byte `b` (R163): the cases of R164 to R167. -/
def DecMove (b : Byte) (s t : State) : Prop :=
  (s.rx.escPending = false ∧ b ≠ Config.specialByte ∧ decEmit .scanner b s = .next t) ∨
  (s.rx.escPending = false ∧ b = Config.specialByte ∧
    t = { s with rx := { s.rx with escPending := true, decIdx := s.rx.decIdx + 1 } }) ∨
  (s.rx.escPending = true ∧ b ≤ 2#8 ∧ decEmit .scanner (Config.specialByte + b) s = .next t) ∨
  (s.rx.escPending = true ∧ 3#8 ≤ b ∧ t = raiseRx .invalidEscapeOperand s)

/-- The shape of a HUNT step on the byte `b` (R154 to R156). -/
def HuntMove (b : Byte) (s t : State) : Prop :=
  (b = Config.startMarker ∧ t = { s with rx := { s.rx with count := 0, state := .accumulatingUntilEnd } }) ∨
  (b ≠ Config.startMarker ∧ s.rx.count + 1 < s.maxFrameLen ∧
    t = { s with rx := { s.rx with count := s.rx.count + 1 } }) ∨
  (b ≠ Config.startMarker ∧ s.rx.count + 1 = s.maxFrameLen ∧
    t = raiseRx .startMarkerNotFound { s with rx := { s.rx with count := s.rx.count + 1 } })

/-- The shape of an ACC step on the byte `b` (R157 to R159). -/
def AccMove (b : Byte) (s t : State) : Prop :=
  (b = Config.endMarker ∧ t = { s with rx := { s.rx with count := s.rx.count + 1, state := .decoding } }) ∨
  (b ≠ Config.endMarker ∧ s.rx.count + 1 < s.maxFrameLen ∧ s.rx.len < s.maxFrameLen - 1 ∧
    t = { s with rx := { s.rx with rxb := Memory.write s.rx.rxb s.rx.len b, len := s.rx.len + 1,
                                   count := s.rx.count + 1 } }) ∨
  (b ≠ Config.endMarker ∧ s.rx.count + 1 = s.maxFrameLen ∧
    t = raiseRx .endMarkerNotFound { s with rx := { s.rx with count := s.rx.count + 1 } })

/-- The shape of a FIN step (R168 to R170). -/
def FinMove (s t : State) : Prop :=
  (s.rx.escPending = true ∧ t = raiseRx .malformedEscape s) ∨
  (s.rx.escPending = false ∧ Config.lenWidth ≤ s.rx.outLen ∧ ∃ hi lo,
    memRead .out 0 s = some hi ∧ memRead .out 1 s = some lo ∧
    t = { s with rx := { s.rx with declaredLength := Codec.be16 hi lo, status := .ok, state := .done } }) ∨
  (s.rx.escPending = false ∧ s.rx.outLen < Config.lenWidth ∧ t = raiseRx .frameTooShort s)

theorem huntRow_move {b : Byte} {s t : State} {i : Instr} (hs : s.rx.state = .scanningForStart)
    (hi : huntRow (room s) b = some i) (h : exec i s = .next t) : HuntMove b s t := by
  unfold huntRow at hi
  by_cases hb : b = Config.startMarker
  · rw [if_pos hb] at hi
    obtain rfl := Option.some.inj hi
    simp only [exec, execHuntStart, hs, if_true, Host.Outcome.next.injEq] at h
    exact .inl ⟨hb, h.symm⟩
  · rw [if_neg hb] at hi
    rcases Nat.lt_trichotomy (s.rx.count + 1) s.maxFrameLen with hc | hc | hc
    · rw [room_below hc] at hi
      obtain rfl := Option.some.inj hi
      simp only [exec, execHuntSkip] at h
      rw [if_pos ⟨hs, hb, hc⟩] at h
      exact .inr (.inl ⟨hb, hc, (Host.Outcome.next.inj h).symm⟩)
    · rw [room_last hc] at hi
      obtain rfl := Option.some.inj hi
      simp only [exec, execHuntLimit] at h
      rw [if_pos ⟨hs, hb, hc⟩] at h
      exact .inr (.inr ⟨hb, hc, (Host.Outcome.next.inj h).symm⟩)
    · rw [room_past hc] at hi
      cases hi

theorem accRow_move {b : Byte} {s t : State} {i : Instr} (hs : s.rx.state = .accumulatingUntilEnd)
    (hi : accRow (room s) b = some i) (h : exec i s = .next t) : AccMove b s t := by
  unfold accRow at hi
  by_cases hb : b = Config.endMarker
  · rw [if_pos hb] at hi
    obtain rfl := Option.some.inj hi
    simp only [exec, execAccEnd, hs, if_true, Host.Outcome.next.injEq] at h
    exact .inl ⟨hb, h.symm⟩
  · rw [if_neg hb] at hi
    rcases Nat.lt_trichotomy (s.rx.count + 1) s.maxFrameLen with hc | hc | hc
    · rw [room_below hc] at hi
      obtain rfl := Option.some.inj hi
      simp only [exec, execAccData] at h
      rw [if_pos ⟨hs, hb, hc⟩] at h
      split at h
      · next s' hw =>
        obtain ⟨hl, rfl⟩ := memWrite_eq_some.mp hw
        exact .inr (.inl ⟨hb, hc, hl, (Host.Outcome.next.inj h).symm⟩)
      · cases h
    · rw [room_last hc] at hi
      obtain rfl := Option.some.inj hi
      simp only [exec, execAccLimit] at h
      rw [if_pos ⟨hs, hb, hc⟩] at h
      exact .inr (.inr ⟨hb, hc, (Host.Outcome.next.inj h).symm⟩)
    · rw [room_past hc] at hi
      cases hi

/-- Every byte has one row in context S (R76). -/
theorem decode_stuffed (u : Reader) (esc : Bool) (b : Byte) :
    decode (stuffedContext u esc) [b] = .instr (if esc then operandRow u b else symStartRow u b) [] := by
  cases esc <;> rfl

theorem decEnabled_scanner {esc : Bool} {s : State} (hs : s.rx.state = .decoding) (hi : s.rx.decIdx < s.rx.len)
    (he : s.rx.escPending = esc) : decEnabled .scanner esc s = true := by
  simp [decEnabled, hs, hi, he]

theorem symStartRow_exec {b : Byte} {s : State} (hs : s.rx.state = .decoding) (hi : s.rx.decIdx < s.rx.len)
    (he : s.rx.escPending = false) (hb : b ≠ Config.specialByte) :
    exec (symStartRow .scanner b) s = decEmit .scanner b s := by
  have en := decEnabled_scanner hs hi he
  by_cases h2 : b = 0xFE#8
  · subst h2; exact if_pos en
  · by_cases h3 : b = 0xFF#8
    · subst h3; exact if_pos en
    · have h := literal_of_ne hb h2 h3
      simp [symStartRow_literal _ h, exec, execDecLit, decLiteral, en, h]

theorem operandRow_exec {d : Byte} {s : State} (hs : s.rx.state = .decoding) (hi : s.rx.decIdx < s.rx.len)
    (he : s.rx.escPending = true) (hd : ¬3#8 ≤ d) :
    exec (operandRow .scanner d) s = decEmit .scanner (Config.specialByte + d) s := by
  have en := decEnabled_scanner hs hi he
  rcases legal_cases hd with rfl | rfl | rfl <;>
    simp [operandRow, exec, execDecEsc0, execDecEsc1, execDecEsc2, decPair, en]

theorem bodyByte_move {b : Byte} {s t : State} {i : Instr} {r : List Byte} (hs : s.rx.state = .decoding)
    (hl : s.rx.decIdx < s.rx.len) (hi : decode (stuffedContext .scanner s.rx.escPending) [b] = .instr i r)
    (h : exec i s = .next t) : DecMove b s t := by
  cases he : s.rx.escPending with
  | false =>
    rw [he] at hi
    obtain ⟨rfl, -⟩ : symStartRow .scanner b = i ∧ [] = r := by simpa [stuffedContext, decode] using hi
    by_cases hb : b = 0xFD#8
    · subst hb
      simp only [symStartRow, if_true, exec, execDecPrefix, decEnabled_scanner hs hl he, Host.Outcome.next.injEq] at h
      exact .inr (.inl ⟨he, rfl, h.symm⟩)
    · rw [symStartRow_exec hs hl he hb] at h
      exact .inl ⟨he, hb, h⟩
  | true =>
    rw [he] at hi
    obtain ⟨rfl, -⟩ : operandRow .scanner b = i ∧ [] = r := by simpa [stuffedContext, decode] using hi
    by_cases hb : 3#8 ≤ b
    · rw [operandRow_reserved _ hb] at h
      simp only [exec, execDecEscRsvd] at h
      rw [if_pos ⟨decEnabled_scanner hs hl he, hb⟩] at h
      exact .inr (.inr (.inr ⟨he, hb, (Host.Outcome.next.inj h).symm⟩))
    · rw [operandRow_exec hs hl he hb] at h
      exact .inr (.inr (.inl ⟨he, legal_iff.mpr hb, h⟩))

theorem finEnabled_of {esc : Bool} {s : State} (hs : s.rx.state = .decoding) (hl : s.rx.decIdx = s.rx.len)
    (he : s.rx.escPending = esc) : finEnabled esc s = true := by
  simp [finEnabled, hs, hl, he]

theorem finRow_move {s t : State} (hs : s.rx.state = .decoding) (hl : s.rx.decIdx = s.rx.len)
    (h : exec (finRow s) s = .next t) : FinMove s t := by
  cases he : s.rx.escPending with
  | true =>
    rw [show finRow s = .finMalformed by simp [finRow, he]] at h
    simp only [exec, execFinMalformed] at h
    rw [if_pos (finEnabled_of hs hl he)] at h
    exact .inl ⟨he, (Host.Outcome.next.inj h).symm⟩
  | false =>
    by_cases ho : Config.lenWidth ≤ s.rx.outLen
    · rw [show finRow s = .finOk by simp [finRow, he, ho]] at h
      simp only [exec, execFinOk] at h
      rw [if_pos ⟨finEnabled_of hs hl he, ho⟩] at h
      split at h
      · next hi lo h0 h1 => exact .inr (.inl ⟨he, ho, hi, lo, h0, h1, (Host.Outcome.next.inj h).symm⟩)
      · cases h
    · rw [show finRow s = .finShort by simp [finRow, he, ho]] at h
      simp only [exec, execFinShort] at h
      rw [if_pos ⟨finEnabled_of hs hl he, by omega⟩] at h
      exact .inr (.inr ⟨he, by omega, (Host.Outcome.next.inj h).symm⟩)

/-- Everything one step of the RX unit can do (R153 to R170, R181): nothing, or one of the moves of its state. -/
theorem rx_step_cases {s t : State} (h : agentStep .rx s = .next t) :
    t = s ∨
    (s.rx.state = .scanningForStart ∧ ∃ b rest, s.line.rxQueue = b :: rest ∧ HuntMove b (leaveOnLine rest s) t) ∨
    (s.rx.state = .accumulatingUntilEnd ∧ ∃ b rest, s.line.rxQueue = b :: rest ∧ AccMove b (leaveOnLine rest s) t) ∨
    (s.rx.state = .decoding ∧ s.rx.decIdx < s.rx.len ∧ ∃ b, memRead .rxb s.rx.decIdx s = some b ∧ DecMove b s t) ∨
    (s.rx.state = .decoding ∧ s.rx.decIdx = s.rx.len ∧ FinMove s t) := by
  simp only [agentStep, fetch, fetchRx] at h
  cases hs : s.rx.state with
  | idle => rw [hs] at h; exact .inl (Host.Outcome.next.inj h).symm
  | done => rw [hs] at h; exact .inl (Host.Outcome.next.inj h).symm
  | scanningForStart =>
    simp only [hs, fetchLineByte, lineContext] at h
    cases hq : s.line.rxQueue with
    | nil => rw [hq] at h; exact .inl (Host.Outcome.next.inj h).symm
    | cons b rest =>
      simp only [hq, decode] at h
      cases hr : huntRow (room s) b with
      | none => rw [hr] at h; exact .inl (Host.Outcome.next.inj h).symm
      | some i =>
        rw [hr] at h
        exact .inr (.inl ⟨rfl, b, rest, rfl, huntRow_move (s := leaveOnLine rest s) hs hr h⟩)
  | accumulatingUntilEnd =>
    simp only [hs, fetchLineByte, lineContext] at h
    cases hq : s.line.rxQueue with
    | nil => rw [hq] at h; exact .inl (Host.Outcome.next.inj h).symm
    | cons b rest =>
      simp only [hq, decode] at h
      cases hr : accRow (room s) b with
      | none => rw [hr] at h; exact .inl (Host.Outcome.next.inj h).symm
      | some i =>
        rw [hr] at h
        exact .inr (.inr (.inl ⟨rfl, b, rest, rfl, accRow_move (s := leaveOnLine rest s) hs hr h⟩))
  | decoding =>
    simp only [hs, fetchBodyByte] at h
    rcases Nat.lt_trichotomy s.rx.decIdx s.rx.len with hl | hl | hl
    · rw [if_pos hl] at h
      cases hm : memRead .rxb s.rx.decIdx s with
      | none => rw [hm] at h; cases h
      | some b =>
        rw [hm] at h
        cases hd : decode (stuffedContext .scanner s.rx.escPending) [b] with
        | reject why => simp only [hd] at h; exact .inl (Host.Outcome.next.inj h).symm
        | instr i r => simp only [hd] at h; exact .inr (.inr (.inr (.inl ⟨rfl, hl, b, rfl, bodyByte_move hs hl hd h⟩)))
    · rw [if_neg (by omega), if_pos hl] at h
      exact .inr (.inr (.inr (.inr ⟨rfl, hl, finRow_move hs hl h⟩)))
    · rw [if_neg (by omega), if_neg (by omega)] at h
      exact .inl (Host.Outcome.next.inj h).symm

/-! ## The other agents -/

/-- Emitting for the RX unit writes one byte of OUT and moves the indices, inside the capacity (R164, R166). -/
theorem decEmit_scanner_eq_next {b : Byte} {s t : State} :
    decEmit .scanner b s = .next t ↔ s.rx.outLen < s.maxFrameLen - 1 ∧
      t = { s with rx := { s.rx with out := Memory.write s.rx.out s.rx.outLen b, outLen := s.rx.outLen + 1,
                                     escPending := false, decIdx := s.rx.decIdx + 1 } } := by
  by_cases hl : s.rx.outLen < capacity .out s
  · simp only [decEmit, memWrite_of_lt b hl, Host.Outcome.next.injEq]
    exact ⟨fun e => ⟨hl, e.symm⟩, fun e => e.2.symm⟩
  · simp only [decEmit, memWrite, if_neg hl, reduceCtorEq, false_iff]
    exact fun e => hl e.1

/-- Everything one step of the TX unit can do (R139). -/
theorem tx_step_cases {s t : State} (h : agentStep .tx s = .next t) :
    t = s ∨
    (s.tx.state = .sending ∧ s.line.ready = true ∧ ∃ b, memRead .txb s.tx.idx s = some b ∧
      t = { s with line := { s.line with txSent := s.line.txSent ++ [b] },
                   tx := { s.tx with idx := s.tx.idx + 1,
                                     state := if s.tx.idx + 1 = s.tx.len then .idle else .sending } }) := by
  simp only [agentStep, fetch, fetchTx] at h
  by_cases hs : s.tx.state = .sending ∧ s.line.ready = true
  · rw [if_pos hs] at h
    simp only [runFetched, exec, execEmit] at h
    rw [if_pos hs] at h
    split at h
    · next b hb => exact .inr ⟨hs.1, hs.2, b, hb, (Host.Outcome.next.inj h).symm⟩
    · cases h
  · rw [if_neg hs] at h
    exact .inl (Host.Outcome.next.inj h).symm

/-- What BUILD can do: reject with nothing to emit, or put a whole frame into TXB (R138). -/
theorem buildFrameIntoTxb_cases {p : List Byte} {s t : State} (h : buildFrameIntoTxb p s = .next t) :
    ((∃ k, Codec.buildFrame s.maxFrameLen p = .error k) ∧ t = raiseTx s) ∨
    (∃ r, Codec.buildFrame s.maxFrameLen p = .ok r ∧ r.length ≤ s.maxFrameLen ∧
      t = { s with tx := { state := .sending, txb := Memory.writeBlock s.tx.txb 0 r, len := r.length, idx := 0,
                           status := .ok } }) := by
  simp only [buildFrameIntoTxb] at h
  split at h
  · next k hk => exact .inl ⟨⟨k, hk⟩, (Host.Outcome.next.inj h).symm⟩
  · next r hr =>
    split at h
    · next s' hw =>
      obtain ⟨hl, rfl⟩ := memWriteBlock_eq_some.mp hw
      exact .inr ⟨r, hr, by simpa [capacity] using hl, (Host.Outcome.next.inj h).symm⟩
    · cases h

/-- Everything one step of the host can do: nothing, or a command taken from its script and run (R199). -/
theorem host_step_cases {s t : State} (h : agentStep .host s = .next t) :
    t = s ∨
    (∃ rest, s.host = .reset :: rest ∧ t = resetBlock { s with host := rest }) ∨
    (∃ rest, s.host = .scanStart :: rest ∧ (s.rx.state = .idle ∨ s.rx.state = .done) ∧
      t = recoverRx { s with host := rest }) ∨
    (∃ p rest, s.host = .txSubmit p :: rest ∧ s.tx.state = .idle ∧
      buildFrameIntoTxb p { s with host := rest } = .next t) := by
  simp only [agentStep, fetch, fetchHost] at h
  cases hh : s.host with
  | nil => rw [hh] at h; exact .inl (Host.Outcome.next.inj h).symm
  | cons c rest =>
    simp only [hh] at h
    by_cases ha : accepted c s = true
    · rw [if_pos ha] at h
      cases c with
      | reset => exact .inr (.inl ⟨rest, rfl, (Host.Outcome.next.inj h).symm⟩)
      | scanStart =>
        have ha : s.rx.state = .idle ∨ s.rx.state = .done := by simpa [accepted, scanReady] using ha
        simp only [runFetched, commandRow, exec, execScanStart] at h
        rw [if_pos ha] at h
        exact .inr (.inr (.inl ⟨rest, rfl, ha, (Host.Outcome.next.inj h).symm⟩))
      | txSubmit p =>
        have ha : s.tx.state = .idle := by simpa [accepted, txReady] using ha
        simp only [runFetched, commandRow, exec, execTxSubmit] at h
        rw [if_pos ha] at h
        exact .inr (.inr (.inr ⟨p, rest, rfl, ha, h⟩))
    · rw [if_neg ha] at h
      exact .inl (Host.Outcome.next.inj h).symm

/-! ## The standalone calls -/

/-- A row that reads for a call of `decode` changes the call only (R110). -/
theorem symStartRow_call {b : Byte} {s t : State} (h : exec (symStartRow .call b) s = .next t) :
    ∃ c, t = { s with calls := c } := by
  unfold symStartRow at h
  split at h
  · simp only [exec, execDecPrefix] at h
    split at h <;> exact ⟨_, (Host.Outcome.next.inj h).symm⟩
  · split at h
    · simp only [exec, execDecPassFE, decLiteral, decEmit] at h
      split at h <;> exact ⟨_, (Host.Outcome.next.inj h).symm⟩
    · split at h
      · simp only [exec, execDecPassFF, decLiteral, decEmit] at h
        split at h <;> exact ⟨_, (Host.Outcome.next.inj h).symm⟩
      · simp only [exec, execDecLit, decLiteral, decEmit] at h
        split at h
        · split at h <;> exact ⟨_, (Host.Outcome.next.inj h).symm⟩
        · exact ⟨_, (Host.Outcome.next.inj h).symm⟩

theorem decPair_call {d : Byte} {s t : State} (h : decPair .call d s = .next t) : ∃ c, t = { s with calls := c } := by
  simp only [decPair, decEmit] at h
  split at h <;> exact ⟨_, (Host.Outcome.next.inj h).symm⟩

theorem operandRow_call {d : Byte} {s t : State} (h : exec (operandRow .call d) s = .next t) :
    ∃ c, t = { s with calls := c } := by
  unfold operandRow at h
  split at h
  · exact decPair_call h
  · split at h
    · exact decPair_call h
    · split at h
      · exact decPair_call h
      · simp only [exec, execDecEscRsvd] at h
        split at h <;> exact ⟨_, (Host.Outcome.next.inj h).symm⟩

theorem encoderRow_calls {b : Byte} {s t : State} (h : exec (encoderRow b) s = .next t) :
    ∃ c, t = { s with calls := c } := by
  unfold encoderRow at h
  split at h
  · exact ⟨_, (Host.Outcome.next.inj h).symm⟩
  · split at h
    · exact ⟨_, (Host.Outcome.next.inj h).symm⟩
    · split at h
      · exact ⟨_, (Host.Outcome.next.inj h).symm⟩
      · simp only [exec, execEncLit] at h
        split at h <;> exact ⟨_, (Host.Outcome.next.inj h).symm⟩

/-- A step of a standalone call changes the call only: no register, no buffer, no byte of the line (R110, R130). -/
theorem call_step_frame {a : Agent} {s t : State} (ha : a = .encoder ∨ a = .decoder ∨ a = .framer)
    (h : agentStep a s = .next t) : ∃ c, t = { s with calls := c } := by
  rcases ha with rfl | rfl | rfl
  · simp only [agentStep, fetch, fetchEncoder] at h
    split at h
    · exact ⟨s.calls, (Host.Outcome.next.inj h).symm⟩
    · next b rest _ =>
      obtain ⟨c, rfl⟩ := encoderRow_calls (s := { s with calls := { s.calls with encIn := rest } }) h
      exact ⟨c, rfl⟩
  · simp only [agentStep, fetch, fetchDecoder] at h
    split at h
    · next b rest _ _ =>
      simp only [decode_stuffed, runFetched] at h
      by_cases he : s.calls.decEsc = true
      · rw [if_pos he] at h
        obtain ⟨c, rfl⟩ := operandRow_call h
        exact ⟨c, rfl⟩
      · rw [if_neg he] at h
        obtain ⟨c, rfl⟩ := symStartRow_call h
        exact ⟨c, rfl⟩
    · split at h
      · simp only [runFetched, exec, execDecEscTrunc] at h
        split at h <;> exact ⟨_, (Host.Outcome.next.inj h).symm⟩
      · exact ⟨s.calls, (Host.Outcome.next.inj h).symm⟩
    · exact ⟨s.calls, (Host.Outcome.next.inj h).symm⟩
  · simp only [agentStep, fetch, fetchFramer] at h
    split at h
    · exact ⟨s.calls, (Host.Outcome.next.inj h).symm⟩
    · exact ⟨_, (Host.Outcome.next.inj h).symm⟩

end Sys2Proof.Laws
end

