-- ==== Sys2Proof/Tests/Slice0.lean ====
section
/-! SUPPORT. Ill-formed terms refused, words read as their rows, one step of each row, and a witness for the hypotheses of
each statement. Expected results are the vectors V<n> and programs P<n> of spec/95_test_vectors.md, worked out there from
the rules; where a test takes its value from a rule instead, it names the rule. -/
namespace Sys2Proof.Tests
open Sys2Proof.Machine

/-! ## Helpers -/

/-- The next state, if there is one. -/
def after (o : Host.Outcome State Fault Refusal) : Option State :=
  match o with
  | .next t => some t
  | .fault _ => none
  | .refused _ => none

/-- A buffer that holds exactly these bytes, from index 0. -/
def buf (bs : List Byte) : Memory := (List.range bs.length).zip bs

/-- `ScanningForStart` with `rx_count` at `count` and `q` on the line; the RX unit's turn. -/
def hunting (m count : Nat) (q : List Byte) : State :=
  { State.resetWith m with
    rx := { RxUnit.reset with state := .scanningForStart, count := count }
    line := { Line.quiet with rxQueue := q }
    turns := [.rx] }

/-- `AccumulatingUntilEnd` with `body` stored and `q` on the line; the RX unit's turn. -/
def accumulating (m : Nat) (body q : List Byte) : State :=
  { State.resetWith m with
    rx := { RxUnit.reset with
            state := .accumulatingUntilEnd, count := body.length, rxb := buf body, len := body.length }
    line := { Line.quiet with rxQueue := q }
    turns := [.rx] }

/-- `Decoding` the stored `body` at `idx`, with `out` decoded so far; the RX unit's turn. -/
def decoding (m : Nat) (body : List Byte) (idx : Nat) (esc : Bool) (out : List Byte) : State :=
  { State.resetWith m with
    rx := { RxUnit.reset with
            state := .decoding, count := body.length + 1, rxb := buf body, len := body.length, decIdx := idx,
            escPending := esc, out := buf out, outLen := out.length }
    turns := [.rx] }

/-- `Done` after the body `body`, decoded to `out`, with a status and a declared length. -/
def finished (m : Nat) (body out : List Byte) (esc : Bool) (status : RxStatus) (declared : Half) : State :=
  { State.resetWith m with
    rx := { RxUnit.reset with
            state := .done, count := body.length + 1, rxb := buf body, len := body.length, decIdx := body.length,
            escPending := esc, out := buf out, outLen := out.length, status := status, declaredLength := declared }
    turns := [.rx] }

/-- `Sending` the frame `f` at `idx`; the TX unit's turn. -/
def sending (m : Nat) (f : List Byte) (idx : Nat) : State :=
  { State.resetWith m with
    tx := { state := .sending, txb := buf f, len := f.length, idx := idx, status := .ok }
    line := { Line.quiet with txSent := f.take idx }
    turns := [.tx] }

/-- A standalone call of `decode` with `rest` still to read. -/
def decodeCall (rest : List Byte) (esc : Bool) (out : List Byte) : State :=
  { State.resetWith 8 with
    calls := { Calls.empty with decIn := rest, decEsc := esc, decOut := out }
    turns := [.decoder] }

/-- A standalone call of `encode` with `rest` still to read. -/
def encodeCall (rest : List Byte) : State :=
  { State.resetWith 8 with
    calls := { Calls.empty with encIn := rest }
    turns := [.encoder] }

/-- The host offers commands; its turn. -/
def offered (cs : List Command) (s : State) : State :=
  { s with host := cs, turns := [.host] }

/-- The frame of V95. -/
def frameV95 : List Byte := [0xFE#8, 0x00#8, 0x06#8, 0x01#8, 0x02#8, 0x03#8, 0x04#8, 0xFF#8]

/-! ## Ill-formed terms, one for each check of `Instr.wf` -/

theorem test_illformed_huntSkip : (Instr.huntSkip 0xFE#8).wf = false := by decide
theorem test_illformed_huntLimit : (Instr.huntLimit 0xFE#8).wf = false := by decide
theorem test_illformed_accData : (Instr.accData 0xFF#8).wf = false := by decide
theorem test_illformed_accLimit : (Instr.accLimit 0xFF#8).wf = false := by decide
theorem test_illformed_decLit : (Instr.decLit .scanner 0xFD#8).wf = false := by decide
theorem test_illformed_decEscRsvd : (Instr.decEscRsvd .call 0x02#8).wf = false := by decide
theorem test_illformed_encLit : (Instr.encLit 0xFD#8).wf = false := by decide
theorem test_illformed_frame : (Instr.frame (List.replicate 65534 0x00#8)).wf = false := by
  rw [Instr.wf, List.length_replicate]; decide

/-! ## Words, from the encodings of spec/opcode_table.json -/

theorem test_decode_huntStart : decode (.hunt .last) [0b11111110#8] = .instr .huntStart [] := by decide
theorem test_decode_huntSkip : decode (.hunt .below) [0b11111111#8] = .instr (.huntSkip 0xFF#8) [] := by decide
theorem test_decode_huntLimit : decode (.hunt .last) [0b11111101#8] = .instr (.huntLimit 0xFD#8) [] := by decide
theorem test_decode_accEnd : decode (.acc .last) [0b11111111#8] = .instr .accEnd [] := by decide
theorem test_decode_accData : decode (.acc .below) [0b11111101#8] = .instr (.accData 0xFD#8) [] := by decide
theorem test_decode_accLimit : decode (.acc .last) [0b11111110#8] = .instr (.accLimit 0xFE#8) [] := by decide
theorem test_decode_decLit : decode (.symStart .call) [0b11111100#8] = .instr (.decLit .call 0xFC#8) [] := by decide
theorem test_decode_decPassFE : decode (.symStart .scanner) [0b11111110#8] = .instr (.decPassFE .scanner) [] := by decide
theorem test_decode_decPassFF : decode (.symStart .call) [0b11111111#8] = .instr (.decPassFF .call) [] := by decide
theorem test_decode_decPrefix : decode (.symStart .call) [0b11111101#8] = .instr (.decPrefix .call) [] := by decide
theorem test_decode_decEsc0 : decode (.symbol .call) [0b11111101#8, 0b00000000#8] = .instr (.decEsc0 .call) [] := by
  decide
theorem test_decode_decEsc1 : decode (.symbol .call) [0b11111101#8, 0b00000001#8] = .instr (.decEsc1 .call) [] := by
  decide
theorem test_decode_decEsc2 : decode (.symbol .call) [0b11111101#8, 0b00000010#8] = .instr (.decEsc2 .call) [] := by
  decide
theorem test_decode_decEscRsvd :
    decode (.symbol .scanner) [0b11111101#8, 0b11111101#8] = .instr (.decEscRsvd .scanner 0xFD#8) [] := by decide
theorem test_decode_decEscTrunc : decode (.symbol .call) [0b11111101#8] = .instr (.decEscTrunc .call) [] := by decide
theorem test_decode_encLit : decode .encoder [0b01111111#8] = .instr (.encLit 0x7F#8) [] := by decide
theorem test_decode_encEsc0 : decode .encoder [0b11111101#8] = .instr .encEsc0 [] := by decide
theorem test_decode_encEsc1 : decode .encoder [0b11111110#8] = .instr .encEsc1 [] := by decide
theorem test_decode_encEsc2 : decode .encoder [0b11111111#8] = .instr .encEsc2 [] := by decide

/-- V63, with the byte after the frame left over. -/
theorem test_decode_frame :
    decode .frame [0xFE#8, 0x00#8, 0x04#8, 0x41#8, 0xFD#8, 0x00#8, 0xFF#8, 0x99#8] =
      .instr (.frame [0x41#8, 0xFD#8]) [0x99#8] := by decide

/-- A marker pair whose length value is not the payload's plus 2 is no frame of R71 (V104's stream). -/
theorem test_decode_no_frame : decode .frame [0xFE#8, 0x00#8, 0x05#8, 0x41#8, 0xFF#8] = .reject .noFrame := by decide

/-- The commands and internal steps, by name (R80). -/
theorem test_decode_controls :
    decode (.control .reset) [] = .instr .reset [] ∧ decode (.control .scanStart) [] = .instr .scanStart [] ∧
    decode (.control .txSubmit) [0x41#8] = .instr (.txSubmit [0x41#8]) [] ∧
    decode (.control .build) [0x41#8] = .instr (.build [0x41#8]) [] ∧
    decode (.control .emit) [] = .instr .emit [] ∧ decode (.control .finMalformed) [] = .instr .finMalformed [] ∧
    decode (.control .finOk) [] = .instr .finOk [] ∧ decode (.control .finShort) [] = .instr .finShort [] := by decide

theorem test_decode_rejects :
    decode (.hunt .below) [] = .reject .noByte ∧ decode (.hunt .past) [0x00#8] = .reject .pastLimit ∧
    decode (.control .emit) [0x00#8] = .reject .unexpectedOperand := by decide

/-- Table words (R80: the first wire byte of a pair in bits 15..8). -/
theorem test_table_words :
    decodeTableWord 8 0xFE = some .huntStart ∧ decodeTableWord 8 0xFF = some .accEnd ∧
    decodeTableWord 8 0xFD = some (.decPrefix .scanner) ∧ decodeTableWord 16 0xFD00 = some (.decEsc0 .scanner) ∧
    decodeTableWord 16 0xFD01 = some (.decEsc1 .scanner) ∧ decodeTableWord 16 0xFD02 = some (.decEsc2 .scanner) ∧
    decodeTableWord 16 0xFD03 = some (.decEscRsvd .scanner 0x03#8) ∧ decodeTableWord 16 0x0041 = none := by decide

/-- A table word placed is the row the next step runs, from reset. -/
theorem test_withFetchWord_pair :
    (after (step (State.reset.withFetchWord 16 0xFD02))).map (fun t => (t.rx.out, t.rx.escPending, t.rx.decIdx)) =
      some ([(0, 0xFF#8)], false, 2) := by decide

theorem test_withFetchWord_start :
    (after (step (State.reset.withFetchWord 8 0xFE))).map (fun t => (t.rx.state, t.rx.count)) =
      some (.accumulatingUntilEnd, 0) := by decide

/-! ## The functions -/

/-- V1. -/
theorem test_encode_V1 :
    Codec.encodeBytes [0#8, 64#8, 65#8, 253#8, 254#8, 255#8] =
      [0#8, 64#8, 65#8, 253#8, 0#8, 253#8, 1#8, 253#8, 2#8] := by decide

/-- V2. -/
theorem test_decode_V2 :
    Codec.decodeBytes [0#8, 64#8, 65#8, 253#8, 0#8, 253#8, 1#8, 253#8, 2#8] =
      .ok [0#8, 64#8, 65#8, 253#8, 254#8, 255#8] := by decide

/-- V45, V50. -/
theorem test_decode_first_error_wins :
    Codec.decodeBytes [0xFD#8, 0xFD#8] = .error .invalidEscapeOperand ∧
    Codec.decodeBytes [0xFD#8, 0x03#8, 0xFD#8] = .error .invalidEscapeOperand := by decide

/-- V77: rejected by the second check alone. -/
theorem test_build_V77 :
    Codec.buildFrame 5 [0x00#8] = .ok [0xFE#8, 0x00#8, 0x03#8, 0x00#8, 0xFF#8] ∧
    Codec.buildFrame 5 [0xFF#8] = .error .payloadTooLarge := by decide

/-- V114, V117: the marker at the limit is found, one past it is not. -/
theorem test_scan_V114_V117 :
    Codec.scanFrame 8 [0x00#8, 0x01#8, 0x02#8, 0x03#8, 0x04#8, 0x05#8, 0x06#8, 0xFE#8, 0x00#8, 0x02#8, 0xFF#8] =
      .ok 2#16 [] 11 ∧
    Codec.scanFrame 8 [0xFE#8, 0x00#8, 0x08#8, 0x01#8, 0x02#8, 0x03#8, 0x04#8, 0x05#8, 0x06#8, 0xFF#8] =
      .err .endMarkerNotFound 9 := by decide

/-- V124: a doubled start marker corrupts the length. -/
theorem test_scan_V124 : Codec.scanFrame 8 [0xFE#8, 0xFE#8, 0x00#8, 0x02#8, 0xFF#8] = .ok 65024#16 [0x02#8] 5 := by decide

/-- R156 and R159 on streams without end: of `00`, and of `FE`, which is the marker once and data after it (R160). -/
theorem test_scan_infinite :
    Codec.scanStream 8 (Codec.infiniteStream fun _ => 0x00#8) = .err .startMarkerNotFound 8 ∧
    Codec.scanStream 8 (Codec.infiniteStream fun _ => 0xFE#8) = .err .endMarkerNotFound 9 := by decide

/-- V100, and V126, where the stream ends in the body. -/
theorem test_scan_finite_stream :
    Codec.scanStream 8 (Codec.finiteStream [0xFE#8, 0x00#8, 0x02#8, 0xFF#8]) = .ok 2#16 [] 4 ∧
    Codec.scanStream 8 (Codec.finiteStream [0xFE#8, 0x00#8, 0x02#8]) = .blocked := by decide

/-! ## HUNT -/

/-- V114: the start marker is the eighth byte hunted. -/
theorem test_huntStart_at_the_limit :
    (after (step (hunting 8 7 [0xFE#8, 0x00#8]))).map (fun t => (t.rx.state, t.rx.count, t.line.rxQueue)) =
      some (.accumulatingUntilEnd, 0, [0x00#8]) := by decide

/-- V127. -/
theorem test_huntSkip :
    (after (step (hunting 8 1 [0x00#8]))).map (fun t => (t.rx.state, t.rx.count, t.line.rxQueue)) =
      some (.scanningForStart, 2, []) := by decide

/-- V113. -/
theorem test_huntLimit :
    (after (step (hunting 8 7 [0x07#8, 0xFE#8]))).map (fun t => (t.rx.state, t.rx.status, t.rx.count, t.line.rxQueue)) =
      some (.done, .startMarkerNotFound, 8, [0xFE#8]) := by decide

/-- V128: a dry line. -/
theorem test_hunt_dry : after (step (hunting 8 0 [])) = some { hunting 8 0 [] with turns := [] } := by decide

/-! ## ACC -/

/-- V116: the end marker is the eighth byte after the start marker. -/
theorem test_accEnd_at_the_limit :
    (after (step (accumulating 8 [0x00#8, 0x07#8, 0x01#8, 0x02#8, 0x03#8, 0x04#8, 0x05#8] [0xFF#8]))).map
      (fun t => (t.rx.state, t.rx.count, t.rx.len)) = some (.decoding, 8, 7) := by decide

/-- V126. -/
theorem test_accData :
    (after (step (accumulating 8 [0x00#8] [0x02#8]))).map (fun t => (t.rx.rxb, t.rx.len, t.rx.count)) =
      some ([(0, 0x00#8), (1, 0x02#8)], 2, 2) := by decide

/-- V123: the start-marker value in a body is data. -/
theorem test_accData_start_marker :
    (after (step (accumulating 8 [0x00#8, 0x03#8] [0xFE#8, 0xFF#8]))).map (fun t => (t.rx.state, t.rx.rxb)) =
      some (.accumulatingUntilEnd, [(0, 0x00#8), (1, 0x03#8), (2, 0xFE#8)]) := by decide

/-- V115. -/
theorem test_accLimit :
    (after (step (accumulating 8 [0x00#8, 0x01#8, 0x02#8, 0x03#8, 0x04#8, 0x05#8, 0x06#8] [0x07#8, 0xFF#8]))).map
      (fun t => (t.rx.state, t.rx.status, t.rx.len, t.rx.count, t.line.rxQueue)) =
      some (.done, .endMarkerNotFound, 7, 8, [0xFF#8]) := by decide

/-! ## DEC -/

/-- V107, third byte of the body. -/
theorem test_decLit :
    (after (step (decoding 8 [0x00#8, 0x03#8, 0x41#8, 0xFD#8] 2 false [0x00#8, 0x03#8]))).map
      (fun t => (t.rx.out, t.rx.outLen, t.rx.decIdx)) = some ([(0, 0x00#8), (1, 0x03#8), (2, 0x41#8)], 3, 3) := by decide

/-- V123. -/
theorem test_decPassFE :
    (after (step (decoding 8 [0x00#8, 0x03#8, 0xFE#8] 2 false [0x00#8, 0x03#8]))).map (fun t => (t.rx.out, t.rx.decIdx)) =
      some ([(0, 0x00#8), (1, 0x03#8), (2, 0xFE#8)], 3) := by decide

/-- V52. -/
theorem test_decPassFF :
    (after (step (decodeCall [0xFF#8] false []))).map (fun t => (t.calls.decOut, t.calls.decIn)) =
      some ([0xFF#8], []) := by decide

/-- V107, the trailing escape byte. -/
theorem test_decPrefix :
    (after (step (decoding 8 [0x00#8, 0x03#8, 0x41#8, 0xFD#8] 3 false [0x00#8, 0x03#8, 0x41#8]))).map
      (fun t => (t.rx.escPending, t.rx.decIdx, t.rx.outLen, t.rx.state)) = some (true, 4, 3, .decoding) := by decide

/-- V118. -/
theorem test_decEsc0 :
    (after (step (decoding 8 [0xFD#8, 0x00#8, 0xFD#8, 0x01#8, 0xFD#8, 0x02#8, 0x00#8] 1 true []))).map
      (fun t => (t.rx.out, t.rx.escPending)) = some ([(0, 0xFD#8)], false) := by decide

/-- V118. -/
theorem test_decEsc1 :
    (after (step (decoding 8 [0xFD#8, 0x00#8, 0xFD#8, 0x01#8, 0xFD#8, 0x02#8, 0x00#8] 3 true [0xFD#8]))).map
      (fun t => (t.rx.out, t.rx.escPending)) = some ([(0, 0xFD#8), (1, 0xFE#8)], false) := by decide

/-- V118. -/
theorem test_decEsc2 :
    (after (step (decoding 8 [0xFD#8, 0x00#8, 0xFD#8, 0x01#8, 0xFD#8, 0x02#8, 0x00#8] 5 true [0xFD#8, 0xFE#8]))).map
      (fun t => (t.rx.out, t.rx.decIdx)) = some ([(0, 0xFD#8), (1, 0xFE#8), (2, 0xFF#8)], 6) := by decide

/-- V110: the indices and the flag keep their values. -/
theorem test_decEscRsvd :
    (after (step (decoding 8 [0x00#8, 0x03#8, 0xFD#8, 0x07#8] 3 true [0x00#8, 0x03#8]))).map
      (fun t => (t.rx.state, t.rx.status, t.rx.decIdx, t.rx.escPending, t.rx.outLen)) =
      some (.done, .invalidEscapeOperand, 3, true, 2) := by decide

/-- V39. -/
theorem test_decEscTrunc :
    (after (step (decodeCall [] true []))).map (fun t => t.calls.decErr) = some (some .malformedEscape) := by decide

/-! ## ENC and FRAME -/

/-- V13. -/
theorem test_encLit : (after (step (encodeCall [0xFC#8]))).map (fun t => t.calls.encOut) = some [0xFC#8] := by decide

/-- V14. -/
theorem test_encEsc0 : (after (step (encodeCall [0xFD#8]))).map (fun t => t.calls.encOut) = some [0xFD#8, 0x00#8] := by
  decide

/-- V15. -/
theorem test_encEsc1 : (after (step (encodeCall [0xFE#8]))).map (fun t => t.calls.encOut) = some [0xFD#8, 0x01#8] := by
  decide

/-- V16. -/
theorem test_encEsc2 : (after (step (encodeCall [0xFF#8]))).map (fun t => t.calls.encOut) = some [0xFD#8, 0x02#8] := by
  decide

/-- V63. -/
theorem test_frame :
    (after (exec (.frame [0x41#8, 0xFD#8]) State.reset)).map (fun t => t.calls.frameOut) =
      some (some (.ok [0xFE#8, 0x00#8, 0x04#8, 0x41#8, 0xFD#8, 0x00#8, 0xFF#8])) := by decide

/-- V76. -/
theorem test_frame_too_large :
    (after (exec (.frame [0x00#8]) (State.resetWith 4))).map (fun t => t.calls.frameOut) =
      some (some (.error .payloadTooLarge)) := by decide

/-! ## FIN -/

/-- V108: tested before the length. -/
theorem test_finMalformed :
    (after (step (decoding 8 [0xFD#8] 1 true []))).map (fun t => (t.rx.state, t.rx.status, t.rx.escPending)) =
      some (.done, .malformedEscape, true) := by decide

/-- V105. -/
theorem test_finOk :
    (after (step (decoding 8 [0x12#8, 0x34#8] 2 false [0x12#8, 0x34#8]))).map
      (fun t => (t.rx.state, t.rx.status, t.rx.declaredLength, resLenMatch t)) = some (.done, .ok, 4660#16, false) := by
  decide

/-- V100, V101: the payload is what follows the length field. -/
theorem test_resPayload :
    resPayload (finished 8 [0x00#8, 0x02#8] [0x00#8, 0x02#8] false .ok 2#16) = some [] ∧
    resPayload (finished 8 [0x00#8, 0x03#8, 0x41#8] [0x00#8, 0x03#8, 0x41#8] false .ok 3#16) = some [0x41#8] := by decide

/-- V122: two wire bytes, one decoded byte. -/
theorem test_finShort :
    (after (step (decoding 8 [0xFD#8, 0x00#8] 2 false [0xFD#8]))).map (fun t => (t.rx.state, t.rx.status)) =
      some (.done, .frameTooShort) := by decide

/-! ## Commands and the TX unit -/

/-- V99: in the middle of a frame; what was sent stays sent. -/
theorem test_reset_while_sending :
    (after (step (offered [.reset] (sending 8 frameV95 3)))).map (fun t => (t.tx.state, t.tx.len, t.tx.idx, t.tx.status,
      t.line.txSent)) = some (.idle, 0, 0, .none, [0xFE#8, 0x00#8, 0x06#8]) := by decide

/-- V134: in the middle of a scan. -/
theorem test_reset_while_accumulating :
    (after (step (offered [.reset] (accumulating 8 [0x00#8, 0x02#8] [])))).map (fun t => (t.rx.state, t.rx.count,
      t.rx.len, t.rx.status)) = some (.idle, 0, 0, .none) := by decide

/-- V130. -/
theorem test_scanStart :
    (after (step (offered [.scanStart] (finished 8 [0x00#8, 0x03#8, 0x41#8, 0xFD#8] [0x00#8, 0x03#8, 0x41#8] true
      .malformedEscape 0#16)))).map (fun t => (t.rx.state, t.rx.escPending, t.rx.len, t.rx.outLen, t.rx.status)) =
      some (.scanningForStart, false, 0, 0, .none) := by decide

/-- V131: not accepted, and it stays offered. -/
theorem test_scanStart_not_accepted :
    (after (step (offered [.scanStart] (accumulating 8 [0x00#8, 0x02#8] [])))).map (fun t => (t.rx, t.host)) =
      some ((accumulating 8 [0x00#8, 0x02#8] []).rx, [.scanStart]) := by decide

/-- V95. -/
theorem test_txSubmit :
    (after (step (offered [.txSubmit [0x01#8, 0x02#8, 0x03#8, 0x04#8]] (State.resetWith 8)))).map (fun t => t.tx) =
      some { state := .sending, txb := buf frameV95, len := 8, idx := 0, status := .ok } := by decide

/-- V98: not accepted while `Sending`. -/
theorem test_txSubmit_while_sending :
    (after (step (offered [.txSubmit [0x01#8]] (sending 8 frameV95 3)))).map (fun t => (t.tx, t.host)) =
      some ((sending 8 frameV95 3).tx, [.txSubmit [0x01#8]]) := by decide

/-- V97: rejected, with nothing to emit. -/
theorem test_build_too_large :
    (after (exec (.build [0x01#8, 0x02#8, 0x03#8, 0xFF#8]) (State.resetWith 8))).map (fun t => t.tx) =
      some { state := .idle, txb := [], len := 0, idx := 0, status := .payloadTooLarge } := by decide

/-- V96, the last byte. -/
theorem test_emit_last :
    (after (step (sending 8 frameV95 7))).map (fun t => (t.line.txSent, t.tx.state, t.tx.idx, t.tx.status)) =
      some (frameV95, .idle, 8, .ok) := by decide

/-- R139: the line is not ready. -/
theorem test_emit_not_ready :
    (after (exec .emit { sending 8 frameV95 3 with line := { Line.quiet with ready := false } })).map (fun t => t.tx) =
      some (sending 8 frameV95 3).tx := by decide

/-- D23: a byte at or above the valid length has no value; no run meets it. -/
theorem test_read_past_the_valid_length : memRead .txb 8 (sending 9 frameV95 3) = none := by decide

/-! ## States that meet the invariants -/

/-- A search for the start marker with its last byte to come. -/
theorem inv_hunting : Inv (hunting 8 7 [0xFE#8]) := by
  refine ⟨by decide, by decide, ?_, ?_⟩ <;> constructor <;> first | decide | (unfold NoEndMarker; decide)

theorem inv_accumulating : Inv (accumulating 8 [0x00#8] [0x02#8]) := by
  refine ⟨by decide, by decide, ?_, ?_⟩ <;> constructor <;> first | decide | (unfold NoEndMarker; decide)

/-- In operand position, the operand to come (V62's body). -/
theorem inv_decoding : Inv (decoding 8 [0x00#8, 0x03#8, 0xFD#8, 0x02#8] 3 true [0x00#8, 0x03#8]) := by
  refine ⟨by decide, by decide, ?_, ?_⟩ <;> constructor <;> first | decide | (unfold NoEndMarker; decide)

/-- At a symbol start, the body to the brim of RXB. -/
theorem inv_decoding_full : Inv (decoding 4 [0x41#8, 0x42#8, 0x43#8] 2 false [0x41#8, 0x42#8]) := by
  refine ⟨by decide, by decide, ?_, ?_⟩ <;> constructor <;> first | decide | (unfold NoEndMarker; decide)

/-- The result of V101. -/
theorem inv_finished : Inv (finished 8 [0x00#8, 0x03#8, 0x41#8] [0x00#8, 0x03#8, 0x41#8] false .ok 3#16) := by
  refine ⟨by decide, by decide, ?_, ?_⟩ <;> constructor <;>
    first | exact fun _ _ => ⟨rfl, rfl, by decide, 0x00#8, 0x03#8, rfl, rfl, rfl⟩ | (unfold NoEndMarker; decide) | decide

/-- The result of V121. -/
theorem inv_failed : Inv (finished 8 [0x41#8] [0x41#8] false .frameTooShort 0#16) := by
  refine ⟨by decide, by decide, ?_, ?_⟩ <;> constructor <;> first | decide | (unfold NoEndMarker; decide)

/-- V96 before its last byte. -/
theorem inv_sending : Inv (sending 8 frameV95 7) := by
  refine ⟨by decide, by decide, ?_, ?_⟩ <;> constructor <;> first | decide | (unfold NoEndMarker; decide)

/-! ## Witnesses: for each statement with hypotheses, states and operands that meet them, clause by clause -/

theorem witness_DecodeEncodeRoundTrip :
    (Instr.decLit .call 0xFC#8).wf = true ∧ (Instr.decEscRsvd .scanner 0x03#8).wf = true ∧
    (Instr.accData 0xFE#8).wf = true ∧ (Instr.huntLimit 0xFF#8).wf = true ∧ (Instr.frame []).wf = true ∧
    (Instr.emit).wf = true := by decide

theorem witness_DecodedBytesAreEncoded :
    (∀ u, Context.symbol .scanner ≠ .operand u) ∧
    decode (.symbol .scanner) [0xFD#8, 0x03#8, 0x41#8] = .instr (.decEscRsvd .scanner 0x03#8) [0x41#8] :=
  ⟨fun _ => by simp, by decide⟩

theorem witness_ReadingContexts :
    0xFD#8 ≠ 0xFE#8 ∧ 0xFE#8 ≠ 0xFF#8 ∧ (0xFC#8).toNat ≤ 0xFC ∧ 3 ≤ (3#8).toNat := by decide

theorem witness_EncodeOneByte : (252#8).toNat < 253 ∧ 253 ≤ (253#8).toNat := by decide

theorem witness_EncodedBytesHoldNoMarker :
    (Codec.encodeBytes [0x00#8, 0xFD#8])[1]? = some 0xFD#8 ∧ 1 ≤ 1 := by decide

theorem witness_ParserSteps : 0xFC#8 ≠ 0xFD#8 ∧ (2#8).toNat ≤ 2 ∧ 3 ≤ (3#8).toNat := by decide

theorem witness_DecodeLengthLaw : Codec.decodeBytes [0x41#8, 0xFD#8, 0x02#8] = .ok [0x41#8, 0xFF#8] := by decide

theorem witness_EncodingIsUnique :
    Codec.encodeBytes [0xFF#8] = Codec.encodeBytes [0xFF#8] ∧ Codec.decodeBytes [0xFD#8, 0x02#8] = .ok [0xFF#8] := by
  decide

theorem witness_FrameSize : Codec.buildFrame 4 [] = .ok [0xFE#8, 0x00#8, 0x02#8, 0xFF#8] := by decide

theorem witness_BuildFrameChecksTheSize : 4 < [0x00#8].length + 4 := by decide

theorem witness_BoundaryPayload :
    4 ≤ 8 ∧ 8 ≤ 65537 ∧ [0x00#8, 0x00#8, 0x00#8, 0x00#8].length = 8 - 4 := by decide

theorem witness_BuiltFrameLaws :
    4 ≤ 6 ∧ 6 ≤ 65537 ∧ Codec.buildFrame 6 [0xFF#8] = .ok [0xFE#8, 0x00#8, 0x03#8, 0xFD#8, 0x02#8, 0xFF#8] ∧
    1 ≤ 4 ∧ 4 < [0xFE#8, 0x00#8, 0x03#8, 0xFD#8, 0x02#8, 0xFF#8].length - 1 := by decide

theorem witness_SubmitBuildsOrRejects :
    (State.resetWith 5).tx.state = .idle ∧ Codec.buildFrame (State.resetWith 5).maxFrameLen [0xFF#8] = .error .payloadTooLarge ∧
    Codec.buildFrame (State.resetWith 5).maxFrameLen [0x00#8] = .ok [0xFE#8, 0x00#8, 0x03#8, 0x00#8, 0xFF#8] := by decide

theorem witness_SubmissionWhileSendingDoesNotHappen :
    (offered [.txSubmit [0x01#8]] (sending 8 frameV95 3)).tx.state = .sending ∧
    (offered [.txSubmit [0x01#8]] (sending 8 frameV95 3)).host = .txSubmit [0x01#8] :: [] ∧
    (offered [.txSubmit [0x01#8]] (sending 8 frameV95 3)).turns = .host :: [] := by decide

theorem witness_EmitHandsOneByte :
    (sending 8 frameV95 7).tx.state = .sending ∧ (sending 8 frameV95 7).line.ready = true ∧
    memRead .txb (sending 8 frameV95 7).tx.idx (sending 8 frameV95 7) = some 0xFF#8 ∧
    (State.resetWith 8).tx.state = .idle ∧
    ({ sending 8 frameV95 7 with line := { Line.quiet with ready := false } }).line.ready = false := by decide

theorem witness_EmitStepsSendTheBuiltFrame :
    (State.resetWith 5).tx.state = .idle ∧ Codec.buildFrame (State.resetWith 5).maxFrameLen [0xFF#8] = .error .payloadTooLarge ∧
    Codec.buildFrame (State.resetWith 5).maxFrameLen [0x00#8] = .ok [0xFE#8, 0x00#8, 0x03#8, 0x00#8, 0xFF#8] ∧
    (State.resetWith 5).line.ready = true ∧ 5 ≤ [0xFE#8, 0x00#8, 0x03#8, 0x00#8, 0xFF#8].length := by decide

theorem witness_ScanStartClearsAndHunts :
    (State.resetWith 8).rx.state = .idle ∧ (finished 8 [] [] false .frameTooShort 0#16).rx.state = .done ∧
    (hunting 8 0 []).rx.state = .scanningForStart ∧ (accumulating 8 [] []).rx.state = .accumulatingUntilEnd ∧
    (decoding 8 [] 0 false []).rx.state = .decoding := by decide

theorem witness_HuntRows :
    (hunting 8 6 []).rx.state = .scanningForStart ∧ 0xFF#8 ≠ 0xFE#8 ∧
    (hunting 8 6 []).rx.count + 1 < (hunting 8 6 []).maxFrameLen ∧
    (hunting 8 7 []).rx.state = .scanningForStart ∧ (hunting 8 7 []).rx.count + 1 = (hunting 8 7 []).maxFrameLen := by decide

theorem witness_AccRows :
    (accumulating 4 [0x00#8, 0x00#8] []).rx.state = .accumulatingUntilEnd ∧ 0xFE#8 ≠ 0xFF#8 ∧
    (accumulating 4 [0x00#8, 0x00#8] []).rx.count + 1 < (accumulating 4 [0x00#8, 0x00#8] []).maxFrameLen ∧
    (accumulating 4 [0x00#8, 0x00#8] []).rx.len = (accumulating 4 [0x00#8, 0x00#8] []).rx.count ∧
    (accumulating 4 [0x00#8, 0x00#8, 0x00#8] []).rx.state = .accumulatingUntilEnd ∧
    (accumulating 4 [0x00#8, 0x00#8, 0x00#8] []).rx.count + 1 =
      (accumulating 4 [0x00#8, 0x00#8, 0x00#8] []).maxFrameLen := by decide

/-- The last byte of a full body. -/
theorem witness_DecLiteralRows :
    (decoding 4 [0x00#8, 0x02#8, 0xFE#8] 2 false [0x00#8, 0x02#8]).rx.state = .decoding ∧ 2 < 3 ∧
    (decoding 4 [0x00#8, 0x02#8, 0xFE#8] 2 false [0x00#8, 0x02#8]).rx.decIdx <
      (decoding 4 [0x00#8, 0x02#8, 0xFE#8] 2 false [0x00#8, 0x02#8]).rx.len ∧
    (decoding 4 [0x00#8, 0x02#8, 0xFE#8] 2 false [0x00#8, 0x02#8]).rx.escPending = false ∧
    (decoding 4 [0x00#8, 0x02#8, 0xFE#8] 2 false [0x00#8, 0x02#8]).rx.outLen ≤
      (decoding 4 [0x00#8, 0x02#8, 0xFE#8] 2 false [0x00#8, 0x02#8]).rx.decIdx ∧
    (decoding 4 [0x00#8, 0x02#8, 0xFE#8] 2 false [0x00#8, 0x02#8]).rx.len ≤
      (decoding 4 [0x00#8, 0x02#8, 0xFE#8] 2 false [0x00#8, 0x02#8]).maxFrameLen - 1 ∧
    0xFE#8 ≠ 0xFD#8 ∧ 0xFF#8 ≠ 0xFD#8 ∧ 0xFC#8 ≠ 0xFD#8 ∧ (0xFC#8).toNat ≤ 0xFC := by decide

theorem witness_DecPrefixRow :
    (decoding 4 [0x41#8, 0x42#8, 0xFD#8] 2 false [0x41#8, 0x42#8]).rx.state = .decoding ∧
    (decoding 4 [0x41#8, 0x42#8, 0xFD#8] 2 false [0x41#8, 0x42#8]).rx.decIdx <
      (decoding 4 [0x41#8, 0x42#8, 0xFD#8] 2 false [0x41#8, 0x42#8]).rx.len ∧
    (decoding 4 [0x41#8, 0x42#8, 0xFD#8] 2 false [0x41#8, 0x42#8]).rx.escPending = false := by decide

theorem witness_DecPairRows :
    (decoding 4 [0x41#8, 0xFD#8, 0x02#8] 2 true [0x41#8]).rx.state = .decoding ∧
    (decoding 4 [0x41#8, 0xFD#8, 0x02#8] 2 true [0x41#8]).rx.decIdx <
      (decoding 4 [0x41#8, 0xFD#8, 0x02#8] 2 true [0x41#8]).rx.len ∧
    (decoding 4 [0x41#8, 0xFD#8, 0x02#8] 2 true [0x41#8]).rx.escPending = true ∧
    (decoding 4 [0x41#8, 0xFD#8, 0x02#8] 2 true [0x41#8]).rx.outLen ≤
      (decoding 4 [0x41#8, 0xFD#8, 0x02#8] 2 true [0x41#8]).rx.decIdx ∧
    (decoding 4 [0x41#8, 0xFD#8, 0x02#8] 2 true [0x41#8]).rx.len ≤
      (decoding 4 [0x41#8, 0xFD#8, 0x02#8] 2 true [0x41#8]).maxFrameLen - 1 ∧
    (253#8).toNat = 253 ∧ (254#8).toNat = 254 ∧ (255#8).toNat = 255 := by decide

theorem witness_DecReservedOperandRow :
    (decoding 8 [0xFD#8, 0x03#8] 1 true []).rx.state = .decoding ∧
    (decoding 8 [0xFD#8, 0x03#8] 1 true []).rx.decIdx < (decoding 8 [0xFD#8, 0x03#8] 1 true []).rx.len ∧
    (decoding 8 [0xFD#8, 0x03#8] 1 true []).rx.escPending = true ∧ 3 ≤ (0x03#8).toNat := by decide

theorem witness_FinRows_malformed :
    (decoding 8 [0xFD#8] 1 true []).rx.state = .decoding ∧
    (decoding 8 [0xFD#8] 1 true []).rx.decIdx = (decoding 8 [0xFD#8] 1 true []).rx.len ∧
    (decoding 8 [0xFD#8] 1 true []).rx.escPending = true := by decide

theorem witness_FinRows_ok :
    (decoding 8 [0x12#8, 0x34#8] 2 false [0x12#8, 0x34#8]).rx.state = .decoding ∧
    (decoding 8 [0x12#8, 0x34#8] 2 false [0x12#8, 0x34#8]).rx.decIdx =
      (decoding 8 [0x12#8, 0x34#8] 2 false [0x12#8, 0x34#8]).rx.len ∧
    (decoding 8 [0x12#8, 0x34#8] 2 false [0x12#8, 0x34#8]).rx.escPending = false ∧
    2 ≤ (decoding 8 [0x12#8, 0x34#8] 2 false [0x12#8, 0x34#8]).rx.outLen ∧
    memRead .out 0 (decoding 8 [0x12#8, 0x34#8] 2 false [0x12#8, 0x34#8]) = some 0x12#8 ∧
    memRead .out 1 (decoding 8 [0x12#8, 0x34#8] 2 false [0x12#8, 0x34#8]) = some 0x34#8 := by decide

theorem witness_FinRows_short :
    (decoding 8 [0x41#8] 1 false [0x41#8]).rx.state = .decoding ∧
    (decoding 8 [0x41#8] 1 false [0x41#8]).rx.decIdx = (decoding 8 [0x41#8] 1 false [0x41#8]).rx.len ∧
    (decoding 8 [0x41#8] 1 false [0x41#8]).rx.escPending = false ∧
    (decoding 8 [0x41#8] 1 false [0x41#8]).rx.outLen < 2 := by decide

theorem witness_StateAfterReset : State.resetWith 4 = State.reset ∨ ∃ m : Nat, State.resetWith 4 = State.resetWith m :=
  .inr ⟨4, rfl⟩

theorem witness_StandaloneDecodeRows :
    (decodeCall [] false []).calls.decErr = none ∧ (decodeCall [] false []).calls.decEsc = false ∧
    (0xFC#8).toNat ≤ 0xFC ∧ (decodeCall [] true []).calls.decErr = none ∧ (decodeCall [] true []).calls.decEsc = true ∧
    3 ≤ (0x03#8).toNat ∧ (decodeCall [] true []).calls.decIn = [] := by decide

theorem witness_StandaloneEncodeRows : (0xFC#8).toNat ≤ 0xFC := by decide

theorem witness_StandaloneCallsComputeTheFunctions :
    (encodeCall [0xFD#8]).calls.encIn = [0xFD#8] ∧ (encodeCall [0xFD#8]).calls.encOut = [] ∧
    (decodeCall [0xFD#8] false []).calls.decIn = [0xFD#8] ∧ (decodeCall [0xFD#8] false []).calls.decOut = [] ∧
    (decodeCall [0xFD#8] false []).calls.decEsc = false ∧ (decodeCall [0xFD#8] false []).calls.decErr = none ∧
    Codec.decodeBytes [0xFD#8] = .error .malformedEscape ∧ Codec.decodeBytes [0x41#8] = .ok [0x41#8] := by decide

theorem witness_RxStepRunsTheByteOffered :
    (hunting 8 7 [0xFE#8]).turns = .rx :: [] ∧ lineContext (hunting 8 7 [0xFE#8]) = some (.hunt .last) ∧
    (hunting 8 7 [0xFE#8]).line.rxQueue = 0xFE#8 :: [] ∧ decode (.hunt .last) [0xFE#8] = .instr .huntStart [] ∧
    Inv (hunting 8 7 [0xFE#8]) ∧ rxReady (hunting 8 7 [0xFE#8]) = true :=
  ⟨rfl, rfl, rfl, by decide, inv_hunting, by decide⟩

theorem witness_RxStepRunsTheByteOffered_not_ready :
    rxReady (decoding 8 [0xFD#8] 1 true []) = false ∧ (decoding 8 [0xFD#8] 1 true []).turns = .rx :: [] ∧
    ∃ t, step (decoding 8 [0xFD#8] 1 true []) = .next t := ⟨by decide, rfl, _, rfl⟩

theorem witness_RxStepRunsTheByteOffered_dry :
    rxReady (hunting 8 0 []) = true ∧ (hunting 8 0 []).turns = .rx :: [] ∧ (hunting 8 0 []).line.rxQueue = [] := by decide

theorem witness_RxStepRunsTheByteStored :
    (decoding 8 [0xFD#8, 0x02#8] 1 true []).turns = .rx :: [] ∧ (decoding 8 [0xFD#8, 0x02#8] 1 true []).rx.state = .decoding ∧
    (decoding 8 [0xFD#8, 0x02#8] 1 true []).rx.decIdx < (decoding 8 [0xFD#8, 0x02#8] 1 true []).rx.len ∧
    memRead .rxb (decoding 8 [0xFD#8, 0x02#8] 1 true []).rx.decIdx (decoding 8 [0xFD#8, 0x02#8] 1 true []) = some 0x02#8 ∧
    decode (.operand .scanner) [0x02#8] = .instr (.decEsc2 .scanner) [] := by decide

theorem witness_RxStepRunsTheByteStored_end :
    (decoding 8 [0xFD#8] 1 true []).turns = .rx :: [] ∧ (decoding 8 [0xFD#8] 1 true []).rx.state = .decoding ∧
    (decoding 8 [0xFD#8] 1 true []).rx.decIdx = (decoding 8 [0xFD#8] 1 true []).rx.len ∧
    (decoding 8 [0xFD#8] 1 true []).rx.escPending = true := by decide

theorem witness_StepRunsTheRowFetched :
    (sending 8 frameV95 7).turns = .tx :: [] ∧
    fetch .tx { sending 8 frameV95 7 with turns := [] } = .take .emit { sending 8 frameV95 7 with turns := [] } ∧
    (sending 8 frameV95 7).tx.state = .sending ∧ (sending 8 frameV95 7).line.ready = true ∧
    (offered [.reset] (State.resetWith 8)).turns = .host :: [] ∧ (offered [.reset] (State.resetWith 8)).host = .reset :: [] ∧
    scanReady (offered [.scanStart] (State.resetWith 8)) = true ∧
    txReady (offered [.txSubmit []] (State.resetWith 8)) = true := by decide

theorem witness_DecStepAppliesParse1 :
    Inv (decoding 8 [0x00#8, 0x03#8, 0xFD#8, 0x02#8] 3 true [0x00#8, 0x03#8]) ∧
    (decoding 8 [0x00#8, 0x03#8, 0xFD#8, 0x02#8] 3 true [0x00#8, 0x03#8]).turns = .rx :: [] ∧
    memRead .rxb 3 (decoding 8 [0x00#8, 0x03#8, 0xFD#8, 0x02#8] 3 true [0x00#8, 0x03#8]) = some 0x02#8 :=
  ⟨inv_decoding, rfl, by decide⟩

theorem witness_DecStepAppliesParse1_full :
    Inv (decoding 4 [0x41#8, 0x42#8, 0x43#8] 2 false [0x41#8, 0x42#8]) ∧
    (decoding 4 [0x41#8, 0x42#8, 0x43#8] 2 false [0x41#8, 0x42#8]).turns = .rx :: [] ∧
    memRead .rxb 2 (decoding 4 [0x41#8, 0x42#8, 0x43#8] 2 false [0x41#8, 0x42#8]) = some 0x43#8 :=
  ⟨inv_decoding_full, rfl, by decide⟩

theorem witness_UnacceptedEventsStayOffered :
    (offered [.scanStart] (hunting 8 0 [])).turns = .host :: [] ∧
    (offered [.scanStart] (hunting 8 0 [])).host = .scanStart :: [] ∧
    accepted .scanStart (offered [.scanStart] (hunting 8 0 [])) = false ∧
    (finished 8 [] [] false .frameTooShort 0#16).turns = .rx :: [] ∧
    (finished 8 [] [] false .frameTooShort 0#16).rx.state = .done := by decide

theorem witness_ResetMeetsTheInvariants : 4 ≤ 65537 ∧ 65537 ≤ 65537 := by decide

theorem witness_StepKeepsTheInvariants :
    Inv (hunting 8 7 [0xFE#8]) ∧ (∃ t, step (hunting 8 7 [0xFE#8]) = .next t) ∧
    Inv (sending 8 frameV95 7) ∧ (∃ t, step (sending 8 frameV95 7) = .next t) :=
  ⟨inv_hunting, ⟨_, rfl⟩, inv_sending, ⟨_, rfl⟩⟩

theorem witness_StepNeverStops : Inv (accumulating 8 [0x00#8] [0x02#8]) := inv_accumulating

theorem witness_RxStateTransitions :
    ∃ t, step (hunting 8 7 [0xFE#8]) = .next t ∧ t.rx.state ≠ (hunting 8 7 [0xFE#8]).rx.state :=
  ⟨_, rfl, by decide⟩

theorem witness_UnitsShareNoState :
    ∃ t u, agentStep .rx { sending 8 frameV95 7 with rx := (hunting 8 7 []).rx, line := { Line.quiet with rxQueue := [0xFE#8] } } =
        .next t ∧ agentStep .tx t = .next u ∧ (∃ v, agentStep .line (State.resetWith 8) = .next v) :=
  ⟨_, _, rfl, rfl, _, rfl⟩

theorem witness_LineIsFirstInFirstOut :
    ∃ t, step { hunting 8 0 [0xFF#8] with turns := [.line], line := { Line.quiet with script := [.deliver 0x41#8] } } =
      .next t := ⟨_, rfl⟩

theorem witness_DoneHoldsTheResult :
    (finished 8 [0x41#8] [0x41#8] false .frameTooShort 0#16).rx.state = .done ∧
    (∃ t, step (finished 8 [0x41#8] [0x41#8] false .frameTooShort 0#16) = .next t) ∧
    (nextTurn (finished 8 [0x41#8] [0x41#8] false .frameTooShort 0#16)).1 = .rx ∧
    Inv (finished 8 [0x41#8] [0x41#8] false .frameTooShort 0#16) ∧
    (finished 8 [0x41#8] [0x41#8] false .frameTooShort 0#16).rx.status ≠ .ok :=
  ⟨rfl, ⟨_, rfl⟩, rfl, inv_failed, by decide⟩

theorem witness_ResultOutputs :
    Inv (finished 8 [0x00#8, 0x03#8, 0x41#8] [0x00#8, 0x03#8, 0x41#8] false .ok 3#16) ∧
    (finished 8 [0x00#8, 0x03#8, 0x41#8] [0x00#8, 0x03#8, 0x41#8] false .ok 3#16).rx.status = .ok ∧
    Inv (finished 8 [0x41#8] [0x41#8] false .frameTooShort 0#16) ∧
    (finished 8 [0x41#8] [0x41#8] false .frameTooShort 0#16).rx.status ≠ .ok :=
  ⟨inv_finished, rfl, inv_failed, by decide⟩

theorem witness_TxOutputs :
    Inv (sending 8 frameV95 7) ∧ (sending 8 frameV95 7).tx.state = .sending ∧ (sending 8 frameV95 7).line.ready = true ∧
    Inv (hunting 8 7 [0xFE#8]) ∧ (hunting 8 7 [0xFE#8]).tx.state = .idle :=
  ⟨inv_sending, rfl, rfl, inv_hunting, rfl⟩

theorem witness_ScanFrameIsReadUntil :
    1 ≤ 1 ∧ Codec.scanFrame 4 [0xFE#8, 0x00#8, 0x02#8, 0xFF#8] ≠ .blocked ∧ 2 * 4 ≤ 8 := by decide

theorem witness_ScannerRunIsScanFrame :
    Inv (finished 8 [0x41#8] [0x41#8] false .frameTooShort 0#16) ∧
    (finished 8 [0x41#8] [0x41#8] false .frameTooShort 0#16).rx.state = .done := ⟨inv_failed, rfl⟩

theorem witness_ScannerRecoversBuiltFrames :
    4 ≤ 4 ∧ 4 ≤ 65537 ∧ Codec.buildFrame 4 [] = .ok [0xFE#8, 0x00#8, 0x02#8, 0xFF#8] ∧
    0xFE#8 ∉ [0xFF#8, 0xFF#8, 0xFD#8] ∧ [0xFF#8, 0xFF#8, 0xFD#8].length ≤ 4 - 1 := by decide

theorem witness_BytesConsumedByOutcome :
    Codec.scanFrame 4 [0#8, 1#8, 2#8, 3#8] = .err .startMarkerNotFound 4 ∧
    Codec.scanFrame 4 [0#8, 1#8, 2#8, 0xFE#8, 4#8, 5#8, 6#8, 7#8] = .err .endMarkerNotFound 8 ∧
    Codec.scanFrame 4 [0#8, 1#8, 2#8, 0xFE#8, 0#8, 3#8, 6#8, 0xFF#8] = .ok 3#16 [6#8] 8 ∧
    Codec.scanFrame 4 [0xFE#8, 0xFF#8] = .err .frameTooShort 2 := by decide

theorem witness_EveryDeclaredLengthIsPassedOn :
    4 ≤ 5 ∧ (Codec.encodeBytes (Codec.lenBytes (65535#16).toNat ++ [])).length + 1 ≤ 5 := by decide

theorem witness_NoLeakageBetweenAttempts :
    (State.resetWith 8).maxFrameLen = (finished 8 [0xFD#8] [] true .malformedEscape 0#16).maxFrameLen ∧
    (State.resetWith 8).line.rxQueue = (finished 8 [0xFD#8] [] true .malformedEscape 0#16).line.rxQueue ∧
    (State.resetWith 8).rx.state = .idle ∧ (finished 8 [0xFD#8] [] true .malformedEscape 0#16).rx.state = .done ∧
    ∃ t t' u, exec .scanStart (State.resetWith 8) = .next t ∧
      exec .scanStart (finished 8 [0xFD#8] [] true .malformedEscape 0#16) = .next t' ∧ agentRun .rx 2 t = .next u :=
  ⟨rfl, rfl, rfl, rfl, _, _, _, rfl, rfl, rfl⟩

theorem witness_DecodingEndsInBoundedSteps :
    Inv (decoding 4 [0x41#8, 0x42#8, 0x43#8] 2 false [0x41#8, 0x42#8]) ∧
    (decoding 4 [0x41#8, 0x42#8, 0x43#8] 2 false [0x41#8, 0x42#8]).rx.state = .decoding := ⟨inv_decoding_full, rfl⟩

/-- A recogniser that finds the identity `50` in the text `52 50` and nothing elsewhere; property S6's shape. -/
theorem witness_HostSideRules :
    (∀ d ∈ [[0x41#8]], (fun x : List Byte => if x = [0x52#8, 0x50#8] then some (some [0x50#8]) else none) d = none) ∧
    (fun x : List Byte => if x = [0x52#8, 0x50#8] then some (some [0x50#8]) else none) [0x52#8, 0x50#8] =
      some (some [0x50#8]) := by decide

end Sys2Proof.Tests
end

/-! PROOFS. The agents and their steps (spec/00_scope.md, R10 and R16): the statements `UnitsShareNoState`,
`StepRunsTheRowFetched` and `UnacceptedEventsStayOffered`, with what they rest on. -/
namespace Sys2Proof.Scope
open Sys2Proof.Machine Sys2Proof.Laws

/-! ## One step is the step of the agent whose turn it is -/

theorem step_of_turn {s : State} {a : Agent} {ts : List Agent} (h : s.turns = a :: ts) :
    step s = agentStep a { s with turns := ts } := by
  simp [step, nextTurn, h]

theorem agentStep_of_take {a : Agent} {s u : State} {i : Instr} (h : fetch a s = .take i u) :
    agentStep a s = exec i u := by
  cases a with
  | line => cases h
  | rx | tx | host | encoder | decoder | framer => rw [agentStep, h, runFetched]

theorem agentStep_of_hold {a : Agent} {s : State} (ha : a ≠ .line) (h : fetch a s = .hold) :
    agentStep a s = .next s := by
  cases a with
  | line => exact absurd rfl ha
  | rx | tx | host | encoder | decoder | framer => rw [agentStep, h, runFetched, hold]

/-! ## What each agent finds -/

theorem fetch_rx_of_resting {s : State} (h : s.rx.state = .idle ∨ s.rx.state = .done) : fetch .rx s = .hold := by
  rcases h with h | h <;> simp only [fetch, fetchRx, h]

theorem fetch_tx_of_sending {s : State} (hs : s.tx.state = .sending) (hr : s.line.ready = true) :
    fetch .tx s = .take .emit s :=
  if_pos ⟨hs, hr⟩

theorem emit_of_fetch_tx {s u : State} {i : Instr} (h : fetch .tx s = .take i u) : i = .emit := by
  simp only [fetch, fetchTx] at h
  split at h <;> cases h
  rfl

theorem fetch_host_of_accepted {s : State} {c : Command} {rest : List Command} (hh : s.host = c :: rest)
    (ha : accepted c s = true) : fetch .host s = .take (commandRow c) { s with host := rest } := by
  simp only [fetch, fetchHost, hh, ha, if_true]

theorem fetch_host_of_refused {s : State} {c : Command} {rest : List Command} (hh : s.host = c :: rest)
    (ha : accepted c s = false) : fetch .host s = .hold := by
  simp only [fetch, fetchHost, hh, ha, Bool.false_eq_true, if_false]

/-- Whether a command is accepted does not rest on the turns to come. -/
@[simp] theorem accepted_with_turns (c : Command) (s : State) (ts : List Agent) :
    accepted c { s with turns := ts } = accepted c s := by
  cases c <;> rfl

theorem step_of_accepted {s : State} {ts : List Agent} {c : Command} {rest : List Command} (ht : s.turns = .host :: ts)
    (hh : s.host = c :: rest) (ha : accepted c s = true) :
    step s = exec (commandRow c) { s with turns := ts, host := rest } := by
  rw [step_of_turn ht]
  exact agentStep_of_take (fetch_host_of_accepted (s := { s with turns := ts }) hh (by rw [accepted_with_turns, ha]))

/-- Settles O40: the turn hands the step to the agent, and the agent runs the row it finds. -/
theorem stepRunsTheRowFetched : Obligations.StepRunsTheRowFetched := by
  intro s u ts a i ht
  refine ⟨fun hf => ?_, ?_, ?_⟩
  · rw [step_of_turn ht, agentStep_of_take hf]
  · rintro rfl hs hr
    rw [step_of_turn ht]
    exact agentStep_of_take (fetch_tx_of_sending hs hr)
  · rintro rfl rest
    exact ⟨fun hh => step_of_accepted ht hh rfl, fun hh ha => step_of_accepted ht hh ha,
      fun _ hh ha => step_of_accepted ht hh ha⟩

/-- Settles O42: a refused command and a byte for a resting RX unit are not found, and the step holds. -/
theorem unacceptedEventsStayOffered : Obligations.UnacceptedEventsStayOffered := by
  intro s ts
  refine ⟨fun ht c rest hh ha => ?_, fun ht hs => ?_⟩
  · rw [step_of_turn ht]
    exact agentStep_of_hold (by decide) (fetch_host_of_refused hh (by rw [accepted_with_turns, ha]))
  · rw [step_of_turn ht]
    exact agentStep_of_hold (by decide) (fetch_rx_of_resting hs)

/-! ## The two halves of the state that the units own (R10, R42, R43) -/

/-- The state with the RX unit and the receive direction replaced. -/
def setReceive (r : RxUnit) (queue : List Byte) (s : State) : State :=
  { s with rx := r, line := { s.line with rxQueue := queue } }

/-- The state with the TX unit and the bytes handed over so far replaced. -/
def setTransmit (x : TxUnit) (sent : List Byte) (s : State) : State :=
  { s with tx := x, line := { s.line with txSent := sent } }

@[simp] theorem setReceive_tx (r : RxUnit) (queue : List Byte) (s : State) : (setReceive r queue s).tx = s.tx := rfl
@[simp] theorem setTransmit_rx (x : TxUnit) (sent : List Byte) (s : State) : (setTransmit x sent s).rx = s.rx := rfl
@[simp] theorem setTransmit_rxQueue (x : TxUnit) (sent : List Byte) (s : State) :
    (setTransmit x sent s).line.rxQueue = s.line.rxQueue := rfl

theorem setTransmit_setReceive (x : TxUnit) (sent : List Byte) (r : RxUnit) (queue : List Byte) (s : State) :
    setTransmit x sent (setReceive r queue s) = setReceive r queue (setTransmit x sent s) := rfl

theorem decEmit_scanner_frame {b : Byte} {s t : State} (h : decEmit .scanner b s = .next t) :
    ∃ r, t = { s with rx := r } :=
  ⟨_, (decEmit_scanner_eq_next.mp h).2⟩

theorem huntMove_frame {b : Byte} {s t : State} (h : HuntMove b s t) : ∃ r, t = { s with rx := r } := by
  rcases h with ⟨-, rfl⟩ | ⟨-, -, rfl⟩ | ⟨-, -, rfl⟩ <;> exact ⟨_, rfl⟩

theorem accMove_frame {b : Byte} {s t : State} (h : AccMove b s t) : ∃ r, t = { s with rx := r } := by
  rcases h with ⟨-, rfl⟩ | ⟨-, -, -, rfl⟩ | ⟨-, -, rfl⟩ <;> exact ⟨_, rfl⟩

theorem decMove_frame {b : Byte} {s t : State} (h : DecMove b s t) : ∃ r, t = { s with rx := r } := by
  rcases h with ⟨-, -, he⟩ | ⟨-, -, rfl⟩ | ⟨-, -, he⟩ | ⟨-, -, rfl⟩
  · exact decEmit_scanner_frame he
  · exact ⟨_, rfl⟩
  · exact decEmit_scanner_frame he
  · exact ⟨_, rfl⟩

theorem finMove_frame {s t : State} (h : FinMove s t) : ∃ r, t = { s with rx := r } := by
  rcases h with ⟨-, rfl⟩ | ⟨-, -, _, _, -, -, rfl⟩ | ⟨-, -, rfl⟩ <;> exact ⟨_, rfl⟩

/-- A step of the RX unit writes the RX unit and the receive direction, and nothing else. -/
theorem rx_step_frame {s t : State} (h : agentStep .rx s = .next t) : ∃ r queue, t = setReceive r queue s := by
  rcases rx_step_cases h with rfl | ⟨-, b, rest, -, hm⟩ | ⟨-, b, rest, -, hm⟩ | ⟨-, -, b, -, hm⟩ | ⟨-, -, hm⟩
  · exact ⟨t.rx, t.line.rxQueue, rfl⟩
  · obtain ⟨r, rfl⟩ := huntMove_frame hm
    exact ⟨r, rest, rfl⟩
  · obtain ⟨r, rfl⟩ := accMove_frame hm
    exact ⟨r, rest, rfl⟩
  · obtain ⟨r, rfl⟩ := decMove_frame hm
    exact ⟨r, s.line.rxQueue, rfl⟩
  · obtain ⟨r, rfl⟩ := finMove_frame hm
    exact ⟨r, s.line.rxQueue, rfl⟩

/-- A step of the TX unit writes the TX unit and the bytes handed over, and nothing else. -/
theorem tx_step_frame {s t : State} (h : agentStep .tx s = .next t) : ∃ x sent, t = setTransmit x sent s := by
  rcases tx_step_cases h with rfl | ⟨-, -, b, -, rfl⟩
  · exact ⟨t.tx, t.line.txSent, rfl⟩
  · exact ⟨_, _, rfl⟩

/-! ## A step of one unit does not read the other's half -/

/-- An outcome with its next state changed; a stop stays as it is. -/
def onNext (g : State → State) : Host.Outcome State Fault Refusal → Host.Outcome State Fault Refusal
  | .next s => .next (g s)
  | .fault r => .fault r
  | .refused r => .refused r

/-- What an agent finds, with the state of its row changed. -/
def onTake (g : State → State) : Fetched → Fetched
  | .take i s => .take i (g s)
  | .hold => .hold
  | .fault r => .fault r

theorem onNext_eq_next {g : State → State} {o : Host.Outcome State Fault Refusal} {t : State}
    (h : onNext g o = .next t) : ∃ s, o = .next s ∧ t = g s := by
  cases o with
  | next s => exact ⟨s, rfl, (Host.Outcome.next.inj h).symm⟩
  | fault | refused => cases h

/-- A guarded row commutes with a change of the state that its guard does not see, when both its outcomes do. -/
theorem guarded_onNext {g : State → State} {c : Prop} {_ : Decidable c} {o o' p p' : Host.Outcome State Fault Refusal}
    (h : o = onNext g p) (h' : o' = onNext g p') : (if c then o else o') = onNext g (if c then p else p') := by
  rw [h, h', apply_ite (onNext g)]

section Receive
variable (r : RxUnit) (queue : List Byte) (s : State)

theorem memRead_txb_setReceive (i : Nat) : memRead .txb i (setReceive r queue s) = memRead .txb i s := rfl

theorem execEmit_setReceive : execEmit (setReceive r queue s) = onNext (setReceive r queue) (execEmit s) := by
  refine guarded_onNext ?_ rfl
  rw [setReceive_tx, memRead_txb_setReceive]
  cases memRead .txb s.tx.idx s <;> rfl

/-- The TX unit finds the same row whatever the receive half holds. -/
theorem fetch_tx_setReceive : fetch .tx (setReceive r queue s) = onTake (setReceive r queue) (fetch .tx s) := by
  simp only [fetch, fetchTx, apply_ite (onTake (setReceive r queue))]
  rfl

end Receive

/-- The rows that the RX unit's turn can find: HUNT, ACC, FIN, and DEC one byte at a time (R154 to R170). -/
def rxRow : Instr → Bool
  | .huntStart | .huntSkip _ | .huntLimit _ | .accEnd | .accData _ | .accLimit _ => true
  | .decLit .scanner _ | .decPassFE .scanner | .decPassFF .scanner | .decPrefix .scanner => true
  | .decEsc0 .scanner | .decEsc1 .scanner | .decEsc2 .scanner | .decEscRsvd .scanner _ => true
  | .finMalformed | .finOk | .finShort => true
  | _ => false

theorem rxRow_of_huntRow {m : Room} {b : Byte} {i : Instr} (h : huntRow m b = some i) : rxRow i = true := by
  unfold huntRow at h
  split at h
  · cases h; rfl
  · cases m <;> cases h <;> rfl

theorem rxRow_of_accRow {m : Room} {b : Byte} {i : Instr} (h : accRow m b = some i) : rxRow i = true := by
  unfold accRow at h
  split at h
  · cases h; rfl
  · cases m <;> cases h <;> rfl

theorem rxRow_symStartRow (b : Byte) : rxRow (symStartRow .scanner b) = true := by
  unfold symStartRow
  repeat' split
  all_goals rfl

theorem rxRow_operandRow (d : Byte) : rxRow (operandRow .scanner d) = true := by
  unfold operandRow
  repeat' split
  all_goals rfl

theorem rxRow_finRow (s : State) : rxRow (finRow s) = true := by
  unfold finRow
  repeat' split
  all_goals rfl

section Transmit
variable (x : TxUnit) (sent : List Byte) (s : State)

/-- RXB and OUT are read alike whatever the transmit half holds. -/
theorem memRead_setTransmit {sp : Space} (hsp : sp ≠ .txb) (i : Nat) :
    memRead sp i (setTransmit x sent s) = memRead sp i s := by
  cases sp with
  | txb => exact absurd rfl hsp
  | rxb | out => rfl

/-- RXB and OUT are written alike whatever the transmit half holds. -/
theorem memWrite_setTransmit {sp : Space} (hsp : sp ≠ .txb) (i : Nat) (b : Byte) :
    memWrite sp i b (setTransmit x sent s) = (memWrite sp i b s).map (setTransmit x sent) := by
  simp only [memWrite, apply_ite (Option.map (setTransmit x sent))]
  cases sp with
  | txb => exact absurd rfl hsp
  | rxb | out => rfl

theorem decEmit_scanner_setTransmit (b : Byte) :
    decEmit .scanner b (setTransmit x sent s) = onNext (setTransmit x sent) (decEmit .scanner b s) := by
  rw [decEmit, decEmit, setTransmit_rx, memWrite_setTransmit _ _ _ (by decide)]
  cases memWrite .out s.rx.outLen b s <;> rfl

theorem decLiteral_scanner_setTransmit (b : Byte) :
    decLiteral .scanner b (setTransmit x sent s) = onNext (setTransmit x sent) (decLiteral .scanner b s) :=
  guarded_onNext (decEmit_scanner_setTransmit x sent s _) rfl

theorem decPair_scanner_setTransmit (d : Byte) :
    decPair .scanner d (setTransmit x sent s) = onNext (setTransmit x sent) (decPair .scanner d s) :=
  guarded_onNext (decEmit_scanner_setTransmit x sent s _) rfl

theorem execAccData_setTransmit (b : Byte) :
    execAccData b (setTransmit x sent s) = onNext (setTransmit x sent) (execAccData b s) := by
  refine guarded_onNext ?_ rfl
  rw [setTransmit_rx, memWrite_setTransmit _ _ _ (by decide)]
  cases memWrite .rxb s.rx.len b s <;> rfl

theorem execFinOk_setTransmit :
    execFinOk (setTransmit x sent s) = onNext (setTransmit x sent) (execFinOk s) := by
  refine guarded_onNext ?_ rfl
  rw [memRead_setTransmit _ _ _ (by decide), memRead_setTransmit _ _ _ (by decide)]
  cases memRead .out 0 s <;> cases memRead .out 1 s <;> rfl

/-- A row of the RX unit does not depend on the TX unit or the bytes handed over. -/
theorem exec_setTransmit {i : Instr} (hi : rxRow i = true) :
    exec i (setTransmit x sent s) = onNext (setTransmit x sent) (exec i s) := by
  cases i with
  | huntStart | huntSkip | huntLimit | accEnd | accLimit | finMalformed | finShort =>
    exact guarded_onNext rfl rfl
  | accData b => exact execAccData_setTransmit x sent s b
  | finOk => exact execFinOk_setTransmit x sent s
  | decLit u b =>
    cases u with
    | call => cases hi
    | scanner => exact guarded_onNext (decLiteral_scanner_setTransmit x sent s b) rfl
  | decPassFE u | decPassFF u =>
    cases u with
    | call => cases hi
    | scanner => exact decLiteral_scanner_setTransmit x sent s _
  | decPrefix u | decEscRsvd u d =>
    cases u with
    | call => cases hi
    | scanner => exact guarded_onNext rfl rfl
  | decEsc0 u | decEsc1 u | decEsc2 u =>
    cases u with
    | call => cases hi
    | scanner => exact decPair_scanner_setTransmit x sent s _
  | _ => cases hi

theorem fetchLineByte_setTransmit :
    fetchLineByte (setTransmit x sent s) = onTake (setTransmit x sent) (fetchLineByte s) := by
  have hc : lineContext (setTransmit x sent s) = lineContext s := rfl
  simp only [fetchLineByte, hc, setTransmit_rxQueue]
  cases lineContext s with
  | none => rfl
  | some c =>
    cases s.line.rxQueue with
    | nil => rfl
    | cons b rest =>
      dsimp only
      cases decode c [b] <;> rfl

theorem fetchBodyByte_setTransmit :
    fetchBodyByte (setTransmit x sent s) = onTake (setTransmit x sent) (fetchBodyByte s) := by
  have hm : memRead .rxb s.rx.decIdx (setTransmit x sent s) = memRead .rxb s.rx.decIdx s :=
    memRead_setTransmit x sent s (by decide) _
  simp only [fetchBodyByte, setTransmit_rx, hm, apply_ite (onTake (setTransmit x sent))]
  refine if_congr Iff.rfl ?_ rfl
  cases memRead .rxb s.rx.decIdx s with
  | none => rfl
  | some b => simp only [decode_stuffed, onTake]

/-- The RX unit finds the same row whatever the transmit half holds. -/
theorem fetch_rx_setTransmit : fetch .rx (setTransmit x sent s) = onTake (setTransmit x sent) (fetch .rx s) := by
  simp only [fetch, fetchRx, setTransmit_rx]
  cases s.rx.state with
  | idle | done => rfl
  | scanningForStart | accumulatingUntilEnd => exact fetchLineByte_setTransmit x sent s
  | decoding => exact fetchBodyByte_setTransmit x sent s

end Transmit

theorem rxRow_of_ofRow {row : Option Instr} {i : Instr} {rest rest' : List Byte}
    (hrow : ∀ j, row = some j → rxRow j = true) (h : Decoded.ofRow row rest = .instr i rest') : rxRow i = true := by
  cases row with
  | none => cases h
  | some j => cases h; exact hrow i rfl

/-- A byte of the line is read in context H or A (R76), so it is a row of the RX unit. -/
theorem rxRow_of_lineContext {s : State} {c : Context} {b : Byte} {i : Instr} {rest : List Byte}
    (hc : lineContext s = some c) (hd : decode c [b] = .instr i rest) : rxRow i = true := by
  unfold lineContext at hc
  split at hc <;> cases hc
  · exact rxRow_of_ofRow (fun _ => rxRow_of_huntRow) hd
  · exact rxRow_of_ofRow (fun _ => rxRow_of_accRow) hd

theorem rxRow_of_fetchLineByte {s u : State} {i : Instr} (h : fetchLineByte s = .take i u) : rxRow i = true := by
  unfold fetchLineByte at h
  split at h
  · next c b rest hc _ =>
    split at h
    · next hd => cases h; exact rxRow_of_lineContext hc hd
    · cases h
  · cases h

theorem rxRow_of_fetchBodyByte {s u : State} {i : Instr} (h : fetchBodyByte s = .take i u) : rxRow i = true := by
  unfold fetchBodyByte at h
  split at h
  · cases hm : memRead .rxb s.rx.decIdx s with
    | none => rw [hm] at h; cases h
    | some b =>
      simp only [hm, decode_stuffed] at h
      cases h
      split
      · exact rxRow_operandRow b
      · exact rxRow_symStartRow b
  · split at h <;> cases h
    exact rxRow_finRow s

theorem rxRow_of_fetch_rx {s u : State} {i : Instr} (h : fetch .rx s = .take i u) : rxRow i = true := by
  simp only [fetch, fetchRx] at h
  cases hs : s.rx.state with
  | idle | done => rw [hs] at h; cases h
  | scanningForStart | accumulatingUntilEnd => rw [hs] at h; exact rxRow_of_fetchLineByte h
  | decoding => rw [hs] at h; exact rxRow_of_fetchBodyByte h

/-- The TX unit's step does not depend on the RX unit or the receive direction. -/
theorem tx_step_setReceive (r : RxUnit) (queue : List Byte) (s : State) :
    agentStep .tx (setReceive r queue s) = onNext (setReceive r queue) (agentStep .tx s) := by
  simp only [agentStep, fetch_tx_setReceive]
  cases hf : fetch .tx s with
  | hold | fault => rfl
  | take i u =>
    obtain rfl := emit_of_fetch_tx hf
    exact execEmit_setReceive r queue u

/-- The RX unit's step does not depend on the TX unit or the bytes handed over. -/
theorem rx_step_setTransmit (x : TxUnit) (sent : List Byte) (s : State) :
    agentStep .rx (setTransmit x sent s) = onNext (setTransmit x sent) (agentStep .rx s) := by
  simp only [agentStep, fetch_rx_setTransmit]
  cases hf : fetch .rx s with
  | hold | fault => rfl
  | take i u => exact exec_setTransmit x sent u (rxRow_of_fetch_rx hf)

/-- The two units' steps commute: each has the other's result whichever goes first. -/
theorem rx_tx_steps_commute {s t u : State} (hr : agentStep .rx s = .next t) (ht : agentStep .tx t = .next u) :
    ∃ v, agentStep .tx s = .next v ∧ agentStep .rx v = .next u := by
  obtain ⟨r, queue, rfl⟩ := rx_step_frame hr
  rw [tx_step_setReceive] at ht
  obtain ⟨v, hv, rfl⟩ := onNext_eq_next ht
  obtain ⟨x, sent, rfl⟩ := tx_step_frame hv
  refine ⟨_, hv, ?_⟩
  rw [rx_step_setTransmit, hr, onNext, setTransmit_setReceive]

/-- Settles O47: each unit writes its own half of the state, and its step does not read the other's. -/
theorem unitsShareNoState : Obligations.UnitsShareNoState := by
  refine ⟨fun s t h => ?_, fun s t h => ?_, fun s t h => ?_, fun s t u => rx_tx_steps_commute⟩
  · obtain ⟨r, queue, rfl⟩ := rx_step_frame h
    exact ⟨rfl, rfl, rfl⟩
  · obtain ⟨x, sent, rfl⟩ := tx_step_frame h
    exact ⟨rfl, rfl⟩
  · obtain rfl := Host.Outcome.next.inj h
    exact ⟨lineStep_rx s, lineStep_tx s⟩

end Sys2Proof.Scope

/-! PROOFS. The state and its invariants (spec/10_state.md): the statements `StateAfterReset`, `StatusCodes`,
`ResetMeetsTheInvariants`, `StepKeepsTheInvariants`, `LineIsFirstInFirstOut`, `ResultOutputs` and `TxOutputs`, with what
they rest on. -/
namespace Sys2Proof.StateRules
open Sys2Proof.Machine Sys2Proof.Laws Sys2Proof.Scope

/-! ## Fixed values -/

/-- Settles O33: `State.reset` is `State.resetWith` of the reference parameter, and both hold the units of R45. -/
theorem stateAfterReset : Obligations.StateAfterReset := by
  intro s h
  obtain ⟨m, rfl⟩ : ∃ m, s = State.resetWith m := h.elim (fun e => ⟨_, e⟩) id
  and_intros <;> rfl

/-- Settles O52: the codes are those of the tables. -/
theorem statusCodes : Obligations.StatusCodes := by
  unfold Obligations.StatusCodes
  decide

/-! ## The invariants after reset -/

theorem rxInv_reset (m : Nat) : RxInv m .reset where
  rxbCanonical := .nil
  rxbWithin := nofun
  rxbListed := nofun
  outCanonical := .nil
  outWithin := nofun
  outListed := nofun
  countRange := Nat.zero_le m
  lenRange := Nat.zero_le _
  decIdxRange := Nat.le_refl 0
  outLenRange := Nat.le_refl 0
  idleClear := fun _ => ⟨rfl, rfl, rfl, rfl, rfl, rfl, rfl⟩
  scanningRange := nofun
  accumulatingRange := nofun
  fresh := nofun
  decodingRange := nofun
  doneOk := nofun
  statusDone := by decide
  declaredOnlyOk := fun _ => rfl

theorem txInv_reset (m : Nat) : TxInv m .reset where
  txbCanonical := .nil
  txbWithin := nofun
  txbListed := nofun
  idxRange := Nat.le_refl 0
  lenRange := Nat.zero_le m
  sendingFrame := nofun
  idleSent := fun _ => rfl

theorem inv_resetWith {m : Nat} (hl : 4 ≤ m) (hg : m ≤ 65537) : Inv (State.resetWith m) :=
  ⟨hl, hg, rxInv_reset m, txInv_reset m⟩

/-- Settles O43: the reference parameter lies in the range, and both units after reset meet their invariants. -/
theorem resetMeetsTheInvariants : Obligations.ResetMeetsTheInvariants :=
  ⟨inv_resetWith (by decide) (by decide), fun _ => inv_resetWith⟩

/-! ## Each move of the RX unit keeps its invariants -/

section RxMoves
variable {m : Nat} {r : RxUnit}

theorem status_none_of_not_done (h : RxInv m r) (hs : r.state ≠ .done) : r.status = .none :=
  Decidable.byContradiction fun e => hs (h.statusDone.mp e)

theorem declaredLength_of_not_done (h : RxInv m r) (hs : r.state ≠ .done) : r.declaredLength = 0#16 :=
  h.declaredOnlyOk (by rw [status_none_of_not_done h hs]; decide)

/-- A stored byte that is no end marker leaves the body without one (R161). -/
theorem noEndMarker_write {b : Byte} (hn : NoEndMarker r) (hb : b ≠ Config.endMarker) (n : Nat) :
    NoEndMarker { r with rxb := Memory.write r.rxb r.len b, len := r.len + 1, count := n } := by
  intro i hi
  rw [read_write]
  split
  · exact fun e => hb (Option.some.inj e)
  · next hne => exact hn i (Nat.lt_of_le_of_ne (Nat.le_of_lt_succ hi) hne)

/-- SCAN_START (R152). -/
theorem rxInv_scanStart (h : RxInv m r) :
    RxInv m { r with count := 0, len := 0, decIdx := 0, outLen := 0, escPending := false, status := .none,
                     declaredLength := 0#16, state := .scanningForStart } :=
  { h with
    rxbListed := nofun
    outListed := nofun
    countRange := Nat.zero_le m
    lenRange := Nat.zero_le _
    decIdxRange := Nat.le_refl 0
    outLenRange := Nat.le_refl 0
    idleClear := nofun
    scanningRange := fun _ => ⟨Nat.zero_le _, rfl⟩
    accumulatingRange := nofun
    fresh := fun _ => ⟨rfl, rfl, rfl⟩
    decodingRange := nofun
    doneOk := nofun
    statusDone := by simp
    declaredOnlyOk := fun _ => rfl }

/-- HUNT.START (R155). -/
theorem rxInv_huntStart (h : RxInv m r) (hs : r.state = .scanningForStart) :
    RxInv m { r with count := 0, state := .accumulatingUntilEnd } :=
  have hl : r.len = 0 := (h.scanningRange hs).2
  { h with
    countRange := Nat.zero_le m
    idleClear := nofun
    scanningRange := nofun
    accumulatingRange := fun _ => ⟨hl, Nat.zero_le _, fun i hi => absurd (hl ▸ hi) (Nat.not_lt_zero i)⟩
    fresh := fun _ => h.fresh (.inl hs)
    decodingRange := nofun
    doneOk := nofun
    statusDone := by simp [status_none_of_not_done h (by simp [hs])] }

/-- HUNT.SKIP (R154). -/
theorem rxInv_huntSkip (h : RxInv m r) (hs : r.state = .scanningForStart) (hc : r.count + 1 < m) :
    RxInv m { r with count := r.count + 1 } :=
  { h with
    countRange := Nat.le_of_lt hc
    idleClear := by simp [hs]
    scanningRange := fun _ => ⟨Nat.le_sub_one_of_lt hc, (h.scanningRange hs).2⟩
    accumulatingRange := by simp [hs]
    decodingRange := by simp [hs] }

/-- ACC.END (R157). -/
theorem rxInv_accEnd (h : RxInv m r) (hm : 1 ≤ m) (hs : r.state = .accumulatingUntilEnd) :
    RxInv m { r with count := r.count + 1, state := .decoding } := by
  obtain ⟨hl, hc, hn⟩ := h.accumulatingRange hs
  obtain ⟨-, -, he⟩ := h.fresh (.inr hs)
  exact { h with
    countRange := by show r.count + 1 ≤ m; omega
    idleClear := nofun
    scanningRange := nofun
    accumulatingRange := nofun
    fresh := nofun
    decodingRange := fun _ => ⟨by rw [hl], hn, by simp [he]⟩
    doneOk := nofun
    statusDone := by simp [status_none_of_not_done h (by simp [hs])] }

/-- ACC.DATA (R158). -/
theorem rxInv_accData (h : RxInv m r) {b : Byte} (hs : r.state = .accumulatingUntilEnd) (hb : b ≠ Config.endMarker)
    (hc : r.count + 1 < m) :
    RxInv m { r with rxb := Memory.write r.rxb r.len b, len := r.len + 1, count := r.count + 1 } := by
  obtain ⟨hl, -, hn⟩ := h.accumulatingRange hs
  have hlen : r.len < m - 1 := by omega
  exact { h with
    rxbCanonical := write_wf _ _ h.rxbCanonical
    rxbWithin := write_within b h.rxbWithin hlen
    rxbListed := write_listed b h.rxbListed
    countRange := Nat.le_of_lt hc
    lenRange := hlen
    decIdxRange := Nat.le_succ_of_le h.decIdxRange
    idleClear := by simp [hs]
    scanningRange := by simp [hs]
    accumulatingRange := fun _ => ⟨congrArg (· + 1) hl, Nat.le_sub_one_of_lt hc, noEndMarker_write hn hb _⟩
    decodingRange := by simp [hs]
    doneOk := by simp [hs] }

/-- Raising an error from a working state, with whatever count of consumed bytes (R216). -/
theorem rxInv_raise (h : RxInv m r) {n : Nat} {st : RxStatus} (hs : r.state ≠ .done) (hn : n ≤ m)
    (hst : st ≠ .none) (hok : st ≠ .ok) : RxInv m { r with count := n, status := st, state := .done } :=
  have hd : r.declaredLength = 0#16 := declaredLength_of_not_done h hs
  { h with
    countRange := hn
    idleClear := nofun
    scanningRange := nofun
    accumulatingRange := nofun
    fresh := nofun
    decodingRange := nofun
    doneOk := fun _ e => absurd e hok
    statusDone := by simp [hst]
    declaredOnlyOk := fun _ => hd }

/-- The DEC rows that emit (R164, R166). -/
theorem rxInv_decEmit (h : RxInv m r) (b : Byte) (hs : r.state = .decoding) (hi : r.decIdx < r.len)
    (ho : r.outLen < m - 1) :
    RxInv m { r with out := Memory.write r.out r.outLen b, outLen := r.outLen + 1, escPending := false,
                     decIdx := r.decIdx + 1 } := by
  obtain ⟨hc, hn, -⟩ := h.decodingRange hs
  exact { h with
    outCanonical := write_wf _ _ h.outCanonical
    outWithin := write_within b h.outWithin ho
    outListed := write_listed b h.outListed
    decIdxRange := hi
    outLenRange := Nat.succ_le_succ h.outLenRange
    idleClear := by simp [hs]
    fresh := by simp [hs]
    decodingRange := fun _ => ⟨hc, hn, nofun⟩
    doneOk := by simp [hs] }

/-- DEC.PREFIX (R165): the flag stands for the escape byte just read. -/
theorem rxInv_decPrefix (h : RxInv m r) (hs : r.state = .decoding) (hi : r.decIdx < r.len)
    (hb : Memory.read r.rxb r.decIdx = some Config.specialByte) :
    RxInv m { r with escPending := true, decIdx := r.decIdx + 1 } := by
  obtain ⟨hc, hn, -⟩ := h.decodingRange hs
  exact { h with
    decIdxRange := hi
    outLenRange := Nat.le_succ_of_le h.outLenRange
    idleClear := by simp [hs]
    fresh := by simp [hs]
    decodingRange := fun _ => ⟨hc, hn, fun _ => ⟨Nat.le_add_left 1 _, hb⟩⟩
    doneOk := by simp [hs] }

/-- FIN.OK (R169). -/
theorem rxInv_finOk (h : RxInv m r) {hi lo : Byte} (hl : r.decIdx = r.len) (he : r.escPending = false)
    (ho : Config.lenWidth ≤ r.outLen) (h0 : Memory.read r.out 0 = some hi) (h1 : Memory.read r.out 1 = some lo) :
    RxInv m { r with declaredLength := Codec.be16 hi lo, status := .ok, state := .done } :=
  { h with
    idleClear := nofun
    scanningRange := nofun
    accumulatingRange := nofun
    fresh := nofun
    decodingRange := nofun
    doneOk := fun _ _ => ⟨hl, he, ho, hi, lo, h0, h1, rfl⟩
    statusDone := by simp
    declaredOnlyOk := fun e => absurd rfl e }

end RxMoves

/-! ## A step of the RX unit keeps its invariants -/

section RxStep
variable {s t : State}

theorem huntMove_keeps_rxInv {b : Byte} (h : RxInv s.maxFrameLen s.rx) (hs : s.rx.state = .scanningForStart)
    (hm : HuntMove b s t) : RxInv s.maxFrameLen t.rx := by
  rcases hm with ⟨-, rfl⟩ | ⟨-, hc, rfl⟩ | ⟨-, hc, rfl⟩
  · exact rxInv_huntStart h hs
  · exact rxInv_huntSkip h hs hc
  · exact rxInv_raise h (by simp [hs]) (Nat.le_of_eq hc) (by decide) (by decide)

theorem accMove_keeps_rxInv {b : Byte} (h : RxInv s.maxFrameLen s.rx) (hl : 1 ≤ s.maxFrameLen)
    (hs : s.rx.state = .accumulatingUntilEnd) (hm : AccMove b s t) : RxInv s.maxFrameLen t.rx := by
  rcases hm with ⟨-, rfl⟩ | ⟨hb, hc, -, rfl⟩ | ⟨-, hc, rfl⟩
  · exact rxInv_accEnd h hl hs
  · exact rxInv_accData h hs hb hc
  · exact rxInv_raise h (by simp [hs]) (Nat.le_of_eq hc) (by decide) (by decide)

theorem decEmit_keeps_rxInv {b : Byte} (h : RxInv s.maxFrameLen s.rx) (hs : s.rx.state = .decoding)
    (hi : s.rx.decIdx < s.rx.len) (he : decEmit .scanner b s = .next t) : RxInv s.maxFrameLen t.rx := by
  obtain ⟨ho, rfl⟩ := decEmit_scanner_eq_next.mp he
  exact rxInv_decEmit h b hs hi ho

theorem decMove_keeps_rxInv {b : Byte} (h : RxInv s.maxFrameLen s.rx) (hs : s.rx.state = .decoding)
    (hi : s.rx.decIdx < s.rx.len) (hb : memRead .rxb s.rx.decIdx s = some b) (hm : DecMove b s t) :
    RxInv s.maxFrameLen t.rx := by
  rcases hm with ⟨-, -, he⟩ | ⟨-, rfl, rfl⟩ | ⟨-, -, he⟩ | ⟨-, -, rfl⟩
  · exact decEmit_keeps_rxInv h hs hi he
  · obtain ⟨-, -, hr⟩ := memRead_eq_some.mp hb
    exact rxInv_decPrefix h hs hi hr
  · exact decEmit_keeps_rxInv h hs hi he
  · exact rxInv_raise h (by simp [hs]) h.countRange (by decide) (by decide)

theorem finMove_keeps_rxInv (h : RxInv s.maxFrameLen s.rx) (hs : s.rx.state = .decoding)
    (hl : s.rx.decIdx = s.rx.len) (hm : FinMove s t) : RxInv s.maxFrameLen t.rx := by
  have hd : s.rx.state ≠ .done := by simp [hs]
  rcases hm with ⟨-, rfl⟩ | ⟨he, ho, hi, lo, h0, h1, rfl⟩ | ⟨-, -, rfl⟩
  · exact rxInv_raise h hd h.countRange (by decide) (by decide)
  · obtain ⟨-, -, r0⟩ := memRead_eq_some.mp h0
    obtain ⟨-, -, r1⟩ := memRead_eq_some.mp h1
    exact rxInv_finOk h hl he ho r0 r1
  · exact rxInv_raise h hd h.countRange (by decide) (by decide)

theorem rx_step_keeps_rxInv (h : Inv s) (hstep : agentStep .rx s = .next t) : RxInv s.maxFrameLen t.rx := by
  have hr := h.rxInv
  rcases rx_step_cases hstep with rfl | ⟨hs, b, rest, -, hm⟩ | ⟨hs, b, rest, -, hm⟩ | ⟨hs, hi, b, hb, hm⟩ | ⟨hs, hl, hm⟩
  · exact hr
  · exact huntMove_keeps_rxInv (s := leaveOnLine rest s) hr hs hm
  · exact accMove_keeps_rxInv (s := leaveOnLine rest s) hr (Nat.le_trans (by decide) h.paramLeast) hs hm
  · exact decMove_keeps_rxInv hr hs hi hb hm
  · exact finMove_keeps_rxInv hr hs hl hm

end RxStep

/-! ## What a built frame holds (R71, R103, R134) -/

section Frame
open Sys2Proof.Codec

/-- The encoding of one byte holds no marker (R103). -/
theorem enc1_ne_marker {b w : Byte} (h : w ∈ enc1 b) : w ≠ Config.startMarker ∧ w ≠ Config.endMarker := by
  by_cases hb : b < 0xFD#8
  · rw [enc1_literal hb, List.mem_singleton] at h
    exact h ▸ (ne_of_literal hb).2
  · have hr : 0xFD#8 ≤ b := by bv_omega
    rw [enc1_reserved hr] at h
    rcases special_cases hr with rfl | rfl | rfl <;> revert w <;> decide

theorem encodeBytes_ne_marker {p : List Byte} {w : Byte} (h : w ∈ encodeBytes p) :
    w ≠ Config.startMarker ∧ w ≠ Config.endMarker := by
  induction p with
  | nil => cases h
  | cons b p ih =>
    rw [encodeBytes_cons, List.mem_append] at h
    exact h.elim enc1_ne_marker ih

theorem length_le_encodeBytes (p : List Byte) : p.length ≤ (encodeBytes p).length := by
  induction p with
  | nil => exact Nat.le_refl 0
  | cons b p ih =>
    have h1 : 1 ≤ (enc1 b).length := by unfold enc1; split <;> simp
    simp only [encodeBytes_cons, List.length_append, List.length_cons]
    omega

/-- A frame is the stuffed length field and payload between the two markers (R71). -/
theorem frameBytes_eq (p : List Byte) :
    frameBytes p = Config.startMarker ::
      (encodeBytes (lenBytes (p.length + Config.lenWidth) ++ p) ++ [Config.endMarker]) := by
  simp [frameBytes, encodeBytes_append]

/-- What R40 asks of the frame being sent: its markers, its least length, and no marker inside. -/
theorem frameBytes_shape (p : List Byte) :
    (frameBytes p)[0]? = some Config.startMarker ∧
    (frameBytes p)[(frameBytes p).length - 1]? = some Config.endMarker ∧ 4 ≤ (frameBytes p).length ∧
    ∀ i, 1 ≤ i → i < (frameBytes p).length - 1 →
      (frameBytes p)[i]? ≠ some Config.startMarker ∧ (frameBytes p)[i]? ≠ some Config.endMarker := by
  have hlen := length_le_encodeBytes (lenBytes (p.length + Config.lenWidth) ++ p)
  have hmark := @encodeBytes_ne_marker (lenBytes (p.length + Config.lenWidth) ++ p)
  rw [frameBytes_eq]
  generalize encodeBytes (lenBytes (p.length + Config.lenWidth) ++ p) = body at *
  simp only [List.length_append, lenBytes, List.length_cons, List.length_nil] at *
  refine ⟨rfl, by simp, by omega, fun i h1 hi => ?_⟩
  obtain ⟨k, rfl⟩ := Nat.exists_eq_add_of_le' h1
  have hk : k < body.length := by omega
  rw [List.getElem?_cons_succ, List.getElem?_append_left hk, List.getElem?_eq_getElem hk]
  obtain ⟨hs, he⟩ := hmark (List.getElem_mem hk)
  exact ⟨fun e => hs (Option.some.inj e), fun e => he (Option.some.inj e)⟩

theorem eq_frameBytes_of_buildFrame {m : Nat} {p r : List Byte} (h : buildFrame m p = .ok r) : r = frameBytes p := by
  unfold buildFrame at h
  split at h
  · cases h
  · split at h
    · cases h
    · exact (Result.ok.inj h).symm

end Frame

/-! ## A step of the TX unit, and BUILD, keep the TX unit's invariants -/

section TxMoves
variable {m : Nat} {x : TxUnit}

/-- EMIT (R139). -/
theorem txInv_emit (h : TxInv m x) (hs : x.state = .sending) :
    TxInv m { x with idx := x.idx + 1, state := if x.idx + 1 = x.len then .idle else .sending } := by
  obtain ⟨hi, hframe⟩ := h.sendingFrame hs
  exact { h with
    idxRange := hi
    sendingFrame := fun e =>
      have hne : x.idx + 1 ≠ x.len := by simpa using e
      ⟨Nat.lt_of_le_of_ne hi hne, hframe⟩
    idleSent := fun e => by simpa using e }

/-- BUILD rejects (R138, R217). -/
theorem txInv_rejected (h : TxInv m x) :
    TxInv m { x with status := .payloadTooLarge, len := 0, idx := 0, state := .idle } :=
  { h with
    txbListed := nofun
    idxRange := Nat.le_refl 0
    lenRange := Nat.zero_le m
    sendingFrame := nofun
    idleSent := fun _ => rfl }

theorem read_writeBlock_zero (b : Memory) {r : List Byte} {i : Nat} (h : i < r.length) :
    Memory.read (Memory.writeBlock b 0 r) i = r[i]? := by
  rw [read_writeBlock, if_pos (by omega), Nat.sub_zero]

/-- BUILD puts a whole frame into TXB (R138). -/
theorem txInv_built (h : TxInv m x) {p : List Byte} (hl : (Codec.frameBytes p).length ≤ m) :
    TxInv m { state := .sending, txb := Memory.writeBlock x.txb 0 (Codec.frameBytes p),
              len := (Codec.frameBytes p).length, idx := 0, status := .ok } := by
  obtain ⟨hfirst, hlast, h4, hin⟩ := frameBytes_shape p
  have hread {i : Nat} (hi : i < (Codec.frameBytes p).length) := read_writeBlock_zero x.txb hi
  have hpos : 0 < (Codec.frameBytes p).length := by omega
  exact {
    txbCanonical := writeBlock_wf 0 _ h.txbCanonical
    txbWithin := writeBlock_within h.txbWithin (by omega)
    txbListed := fun i hi => by rw [hread hi, List.getElem?_eq_getElem hi]; rfl
    idxRange := Nat.zero_le _
    lenRange := hl
    sendingFrame := fun _ => ⟨hpos, rfl, (hread hpos).trans hfirst,
      (hread (Nat.sub_one_lt_of_lt hpos)).trans hlast, h4,
      fun i h1 hi => by rw [hread (Nat.lt_of_lt_of_le hi (Nat.sub_le _ _))]; exact hin i h1 hi⟩
    idleSent := nofun }

end TxMoves

section TxStep
variable {s t : State}

theorem tx_step_keeps_txInv (h : Inv s) (hstep : agentStep .tx s = .next t) : TxInv s.maxFrameLen t.tx := by
  rcases tx_step_cases hstep with rfl | ⟨hs, -, b, -, rfl⟩
  · exact h.txInv
  · exact txInv_emit h.txInv hs

theorem build_keeps_txInv {p : List Byte} (h : TxInv s.maxFrameLen s.tx) (hb : buildFrameIntoTxb p s = .next t) :
    TxInv s.maxFrameLen t.tx := by
  rcases buildFrameIntoTxb_cases hb with ⟨-, rfl⟩ | ⟨r, hr, hl, rfl⟩
  · exact txInv_rejected h
  · obtain rfl := eq_frameBytes_of_buildFrame hr
    exact txInv_built h hl

/-- BUILD writes the TX unit only (R138). -/
theorem buildFrameIntoTxb_frame {p : List Byte} (hb : buildFrameIntoTxb p s = .next t) :
    ∃ x, t = { s with tx := x } := by
  rcases buildFrameIntoTxb_cases hb with ⟨-, rfl⟩ | ⟨r, -, -, rfl⟩ <;> exact ⟨_, rfl⟩

end TxStep

/-! ## A step of the machine -/

section Step
variable {s t : State}

/-- The invariants ask nothing of what is not in the units. -/
theorem inv_of_units (h : Inv s) (hm : t.maxFrameLen = s.maxFrameLen) (hr : RxInv s.maxFrameLen t.rx)
    (hx : TxInv s.maxFrameLen t.tx) : Inv t ∧ t.maxFrameLen = s.maxFrameLen :=
  ⟨⟨hm ▸ h.paramLeast, hm ▸ h.paramGreatest, hm ▸ hr, hm ▸ hx⟩, hm⟩

theorem host_step_keeps_inv (h : Inv s) (hstep : agentStep .host s = .next t) :
    Inv t ∧ t.maxFrameLen = s.maxFrameLen := by
  rcases host_step_cases hstep with rfl | ⟨rest, -, rfl⟩ | ⟨rest, -, -, rfl⟩ | ⟨p, rest, -, -, hb⟩
  · exact ⟨h, rfl⟩
  · exact inv_of_units h rfl (rxInv_reset _) (txInv_reset _)
  · exact inv_of_units h rfl (rxInv_scanStart h.rxInv) h.txInv
  · have hx := build_keeps_txInv (s := { s with host := rest }) h.txInv hb
    obtain ⟨x, rfl⟩ := buildFrameIntoTxb_frame hb
    exact inv_of_units h rfl h.rxInv hx

theorem agentStep_keeps_inv {a : Agent} (h : Inv s) (hstep : agentStep a s = .next t) :
    Inv t ∧ t.maxFrameLen = s.maxFrameLen := by
  cases a with
  | rx =>
    have hr := rx_step_keeps_rxInv h hstep
    obtain ⟨r, queue, rfl⟩ := rx_step_frame hstep
    exact inv_of_units h rfl hr h.txInv
  | tx =>
    have hx := tx_step_keeps_txInv h hstep
    obtain ⟨x, sent, rfl⟩ := tx_step_frame hstep
    exact inv_of_units h rfl h.rxInv hx
  | line =>
    obtain rfl := Host.Outcome.next.inj hstep
    exact inv_of_units h (lineStep_maxFrameLen s) (lineStep_rx s ▸ h.rxInv) (lineStep_tx s ▸ h.txInv)
  | host => exact host_step_keeps_inv h hstep
  | encoder | decoder | framer =>
    obtain ⟨c, rfl⟩ := call_step_frame (by simp) hstep
    exact inv_of_units h rfl h.rxInv h.txInv

theorem nextTurn_keeps_inv (h : Inv s) : Inv (nextTurn s).2 :=
  (inv_of_units h (nextTurn_maxFrameLen s) (nextTurn_rx s ▸ h.rxInv) (nextTurn_tx s ▸ h.txInv)).1

/-- Settles O44: taking the turn leaves both units alone, and the step of each agent keeps the invariants. -/
theorem stepKeepsTheInvariants : Obligations.StepKeepsTheInvariants := by
  intro s t h hstep
  obtain ⟨hinv, hparam⟩ := agentStep_keeps_inv (nextTurn_keeps_inv h) hstep
  exact ⟨hinv, by rw [hparam, nextTurn_maxFrameLen]⟩

end Step

/-! ## The receive sequence (R43, R59) -/

section Queue
variable {s t : State}

theorem rx_step_queue (h : agentStep .rx s = .next t) :
    t.line.rxQueue = s.line.rxQueue ∨ ∃ b, s.line.rxQueue = b :: t.line.rxQueue := by
  rcases rx_step_cases h with rfl | ⟨-, b, rest, hq, hm⟩ | ⟨-, b, rest, hq, hm⟩ | ⟨-, -, b, -, hm⟩ | ⟨-, -, hm⟩
  · exact .inl rfl
  · obtain ⟨r, rfl⟩ := huntMove_frame hm
    exact .inr ⟨b, hq⟩
  · obtain ⟨r, rfl⟩ := accMove_frame hm
    exact .inr ⟨b, hq⟩
  · obtain ⟨r, rfl⟩ := decMove_frame hm
    exact .inl rfl
  · obtain ⟨r, rfl⟩ := finMove_frame hm
    exact .inl rfl

theorem host_step_line (h : agentStep .host s = .next t) : t.line = s.line := by
  rcases host_step_cases h with rfl | ⟨rest, -, rfl⟩ | ⟨rest, -, -, rfl⟩ | ⟨p, rest, -, -, hb⟩
  · rfl
  · rfl
  · rfl
  · obtain ⟨x, rfl⟩ := buildFrameIntoTxb_frame hb
    rfl

theorem lineStep_queue (s : State) :
    (lineStep s).line.rxQueue = s.line.rxQueue ∨ ∃ b rest, s.line.script = .deliver b :: rest ∧
      (lineStep s).line.script = rest ∧ (lineStep s).line.rxQueue = s.line.rxQueue ++ [b] := by
  unfold lineStep
  split
  · exact .inl rfl
  · next b rest hscript => exact .inr ⟨b, rest, hscript, rfl, rfl⟩
  · exact .inl rfl

/-- Settles O48: the line appends, the RX unit takes the front byte, and the other agents leave the sequence alone. -/
theorem lineIsFirstInFirstOut : Obligations.LineIsFirstInFirstOut := by
  intro s t h
  rw [← nextTurn_line s]
  unfold step at h
  generalize (nextTurn s).1 = a, (nextTurn s).2 = u at h
  cases a with
  | rx => exact (rx_step_queue h).imp_right fun hq => .inr ⟨rfl, hq⟩
  | tx =>
    obtain ⟨x, sent, rfl⟩ := tx_step_frame h
    exact .inl rfl
  | line =>
    obtain rfl := Host.Outcome.next.inj h
    exact (lineStep_queue u).imp_right fun hq => .inl ⟨rfl, hq⟩
  | host => exact .inl (by rw [host_step_line h])
  | encoder | decoder | framer =>
    obtain ⟨c, rfl⟩ := call_step_frame (by simp) h
    exact .inl rfl

end Queue

/-! ## The outputs (R34, R41) -/

section Outputs
variable {s : State}

/-- A read of OUT below `out_len` is not out of bounds (R33). -/
theorem memRead_out_of_lt (h : RxInv s.maxFrameLen s.rx) {i : Nat} (hi : i < s.rx.outLen) :
    memRead .out i s = Memory.read s.rx.out i :=
  have hle : s.rx.outLen ≤ s.maxFrameLen - 1 := h.outLenRange.trans (h.decIdxRange.trans h.lenRange)
  if_pos ⟨hi, Nat.lt_of_lt_of_le hi hle⟩

/-- A block of readable bytes is readable. -/
theorem exists_memReadBlock {sp : Space} {i n : Nat}
    (h : ∀ k, k < n → (memRead sp (i + k) s).isSome = true) : ∃ bs, memReadBlock sp i n s = some bs := by
  induction n generalizing i with
  | zero => exact ⟨[], rfl⟩
  | succ n ih =>
    obtain ⟨b, hb⟩ := Option.isSome_iff_exists.mp (h 0 (Nat.succ_pos n))
    obtain ⟨bs, hbs⟩ := ih (i := i + 1) fun k hk => by
      rw [Nat.add_assoc, Nat.add_comm 1]; exact h (k + 1) (Nat.succ_lt_succ hk)
    rw [Nat.add_zero] at hb
    exact ⟨b :: bs, by rw [memReadBlock, hb, hbs]⟩

/-- After success the payload is what OUT holds after the length field (R34). -/
theorem resPayload_of_ok (h : RxInv s.maxFrameLen s.rx) (hok : s.rx.status = .ok) :
    ∃ p, resPayload s = some p ∧ p.length = s.rx.outLen - 2 ∧
      ∀ k, k < p.length → p[k]? = Memory.read s.rx.out (k + 2) := by
  have hread {k : Nat} (hk : k < s.rx.outLen - 2) : memRead .out (2 + k) s = Memory.read s.rx.out (k + 2) := by
    rw [Nat.add_comm, memRead_out_of_lt h (by omega)]
  obtain ⟨p, hp⟩ := exists_memReadBlock (sp := .out) (i := 2) (n := s.rx.outLen - 2) fun k hk => by
    rw [hread hk]; exact h.outListed _ (by omega)
  obtain ⟨hl, hk⟩ := memReadBlock_eq_some.mp hp
  refine ⟨p, (if_pos hok).trans hp, hl, fun k hlt => ?_⟩
  rw [← hk k (hl ▸ hlt), hread (hl ▸ hlt)]

/-- Settles O50: a result stands exactly in `Done` (R31), and `out_len` is at least 2 after success (R33). -/
theorem resultOutputs : Obligations.ResultOutputs := by
  intro s hinv
  have h := hinv.rxInv
  refine ⟨fun hok => ?_, fun hne => ⟨if_neg hne, by simp [resLenMatch, hne]⟩, ?_, by simp [rxReady],
    by simp [scanReady]⟩
  · have hdone : s.rx.state = .done := h.statusDone.mp (by simp [hok])
    obtain ⟨-, -, h2, -⟩ := h.doneOk hdone hok
    obtain ⟨p, hp, hl, hk⟩ := resPayload_of_ok h hok
    have hsum : 2 + p.length = s.rx.outLen := by rw [hl]; exact Nat.add_sub_of_le h2
    exact ⟨p, hp, hl, hk, by simp [resLenMatch, hok, hsum]⟩
  · simp [resValid, h.statusDone]

/-- While `Sending` the byte at `tx_idx` is listed, within the length and the capacity (R40). -/
theorem memRead_txb_of_sending (h : TxInv s.maxFrameLen s.tx) (hs : s.tx.state = .sending) :
    ∃ b, memRead .txb s.tx.idx s = some b := by
  obtain ⟨hi, -⟩ := h.sendingFrame hs
  obtain ⟨b, hb⟩ := Option.isSome_iff_exists.mp (h.txbListed _ hi)
  exact ⟨b, memRead_eq_some.mpr ⟨hi, Nat.lt_of_lt_of_le hi h.lenRange, hb⟩⟩

theorem execEmit_of_memRead {b : Byte} (hs : s.tx.state = .sending) (hr : s.line.ready = true)
    (hb : memRead .txb s.tx.idx s = some b) :
    execEmit s = .next
      { s with line := { s.line with txSent := s.line.txSent ++ [b] },
               tx := { s.tx with idx := s.tx.idx + 1,
                                 state := if s.tx.idx + 1 = s.tx.len then .idle else .sending } } := by
  simp only [execEmit, hs, hr, hb, and_self, if_true]

/-- Settles O51: while `Sending` the read of `TXB[tx_idx]` answers, and EMIT makes the same read. -/
theorem txOutputs : Obligations.TxOutputs := by
  intro s hinv
  refine ⟨by simp [txReady], by simp [txValid], fun hidle => by simp [txByte, hidle], fun hs => ?_⟩
  obtain ⟨b, hb⟩ := memRead_txb_of_sending hinv.txInv hs
  obtain ⟨-, -, hread⟩ := memRead_eq_some.mp hb
  exact ⟨b, (if_pos hs).trans hb, hread, fun hr => ⟨_, execEmit_of_memRead hs hr hb, rfl⟩⟩

end Outputs

end Sys2Proof.StateRules

/-! PROOFS. Memory access (spec/20_memory.md, R53 and D23): the statement `StepNeverStops`, with what it rests on. -/
namespace Sys2Proof.MemoryRules
open Sys2Proof.Machine Sys2Proof.Laws Sys2Proof.Scope Sys2Proof.StateRules

/-! ## An outcome that is a next state -/

/-- The outcome is a next state: neither a fault nor a refusal. -/
def Answers (o : Host.Outcome State Fault Refusal) : Prop :=
  ∃ t, o = .next t

theorem answers_next (t : State) : Answers (.next t) := ⟨t, rfl⟩

/-- A row holds when its guard fails, so it answers when its action does under the guard (R16). -/
theorem answers_guarded {c : Prop} {_ : Decidable c} {o : Host.Outcome State Fault Refusal} {s : State}
    (h : c → Answers o) : Answers (if c then o else hold s) := by
  split
  · next hc => exact h hc
  · exact answers_next s

/-! ## The accesses of the rows lie inside the buffers (R53) -/

section Accesses
variable {s : State}

/-- ACC writes `RXB[rx_len]` only when `rx_len = rx_count` is at most `MAX_FRAME_LEN - 2`. -/
theorem accData_write_within (h : Inv s) (hs : s.rx.state = .accumulatingUntilEnd)
    (hc : s.rx.count + 1 < s.maxFrameLen) : s.rx.len < capacity .rxb s := by
  obtain ⟨hlen, -⟩ := h.rxInv.accumulatingRange hs
  rw [hlen]
  exact Nat.lt_sub_of_add_lt hc

/-- DEC reads a byte of the stored body, which is listed and inside the capacity. -/
theorem memRead_rxb_of_lt (h : Inv s) (hi : s.rx.decIdx < s.rx.len) : ∃ b, memRead .rxb s.rx.decIdx s = some b := by
  obtain ⟨b, hb⟩ := Option.isSome_iff_exists.mp (h.rxInv.rxbListed _ hi)
  exact ⟨b, memRead_eq_some.mpr ⟨hi, Nat.lt_of_lt_of_le hi h.rxInv.lenRange, hb⟩⟩

/-- DEC writes `OUT[out_len]` only when `out_len` is at most `dec_idx`, which is below `rx_len`. -/
theorem decEmit_write_within (h : Inv s) (hi : s.rx.decIdx < s.rx.len) : s.rx.outLen < s.maxFrameLen - 1 :=
  calc s.rx.outLen ≤ s.rx.decIdx := h.rxInv.outLenRange
    _ < s.rx.len := hi
    _ ≤ s.maxFrameLen - 1 := h.rxInv.lenRange

/-- FIN reads below `out_len`, where OUT is listed. -/
theorem exists_memRead_out (h : Inv s) {i : Nat} (hi : i < s.rx.outLen) : ∃ b, memRead .out i s = some b := by
  rw [memRead_out_of_lt h.rxInv hi]
  exact Option.isSome_iff_exists.mp (h.rxInv.outListed i hi)

/-- BUILD writes only a frame that has passed the size check (R134). -/
theorem length_le_of_buildFrame {m : Nat} {p r : List Byte} (h : Codec.buildFrame m p = .ok r) : r.length ≤ m := by
  unfold Codec.buildFrame at h
  split at h
  · cases h
  · split at h
    · cases h
    · next hle =>
      obtain rfl := Codec.Result.ok.inj h
      exact Nat.le_of_not_lt hle

end Accesses

/-! ## Every row answers -/

section Rows
variable {s : State}

theorem execAccData_answers (h : Inv s) (b : Byte) : Answers (execAccData b s) := by
  refine answers_guarded fun ⟨hs, _, hc⟩ => ?_
  rw [memWrite_of_lt b (accData_write_within h hs hc)]
  exact answers_next _

/-- Emitting in a state where DEC is enabled: OUT has room for the RX unit, and a call of `decode` has no buffer. -/
theorem decEmit_answers (h : Inv s) {u : Reader} {esc : Bool} (b : Byte) (he : decEnabled u esc s = true) :
    Answers (decEmit u b s) := by
  cases u with
  | scanner =>
    obtain ⟨-, hi, -⟩ : s.rx.state = .decoding ∧ s.rx.decIdx < s.rx.len ∧ s.rx.escPending = esc := by
      simpa [decEnabled] using he
    exact ⟨_, decEmit_scanner_eq_next.mpr ⟨decEmit_write_within h hi, rfl⟩⟩
  | call => exact answers_next _

theorem decLiteral_answers (h : Inv s) (u : Reader) (b : Byte) : Answers (decLiteral u b s) :=
  answers_guarded (decEmit_answers h b)

theorem decPair_answers (h : Inv s) (u : Reader) (d : Byte) : Answers (decPair u d s) :=
  answers_guarded (decEmit_answers h (Config.specialByte + d))

theorem execFinOk_answers (h : Inv s) : Answers (execFinOk s) := by
  refine answers_guarded fun ⟨_, ho⟩ => ?_
  obtain ⟨hi, h0⟩ := exists_memRead_out h (i := 0) (Nat.lt_of_lt_of_le (by decide) ho)
  obtain ⟨lo, h1⟩ := exists_memRead_out h (i := 1) ho
  rw [h0, h1]
  exact answers_next _

theorem buildFrameIntoTxb_answers (p : List Byte) (s : State) : Answers (buildFrameIntoTxb p s) := by
  unfold buildFrameIntoTxb
  split
  · exact answers_next _
  · next r hr =>
    have hfits : 0 + r.length ≤ capacity .txb s := by rw [Nat.zero_add]; exact length_le_of_buildFrame hr
    rw [memWriteBlock_of_le hfits]
    exact answers_next _

theorem execEmit_answers (h : Inv s) : Answers (execEmit s) := by
  refine answers_guarded fun ⟨hs, _⟩ => ?_
  obtain ⟨b, hb⟩ := memRead_txb_of_sending h.txInv hs
  rw [hb]
  exact answers_next _

/-- Whatever row is run in a state that meets the invariants, its guard leaves only accesses inside the buffers. -/
theorem exec_answers (h : Inv s) (i : Instr) : Answers (exec i s) := by
  cases i with
  | huntStart | huntSkip | huntLimit | accEnd | accLimit | encLit | scanStart | finMalformed | finShort =>
    exact answers_guarded fun _ => answers_next _
  | encEsc0 | encEsc1 | encEsc2 | frame | reset => exact answers_next _
  | accData b => exact execAccData_answers h b
  | decLit u b => exact answers_guarded fun _ => decLiteral_answers h u b
  | decPassFE u | decPassFF u => exact decLiteral_answers h u _
  | decPrefix u | decEscRsvd u | decEscTrunc u =>
    refine answers_guarded fun _ => ?_
    cases u <;> exact answers_next _
  | decEsc0 u | decEsc1 u | decEsc2 u => exact decPair_answers h u _
  | txSubmit p | build p => exact answers_guarded fun _ => buildFrameIntoTxb_answers p s
  | emit => exact execEmit_answers h
  | finOk => exact execFinOk_answers h

end Rows

/-! ## What an agent finds is safe -/

/-- An agent's find is nothing, or a row to run in a state that meets the invariants; it is no fault. -/
def SafeFind (f : Fetched) : Prop :=
  f = .hold ∨ ∃ i u, f = .take i u ∧ Inv u

section Finds
variable {s : State}

theorem safeFind_hold : SafeFind .hold := .inl rfl

/-- The input taken for a row is of the line, the host or a call, never of a unit. -/
theorem safeFind_take {i : Instr} {u : State} (h : Inv s) (hm : u.maxFrameLen = s.maxFrameLen) (hr : u.rx = s.rx)
    (hx : u.tx = s.tx) : SafeFind (.take i u) :=
  .inr ⟨i, u, rfl, (inv_of_units h hm (hr ▸ h.rxInv) (hx ▸ h.txInv)).1⟩

theorem fetchLineByte_safe (h : Inv s) : SafeFind (fetchLineByte s) := by
  unfold fetchLineByte
  split
  · split
    · exact safeFind_take h rfl rfl rfl
    · exact safeFind_hold
  · exact safeFind_hold

/-- The one find that reads a buffer: the byte of the stored body at `dec_idx` is there (R163). -/
theorem fetchBodyByte_safe (h : Inv s) : SafeFind (fetchBodyByte s) := by
  unfold fetchBodyByte
  split
  · next hi =>
    obtain ⟨b, hb⟩ := memRead_rxb_of_lt h hi
    simp only [hb, decode_stuffed]
    exact safeFind_take h rfl rfl rfl
  · split
    · exact safeFind_take h rfl rfl rfl
    · exact safeFind_hold

theorem fetchRx_safe (h : Inv s) : SafeFind (fetchRx s) := by
  unfold fetchRx
  cases s.rx.state with
  | idle | done => exact safeFind_hold
  | scanningForStart | accumulatingUntilEnd => exact fetchLineByte_safe h
  | decoding => exact fetchBodyByte_safe h

theorem fetchTx_safe (h : Inv s) : SafeFind (fetchTx s) := by
  unfold fetchTx
  split
  · exact safeFind_take h rfl rfl rfl
  · exact safeFind_hold

theorem fetchHost_safe (h : Inv s) : SafeFind (fetchHost s) := by
  unfold fetchHost
  split
  · exact safeFind_hold
  · split
    · exact safeFind_take h rfl rfl rfl
    · exact safeFind_hold

theorem fetchEncoder_safe (h : Inv s) : SafeFind (fetchEncoder s) := by
  unfold fetchEncoder
  split
  · exact safeFind_hold
  · exact safeFind_take h rfl rfl rfl

theorem fetchDecoder_safe (h : Inv s) : SafeFind (fetchDecoder s) := by
  unfold fetchDecoder
  split
  · simp only [decode_stuffed]
    exact safeFind_take h rfl rfl rfl
  · split
    · exact safeFind_take h rfl rfl rfl
    · exact safeFind_hold
  · exact safeFind_hold

theorem fetchFramer_safe (h : Inv s) : SafeFind (fetchFramer s) := by
  unfold fetchFramer
  split
  · exact safeFind_hold
  · exact safeFind_take h rfl rfl rfl

theorem fetch_safe (h : Inv s) (a : Agent) : SafeFind (fetch a s) := by
  cases a with
  | rx => exact fetchRx_safe h
  | tx => exact fetchTx_safe h
  | line => exact safeFind_hold
  | host => exact fetchHost_safe h
  | encoder => exact fetchEncoder_safe h
  | decoder => exact fetchDecoder_safe h
  | framer => exact fetchFramer_safe h

end Finds

/-! ## No step stops -/

/-- The line answers by itself; any other agent holds, or runs a row in a state that meets the invariants. -/
theorem agentStep_answers {s : State} (h : Inv s) (a : Agent) : Answers (agentStep a s) := by
  by_cases ha : a = .line
  · subst ha
    exact answers_next _
  · rcases fetch_safe h a with hf | ⟨i, u, hf, hu⟩
    · exact ⟨s, agentStep_of_hold ha hf⟩
    · rw [agentStep_of_take hf]
      exact exec_answers hu i

/-- Settles O45: taking the turn keeps the invariants, and under them the step of each agent answers a next state. -/
theorem stepNeverStops : Obligations.StepNeverStops :=
  fun s h => agentStep_answers (nextTurn_keeps_inv h) (nextTurn s).1

end Sys2Proof.MemoryRules

/-! PROOFS. The wire encoding (spec/30_encoding.md): the statements `EncodingIsUnique`, `TableWordsDecode`,
`ByteValueClasses`, `ReadingContexts`, `MaskSetsCoverTheirClasses`, `FrameSize` and `FrameAnswersBuildFrame`, with what
they rest on. -/
namespace Sys2Proof.EncodingRules
open Sys2Proof.Machine Sys2Proof.Laws Sys2Proof.StateRules Sys2Proof.MemoryRules

/-! ## The codec, one symbol at a time (R73, R79) -/

section Codec
open Sys2Proof.Codec

/-- Induction over a wire sequence along its greedy split into symbols (R75): a literal byte, an escape pair, or a last
escape byte with no operand. -/
theorem symbolInduction {motive : List Byte → Prop} (nil : motive []) (unpaired : motive [0xFD#8])
    (literal : ∀ b s, b ≠ 0xFD#8 → motive s → motive (b :: s))
    (pair : ∀ d s, motive s → motive (0xFD#8 :: d :: s)) : ∀ s, motive s
  | [] => nil
  | [b] => if h : b = 0xFD#8 then h ▸ unpaired else literal b [] h nil
  | b :: d :: s =>
    if h : b = 0xFD#8 then h ▸ pair d s (symbolInduction nil unpaired literal pair s)
    else literal b (d :: s) h (symbolInduction nil unpaired literal pair (d :: s))

/-- `prepend` answers a sequence only for a sequence, with the bytes put before it. -/
theorem prepend_eq_ok {bs t : List Byte} {r : Result} : r.prepend bs = .ok t ↔ ∃ u, r = .ok u ∧ bs ++ u = t := by
  cases r <;> simp

/-- The escape byte plus a legal operand is a reserved byte, whose encoding is the pair itself (R74). -/
theorem enc1_special_add {d : Byte} (h : ¬3#8 ≤ d) : enc1 (0xFD#8 + d) = [0xFD#8, d] := by
  rcases legal_cases h with rfl | rfl | rfl <;> rfl

/-- One encoded byte in front of a wire sequence is decoded to that byte (R73). -/
theorem decodeBytes_enc1_append (b : Byte) (s : List Byte) :
    decodeBytes (enc1 b ++ s) = (decodeBytes s).prepend [b] := by
  by_cases hb : b < 0xFD#8
  · rw [enc1_literal hb]
    exact decodeBytes_literal (ne_of_literal hb).1 s
  · have hr : 0xFD#8 ≤ b := by bv_omega
    have hd : ¬3#8 ≤ b - 0xFD#8 := by bv_omega
    rw [enc1_reserved hr]
    calc decodeBytes (0xFD#8 :: (b - 0xFD#8) :: s)
        = (decodeBytes s).prepend [0xFD#8 + (b - 0xFD#8)] := decodeBytes_legal hd s
      _ = (decodeBytes s).prepend [b] := by rw [add_sub_cancel]

/-- `decode` undoes `encode` (R79, R109). -/
theorem decodeBytes_encodeBytes (x : List Byte) : decodeBytes (encodeBytes x) = .ok x := by
  induction x with
  | nil => rfl
  | cons b x ih => rw [encodeBytes_cons, decodeBytes_enc1_append, ih]; rfl

theorem encodeBytes_injective : Function.Injective encodeBytes := fun x y h =>
  Result.ok.inj (by rw [← decodeBytes_encodeBytes x, h, decodeBytes_encodeBytes])

/-- Away from the marker values `encode` undoes `decode`: a literal byte stands for itself, and a legal pair for the
reserved byte that it encodes (R79). -/
theorem encodeBytes_of_decodeBytes {s t : List Byte} (h : decodeBytes s = .ok t) (hs : 0xFE#8 ∉ s)
    (he : 0xFF#8 ∉ s) : encodeBytes t = s := by
  induction s using symbolInduction generalizing t with
  | nil => cases h; rfl
  | unpaired => cases h
  | literal b s hb ih =>
    rw [decodeBytes_literal hb, prepend_eq_ok] at h
    obtain ⟨u, hu, rfl⟩ := h
    rw [List.mem_cons, not_or] at hs he
    have hlit : b < 0xFD#8 := literal_of_ne hb (Ne.symm hs.1) (Ne.symm he.1)
    rw [List.singleton_append, encodeBytes_cons, enc1_literal hlit, ih hu hs.2 he.2]
    rfl
  | pair d s ih =>
    by_cases hd : 3#8 ≤ d
    · rw [decodeBytes_reserved hd] at h
      cases h
    · rw [decodeBytes_legal hd, prepend_eq_ok] at h
      obtain ⟨u, hu, rfl⟩ := h
      simp only [List.mem_cons, not_or] at hs he
      rw [List.singleton_append, encodeBytes_cons, enc1_special_add hd, ih hu hs.2.2 he.2.2]
      rfl

/-- Settles O15: `decode` undoes `encode`, so `encode` is injective; its outputs hold no marker (R103), and on a sequence
without one `encode` undoes `decode`. -/
theorem encodingIsUnique : Obligations.EncodingIsUnique := by
  refine ⟨encodeBytes_injective, decodeBytes_encodeBytes, rfl, rfl, fun s t h => ⟨?_, ?_⟩⟩
  · rintro rfl
    exact ⟨fun hs => (encodeBytes_ne_marker hs).1 rfl, fun he => (encodeBytes_ne_marker he).2 rfl⟩
  · rintro ⟨hs, he⟩
    exact encodeBytes_of_decodeBytes h hs he

/-! ## The size of a frame (R72) -/

/-- One encoded byte is one wire byte, and one more in the reserved range (R73). -/
theorem length_enc1 (b : Byte) : (enc1 b).length = 1 + reservedCount [b] := by
  unfold enc1
  split <;> simp [reservedCount, *]

/-- `encode` adds one wire byte for each byte in the reserved range (R102). -/
theorem length_encodeBytes (p : List Byte) : (encodeBytes p).length = p.length + reservedCount p := by
  induction p with
  | nil => rfl
  | cons b p ih =>
    have hc : reservedCount (b :: p) = reservedCount [b] + reservedCount p := List.countP_append (l₁ := [b])
    rw [encodeBytes_cons, List.length_append, length_enc1, ih, List.length_cons, hc]
    omega

/-- The two markers, the stuffed length field of two raw bytes, and the stuffed payload (R72). -/
theorem length_frameBytes (p : List Byte) :
    (frameBytes p).length = p.length + reservedCount p + reservedCount (lenBytes (p.length + 2)) + 4 := by
  have hl : (lenBytes (p.length + 2)).length = 2 := rfl
  simp only [frameBytes, List.length_append, List.length_singleton, length_encodeBytes, hl, Config.lenWidth]
  omega

/-- Settles O16: the size is the sum over the frame's four fields, and a built frame has passed the size check (R133). -/
theorem frameSize : Obligations.FrameSize := by
  refine ⟨length_frameBytes, fun p => ?_, by decide, fun _ _ _ => length_le_of_buildFrame⟩
  rw [length_frameBytes]
  exact Nat.le_add_left 4 _

end Codec

/-! ## Byte classes and masks (R70, R80) -/

/-- The class of a byte by its value (R70). -/
theorem classOf_iff (b : Byte) :
    (Codec.classOf b = .lit ↔ b.toNat ≤ 252) ∧ (Codec.classOf b = .esc ↔ b.toNat = 253) ∧
    (Codec.classOf b = .sta ↔ b.toNat = 254) ∧ (Codec.classOf b = .fin ↔ b.toNat = 255) := by
  unfold Codec.classOf
  split
  · next h => subst h; decide
  · split
    · next h => subst h; decide
    · split
      · next h => subst h; decide
      · next h1 h2 h3 =>
        have hlit : b.toNat < 253 := literal_of_ne h1 h2 h3
        simp only [true_iff, false_iff, reduceCtorEq]
        omega

/-- The hardware test: bits 7 to 2 are all ones and bits 1..0 are not `00` (R70). -/
theorem reserved_iff_bits (b : Byte) :
    253 ≤ b.toNat ↔ b.extractLsb' 2 6 = 0b111111#6 ∧ b.extractLsb' 0 2 ≠ 0b00#2 := by
  have hb : b.toNat < 256 := b.isLt
  simp only [ne_eq, BitVec.toNat_eq, BitVec.extractLsb'_toNat, BitVec.toNat_ofNat, Nat.shiftRight_eq_div_pow]
  omega

/-- Settles O4: the classes go by the byte's value, and the hardware test reads its quotient and remainder by 4. -/
theorem byteValueClasses : Obligations.ByteValueClasses := by
  intro b
  obtain ⟨hlit, hesc, hsta, hfin⟩ := classOf_iff b
  exact ⟨hlit, hesc, hsta, hfin, reserved_iff_bits b⟩

/-- The mask of all bits from bit `k` up. -/
def highMask (k : Nat) : Byte := BitVec.allOnes 8 <<< k

/-- Under the mask of the bits from `k` up, a multiple of `2 ^ k` matches the `2 ^ k` bytes from it on. -/
theorem and_highMask_eq_iff {k : Nat} {b m : Byte} (hm : 2 ^ k ∣ m.toNat) :
    b &&& highMask k = m ↔ m.toNat ≤ b.toNat ∧ b.toNat < m.toNat + 2 ^ k := by
  have hpos : 0 < 2 ^ k := Nat.two_pow_pos k
  have hle : b.toNat / 2 ^ k * 2 ^ k < 256 := Nat.lt_of_le_of_lt (Nat.div_mul_le_self _ _) b.isLt
  obtain ⟨q, hq⟩ := hm
  calc b &&& highMask k = m
      ↔ b.toNat / 2 ^ k * 2 ^ k = m.toNat := by
        rw [highMask, ← BitVec.shiftLeft_ushiftRight, BitVec.toNat_eq, BitVec.toNat_shiftLeft,
          BitVec.toNat_ushiftRight, Nat.shiftRight_eq_div_pow, Nat.shiftLeft_eq, Nat.mod_eq_of_lt hle]
    _ ↔ b.toNat / 2 ^ k = q := by rw [hq, Nat.mul_comm (2 ^ k), Nat.mul_left_inj hpos.ne']
    _ ↔ m.toNat ≤ b.toNat ∧ b.toNat < m.toNat + 2 ^ k := by
        rw [Nat.div_eq_iff hpos, hq, Nat.mul_comm q]
        omega

/-- Exactly one pair of the set matches each byte below `n`, and none another byte. -/
def CoversBelow (set : List (Byte × Byte)) (n : Nat) : Prop :=
  ∀ b : Byte, maskHits set b = if b.toNat < n then 1 else 0

theorem maskHits_append (set set' : List (Byte × Byte)) (b : Byte) :
    maskHits (set ++ set') b = maskHits set b + maskHits set' b :=
  List.countP_append

theorem maskHits_highMask {k : Nat} {m : Byte} (hm : 2 ^ k ∣ m.toNat) (b : Byte) :
    maskHits [(highMask k, m)] b = if m.toNat ≤ b.toNat ∧ b.toNat < m.toNat + 2 ^ k then 1 else 0 := by
  simp [maskHits, List.countP_cons, and_highMask_eq_iff hm]

/-- A pair whose interval begins where the set's bytes end makes the set cover that interval too. -/
theorem CoversBelow.append {set : List (Byte × Byte)} {m : Byte} (h : CoversBelow set m.toNat) (k : Nat)
    (hm : 2 ^ k ∣ m.toNat) : CoversBelow (set ++ [(highMask k, m)]) (m.toNat + 2 ^ k) := by
  intro b
  rw [maskHits_append, h b, maskHits_highMask hm]
  split_ifs <;> omega

/-- The six pairs that the three sets share are adjacent intervals from 0 to 252. -/
theorem coversBelow_sharedMasks : CoversBelow (literalMasks.take 6) 252 :=
  have h0 : CoversBelow [] (0x00#8).toNat := fun _ => rfl
  have h128 := h0.append 7 (by decide)
  have h192 := h128.append (m := 0x80#8) 6 (by decide)
  have h224 := h192.append (m := 0xC0#8) 5 (by decide)
  have h240 := h224.append (m := 0xE0#8) 4 (by decide)
  have h248 := h240.append (m := 0xF0#8) 3 (by decide)
  h248.append (m := 0xF8#8) 2 (by decide)

theorem coversBelow_literalMasks : CoversBelow literalMasks 253 :=
  coversBelow_sharedMasks.append (m := 0xFC#8) 0 (by decide)

/-- With the pair of `0xFC` and `0xFD` the shared pairs cover every byte but the two markers. -/
theorem coversBelow_unmarkedMasks : CoversBelow (literalMasks.take 6 ++ [(0xFE#8, 0xFC#8)]) 254 :=
  coversBelow_sharedMasks.append (m := 0xFC#8) 1 (by decide)

/-- The pair of one marker matches that marker only, so it makes the covered bytes all but the other marker. -/
theorem maskHits_unmarkedMasks_append {n : Byte} (hn : 254 ≤ n.toNat) (b : Byte) :
    maskHits (literalMasks.take 6 ++ [(0xFE#8, 0xFC#8)] ++ [(0xFF#8, n)]) b =
      if b.toNat < 254 ∨ b.toNat = n.toNat then 1 else 0 := by
  have hone : maskHits [(0xFF#8, n)] b = if n.toNat ≤ b.toNat ∧ b.toNat < n.toNat + 2 ^ 0 then 1 else 0 :=
    maskHits_highMask (k := 0) (one_dvd _) b
  rw [maskHits_append, coversBelow_unmarkedMasks b, hone]
  split_ifs <;> omega

/-- Settles O6: the literals are the bytes below 253; each of the other sets is the bytes below 254 and one marker. -/
theorem maskSetsCoverTheirClasses : Obligations.MaskSetsCoverTheirClasses := by
  intro b
  have hb : b.toNat < 256 := b.isLt
  have hnotStart : maskHits notStartMasks b = if b.toNat < 254 ∨ b.toNat = 255 then 1 else 0 :=
    maskHits_unmarkedMasks_append (n := 0xFF#8) (by decide) b
  have hnotEnd : maskHits notEndMasks b = if b.toNat < 254 ∨ b.toNat = 254 then 1 else 0 :=
    maskHits_unmarkedMasks_append (n := 0xFE#8) (by decide) b
  rw [coversBelow_literalMasks b, hnotStart, hnotEnd]
  simp only [BitVec.toNat_eq, BitVec.toNat_ofNat]
  refine ⟨?_, ?_, ?_⟩ <;> split_ifs <;> omega

/-! ## The reading contexts (R76) -/

/-- In context H any byte but the start marker is junk, or the last byte of the limit (R154, R156). -/
theorem huntRow_of_ne {b : Byte} (h : b ≠ Config.startMarker) :
    huntRow .below b = some (.huntSkip b) ∧ huntRow .last b = some (.huntLimit b) :=
  ⟨if_neg h, if_neg h⟩

/-- In context A any byte but the end marker is data, or the last byte of the limit (R158, R159). -/
theorem accRow_of_ne {b : Byte} (h : b ≠ Config.endMarker) :
    accRow .below b = some (.accData b) ∧ accRow .last b = some (.accLimit b) :=
  ⟨if_neg h, if_neg h⟩

theorem decode_hunt (r : Room) (b : Byte) (rest : List Byte) :
    decode (.hunt r) (b :: rest) = .ofRow (huntRow r b) rest := rfl

theorem decode_acc (r : Room) (b : Byte) (rest : List Byte) :
    decode (.acc r) (b :: rest) = .ofRow (accRow r b) rest := rfl

theorem decode_symStart (u : Reader) (b : Byte) (rest : List Byte) :
    decode (.symStart u) (b :: rest) = .instr (symStartRow u b) rest := rfl

theorem decode_operand (u : Reader) (d : Byte) (rest : List Byte) :
    decode (.operand u) (d :: rest) = .instr (operandRow u d) rest := rfl

/-- Settles O5: in each context the byte's row is that of its class; a byte that is fixed computes. -/
theorem readingContexts : Obligations.ReadingContexts := by
  intro b rest
  refine ⟨?hunt, ?huntRest, ?acc, ?accRest, fun u =>
    ⟨fun h => ?literal, ?esc, ?sta, ?fin, ?esc0, ?esc1, ?esc2, fun h => ?reserved, rfl⟩⟩
  case huntRest =>
    intro h
    obtain ⟨hbelow, hlast⟩ := huntRow_of_ne h
    simp [decode_hunt, hbelow, hlast, Decoded.ofRow]
  case accRest =>
    intro h
    obtain ⟨hbelow, hlast⟩ := accRow_of_ne h
    simp [decode_acc, hbelow, hlast, Decoded.ofRow]
  case literal =>
    have hb : b < 0xFD#8 := by bv_omega
    rw [decode_symStart, symStartRow_literal u hb]
  case reserved =>
    have hb : 3#8 ≤ b := by bv_omega
    rw [decode_operand, operandRow_reserved u hb]
  all_goals
    intros
    subst b
    rfl

/-! ## Fixed words, and FRAME (R71, R80) -/

/-- Settles O1: each word is decoded in its context. -/
theorem tableWordsDecode : Obligations.TableWordsDecode := by
  unfold Obligations.TableWordsDecode
  decide

/-- Settles O36: the arm of FRAME is `execFrame`, which writes the caller's answer only (R130). -/
theorem frameAnswersBuildFrame : Obligations.FrameAnswersBuildFrame :=
  fun _ _ => rfl

end Sys2Proof.EncodingRules

/-! PROOFS. The escape codec (spec/40_escape_codec.md): the statements `EncodeOneByte`, `EncodeLengthLaw`,
`EncodedBytesHoldNoMarker`, `ParserSteps`, `DecodeIsTheParserRun`, `DecodeLengthLaw`, `DecodeOutcomes`,
`DecodeInvertsEncode`, `StandaloneDecodeRows`, `StandaloneEncodeRows` and `StandaloneCallsComputeTheFunctions`, with
what they rest on. -/
namespace Sys2Proof.CodecRules
open Sys2Proof.Machine Sys2Proof.Laws Sys2Proof.Scope Sys2Proof.StateRules Sys2Proof.EncodingRules

section Functions
open Sys2Proof.Codec

/-! ## Encode (R100 to R103) -/

/-- Settles O7: below 253 a byte is a literal; from 253 on it is reserved, and its operand is what is left above 253. -/
theorem encodeOneByte : Obligations.EncodeOneByte := by
  intro b
  refine ⟨fun h => enc1_literal (by bv_omega), fun h => ?_⟩
  have hoperand : b - 0xFD#8 = BitVec.ofNat 8 (b.toNat - 253) := by bv_omega
  rw [enc1_reserved (by bv_omega), hoperand]

theorem reservedCount_eq_zero_iff (p : List Byte) : reservedCount p = 0 ↔ ∀ b ∈ p, b.toNat < 253 := by
  simp [reservedCount, List.countP_eq_zero, BitVec.lt_def]

theorem reservedCount_eq_length_iff (p : List Byte) : reservedCount p = p.length ↔ ∀ b ∈ p, 253 ≤ b.toNat := by
  simp [reservedCount, List.countP_eq_length, BitVec.le_def]

/-- Settles O8: the length is that of `p` and one more for each reserved byte, of which there are none to `p.length`. -/
theorem encodeLengthLaw : Obligations.EncodeLengthLaw := by
  intro p
  have hle : reservedCount p ≤ p.length := List.countP_le_length
  rw [← reservedCount_eq_zero_iff, ← reservedCount_eq_length_iff, length_encodeBytes]
  omega

/-- Each `0xFD` of an encoding begins the pair of one raw byte, between the encodings of the bytes before it and of
those after it (R103). -/
theorem encodeBytes_split_at_special {p : List Byte} {i : Nat} (h : (encodeBytes p)[i]? = some 0xFD#8) :
    ∃ q d r, i = (encodeBytes q).length ∧ d ≤ 2#8 ∧
      encodeBytes p = encodeBytes q ++ 0xFD#8 :: d :: encodeBytes r := by
  induction p generalizing i with
  | nil => simp at h
  | cons b p ih =>
    rw [encodeBytes_cons] at h ⊢
    by_cases hi : i < (enc1 b).length
    · rw [List.getElem?_append_left hi] at h
      by_cases hb : b < 0xFD#8
      · rw [enc1_literal hb] at h
        exact absurd (List.mem_singleton.mp (List.mem_of_getElem? h)) (ne_of_literal hb).1.symm
      · have hr : 0xFD#8 ≤ b := by bv_omega
        have hd : b - 0xFD#8 ≤ 2#8 := by bv_omega
        rw [enc1_reserved hr] at h hi ⊢
        match i, h with
        | 0, _ => exact ⟨[], _, p, rfl, hd, rfl⟩
        | 1, h => exact absurd (Option.some.inj h) (by bv_omega)
    · rw [List.getElem?_append_right (by omega)] at h
      obtain ⟨q, d, r, hq, hd, hp⟩ := ih h
      refine ⟨b :: q, d, r, ?_, hd, ?_⟩
      · rw [encodeBytes_cons, List.length_append]
        omega
      · rw [encodeBytes_cons, hp, List.append_assoc]

/-- The `0xFD` that begins a pair is not the last byte (R103). -/
theorem getLast?_encodeBytes_ne_special (p : List Byte) : (encodeBytes p).getLast? ≠ some 0xFD#8 := by
  intro h
  rw [List.getLast?_eq_getElem?] at h
  obtain ⟨q, d, r, hq, -, hp⟩ := encodeBytes_split_at_special h
  rw [hp, List.length_append, List.length_cons, List.length_cons] at hq
  omega

/-- Settles O9: an `0xFD` begins a pair, so its operand follows it, and what stands before it is the last byte of
another encoding. -/
theorem encodedBytesHoldNoMarker : Obligations.EncodedBytesHoldNoMarker := by
  intro p
  refine ⟨fun h => (encodeBytes_ne_marker h).1 rfl, fun h => (encodeBytes_ne_marker h).2 rfl, fun i h => ?_,
    getLast?_encodeBytes_ne_special p⟩
  obtain ⟨q, d, r, rfl, hd, hp⟩ := encodeBytes_split_at_special h
  rw [hp]
  refine ⟨⟨d, by simp, hd⟩, fun hq => ?_⟩
  rw [List.getElem?_append_left (by omega), ← List.getLast?_eq_getElem?]
  exact getLast?_encodeBytes_ne_special q

/-! ## The escaped-byte parser (R104, R106) -/

/-- Settles O10: the four cases of PARSE1; the flag's two ends compute. -/
theorem parserSteps : Obligations.ParserSteps := by
  intro b
  refine ⟨parse1_literal, fun h => h ▸ parse1_prefix, fun h => ?_, fun h => parse1_reserved (by bv_omega), rfl, rfl⟩
  have hsum : 0xFD#8 + b = BitVec.ofNat 8 (253 + b.toNat) := by bv_omega
  rw [parse1_legal (by bv_omega), hsum]

theorem parseAll_of_next {esc esc' : Bool} {b : Byte} {emitted : Option Byte}
    (h : parse1 esc b = .next esc' emitted) (s : List Byte) :
    parseAll esc (b :: s) = (parseAll esc' s).prepend emitted.toList := by
  rw [parseAll, h]

theorem parseAll_of_error {esc : Bool} {b : Byte} {k : ErrorKind} (h : parse1 esc b = .error k) (s : List Byte) :
    parseAll esc (b :: s) = .error k := by
  rw [parseAll, h]

theorem prepend_nil (r : Result) : r.prepend [] = r := by
  cases r <;> rfl

/-- The parser takes one step for a literal and two for a pair, and gives what `decode` gives of the symbol (R106). -/
theorem decodeBytes_eq_parseAll (s : List Byte) : decodeBytes s = parseAll false s := by
  induction s using symbolInduction with
  | nil => rfl
  | unpaired => rfl
  | literal b s hb ih =>
    rw [decodeBytes_literal hb, parseAll_of_next (parse1_literal hb), ih]
    rfl
  | pair d s ih =>
    rw [parseAll_of_next parse1_prefix, Option.toList_none, prepend_nil]
    by_cases hd : 3#8 ≤ d
    · rw [decodeBytes_reserved hd, parseAll_of_error (parse1_reserved hd)]
    · rw [decodeBytes_legal hd, parseAll_of_next (parse1_legal (legal_iff.mpr hd)), ih]
      rfl

/-- Settles O11: by induction along the symbols of the input. -/
theorem decodeIsTheParserRun : Obligations.DecodeIsTheParserRun :=
  decodeBytes_eq_parseAll

/-! ## The symbols of a wire sequence (R75) -/

theorem symbols_literal {b : Byte} (h : b ≠ 0xFD#8) (s : List Byte) : symbols (b :: s) = .literal b :: symbols s := by
  cases s <;> simp [symbols, h]

theorem symbols_pair (d : Byte) (s : List Byte) : symbols (0xFD#8 :: d :: s) = .pair d :: symbols s := by
  simp [symbols]

theorem pairCount_literal {b : Byte} (h : b ≠ 0xFD#8) (s : List Byte) : pairCount (b :: s) = pairCount s := by
  simp [pairCount, symbols_literal h, Symbol.isPair]

theorem pairCount_pair (d : Byte) (s : List Byte) : pairCount (0xFD#8 :: d :: s) = pairCount s + 1 := by
  simp [pairCount, symbols_pair, Symbol.isPair, List.countP_cons]

/-! ## The length of a decoded sequence (R107) -/

/-- A literal gives one byte of one, a pair one byte of two; so there is a decoded byte for each pair (R107). -/
theorem length_of_decodeBytes {s t : List Byte} (h : decodeBytes s = .ok t) :
    t.length + pairCount s = s.length ∧ pairCount s ≤ t.length := by
  induction s using symbolInduction generalizing t with
  | nil => cases h; decide
  | unpaired => cases h
  | literal b s hb ih =>
    rw [decodeBytes_literal hb, prepend_eq_ok] at h
    obtain ⟨u, hu, rfl⟩ := h
    obtain ⟨hlen, hle⟩ := ih hu
    rw [pairCount_literal hb, List.singleton_append, List.length_cons, List.length_cons]
    omega
  | pair d s ih =>
    by_cases hd : 3#8 ≤ d
    · rw [decodeBytes_reserved hd] at h
      cases h
    · rw [decodeBytes_legal hd, prepend_eq_ok] at h
      obtain ⟨u, hu, rfl⟩ := h
      obtain ⟨hlen, hle⟩ := ih hu
      rw [pairCount_pair, List.singleton_append, List.length_cons, List.length_cons, List.length_cons]
      omega

/-- Settles O12: both bounds follow from the length and from a pair giving a byte. -/
theorem decodeLengthLaw : Obligations.DecodeLengthLaw := by
  intro s t h
  obtain ⟨hlen, hle⟩ := length_of_decodeBytes h
  omega

/-! ## The outcomes of decode (R108) -/

/-- Some escape pair has an operand of 3 or more. -/
def HasReservedPair (syms : List Symbol) : Prop :=
  ∃ d, .pair d ∈ syms ∧ 3 ≤ d.toNat

/-- The condition that R108 puts on the symbols for a result of `decode`; no other error is a result of it. -/
def OutcomeCondition (syms : List Symbol) : Result → Prop
  | .error .invalidEscapeOperand => HasReservedPair syms
  | .error .malformedEscape => ¬HasReservedPair syms ∧ syms.getLast? = some .unpaired
  | .error _ => False
  | .ok _ => ¬HasReservedPair syms ∧ syms.getLast? ≠ some .unpaired

/-- A symbol that `decode` reads without an error. -/
def Harmless (x : Symbol) : Prop :=
  x ≠ .unpaired ∧ ∀ d, x = .pair d → d.toNat < 3

theorem hasReservedPair_cons {x : Symbol} (hx : Harmless x) (syms : List Symbol) :
    HasReservedPair (x :: syms) ↔ HasReservedPair syms := by
  constructor
  · rintro ⟨d, hmem, hd⟩
    rcases List.mem_cons.mp hmem with hxd | hmem
    · exact absurd (hx.2 d hxd.symm) (Nat.not_lt.mpr hd)
    · exact ⟨d, hmem, hd⟩
  · rintro ⟨d, hmem, hd⟩
    exact ⟨d, List.mem_cons_of_mem x hmem, hd⟩

theorem getLast?_cons_eq_unpaired {x : Symbol} (hx : Harmless x) (syms : List Symbol) :
    (x :: syms).getLast? = some .unpaired ↔ syms.getLast? = some .unpaired := by
  cases syms with
  | nil => simp [hx.1]
  | cons y syms => rw [List.getLast?_cons_cons]

/-- Bytes put before a result stand for a harmless symbol before the others: the condition stays. -/
theorem outcomeCondition_cons {x : Symbol} (hx : Harmless x) (bs : List Byte) {syms : List Symbol} {r : Result}
    (h : OutcomeCondition syms r) : OutcomeCondition (x :: syms) (r.prepend bs) := by
  have hpair := hasReservedPair_cons hx syms
  have hlast := getLast?_cons_eq_unpaired hx syms
  cases r with
  | ok t => exact (and_congr hpair.not hlast.not).mpr h
  | error k =>
    cases k with
    | invalidEscapeOperand => exact hpair.mpr h
    | malformedEscape => exact (and_congr hpair.not hlast).mpr h
    | startMarkerNotFound | endMarkerNotFound | payloadTooLarge | frameTooShort | lengthMismatch | peerReportedError =>
      exact h

/-- `decode` meets the condition of its result (R108). -/
theorem outcomeCondition_decodeBytes (s : List Byte) : OutcomeCondition (symbols s) (decodeBytes s) := by
  induction s using symbolInduction with
  | nil => simp [OutcomeCondition, HasReservedPair, symbols, decodeBytes]
  | unpaired => simp [OutcomeCondition, HasReservedPair, symbols, decodeBytes]
  | literal b s hb ih =>
    rw [symbols_literal hb, decodeBytes_literal hb]
    exact outcomeCondition_cons ⟨by simp, by simp⟩ [b] ih
  | pair d s ih =>
    rw [symbols_pair]
    by_cases hd : 3#8 ≤ d
    · rw [decodeBytes_reserved hd]
      exact ⟨d, List.mem_cons_self, hd⟩
    · rw [decodeBytes_legal hd]
      refine outcomeCondition_cons ⟨by simp, fun d' e => ?_⟩ _ ih
      obtain rfl := Symbol.pair.inj e
      bv_omega

/-- Settles O13: the conditions of the three results exclude each other, so each holds of its own result only. -/
theorem decodeOutcomes : Obligations.DecodeOutcomes := by
  intro s
  have h := outcomeCondition_decodeBytes s
  change (_ ↔ HasReservedPair (symbols s)) ∧ (_ ↔ ¬HasReservedPair (symbols s) ∧ _) ∧
    (_ ↔ ¬HasReservedPair (symbols s) ∧ _)
  cases hr : decodeBytes s with
  | ok t =>
    obtain ⟨hpair, hlast⟩ : ¬HasReservedPair (symbols s) ∧ (symbols s).getLast? ≠ some .unpaired := by rwa [hr] at h
    simp [hpair, hlast]
  | error k =>
    rw [hr] at h
    cases k with
    | invalidEscapeOperand =>
      have hpair : HasReservedPair (symbols s) := h
      simp [hpair]
    | malformedEscape =>
      obtain ⟨hpair, hlast⟩ := h
      simp [hpair, hlast]
    | startMarkerNotFound | endMarkerNotFound | payloadTooLarge | frameTooShort | lengthMismatch | peerReportedError =>
      exact h.elim

/-- Settles O14: byte by byte, `decode` reads an encoded byte back (R109). -/
theorem decodeInvertsEncode : Obligations.DecodeInvertsEncode :=
  decodeBytes_encodeBytes

end Functions

/-! ## The rows of a call of `encode` (R100, R101) -/

/-- Settles O35: each row appends its wire bytes, and a literal is below 253. -/
theorem standaloneEncodeRows : Obligations.StandaloneEncodeRows := by
  intro s b
  refine ⟨fun h => ?_, rfl, rfl, rfl⟩
  have hb : b < Config.specialByte := by bv_omega
  exact if_pos hb

/-- The row of a raw byte appends its encoding to the call's result (R100). -/
theorem exec_encoderRow (b : Byte) (s : State) : exec (encoderRow b) s = .next (encEmit (Codec.enc1 b) s) := by
  by_cases hb : b < 0xFD#8
  · rw [encoderRow_literal hb, enc1_literal hb]
    exact if_pos hb
  · have hr : 0xFD#8 ≤ b := by bv_omega
    rcases special_cases hr with rfl | rfl | rfl <;> rfl

/-! ## The rows of a call of `decode` (R104, R105) -/

section DecodeRows
variable {s : State}

theorem decEnabled_call {esc : Bool} (hn : s.calls.decErr = none) (he : s.calls.decEsc = esc) :
    decEnabled .call esc s = true := by
  simp [decEnabled, hn, he]

/-- A byte read unchanged is appended, and the flag stays as it was. -/
theorem decLiteral_call (hn : s.calls.decErr = none) (he : s.calls.decEsc = false) (b : Byte) :
    decLiteral .call b s = .next { s with calls := { s.calls with decOut := s.calls.decOut ++ [b] } } := by
  rw [decLiteral, if_pos (decEnabled_call hn he), decEmit, ← he]

theorem decPair_call_eq_next (hn : s.calls.decErr = none) (he : s.calls.decEsc = true) (d : Byte) :
    decPair .call d s = .next
      { s with calls := { s.calls with decOut := s.calls.decOut ++ [Config.specialByte + d], decEsc := false } } :=
  if_pos (decEnabled_call hn he)

theorem decPrefix_call (hn : s.calls.decErr = none) (he : s.calls.decEsc = false) :
    exec (.decPrefix .call) s = .next { s with calls := { s.calls with decEsc := true } } :=
  if_pos (decEnabled_call hn he)

theorem decLit_call (hn : s.calls.decErr = none) (he : s.calls.decEsc = false) {b : Byte} (hb : b < 0xFD#8) :
    exec (.decLit .call b) s = .next { s with calls := { s.calls with decOut := s.calls.decOut ++ [b] } } :=
  (if_pos hb).trans (decLiteral_call hn he b)

theorem decEscRsvd_call (hn : s.calls.decErr = none) (he : s.calls.decEsc = true) {d : Byte} (hd : 3#8 ≤ d) :
    exec (.decEscRsvd .call d) s = .next (raiseCall .invalidEscapeOperand s) :=
  if_pos ⟨decEnabled_call hn he, hd⟩

theorem decEscTrunc_call (hn : s.calls.decErr = none) (he : s.calls.decEsc = true) (hi : s.calls.decIn = []) :
    exec (.decEscTrunc .call) s = .next (raiseCall .malformedEscape s) := by
  have hen : truncEnabled .call s = true := by simp [truncEnabled, hn, he, hi]
  exact if_pos hen

end DecodeRows

/-- Settles O34: at a symbol start a byte is appended or `0xFD` sets the flag; in operand position `253 + d` is
appended, or the call ends with the error. -/
theorem standaloneDecodeRows : Obligations.StandaloneDecodeRows := by
  intro s b hn
  refine ⟨fun he => ?symStart, fun he => ?operand⟩
  case symStart =>
    exact ⟨fun h => decLit_call hn he (by bv_omega), decLiteral_call hn he 0xFE#8, decLiteral_call hn he 0xFF#8,
      decPrefix_call hn he⟩
  case operand =>
    exact ⟨decPair_call_eq_next hn he 0#8, decPair_call_eq_next hn he 1#8, decPair_call_eq_next hn he 2#8,
      fun h => decEscRsvd_call hn he (by bv_omega), decEscTrunc_call hn he⟩

/-- The call of `decode` after a parser step (R104, R105). -/
def afterParse (c : Calls) : Codec.ParseStep → Calls
  | .next esc emitted => { c with decEsc := esc, decOut := c.decOut ++ emitted.toList }
  | .error k => { c with decErr := some k, decOut := [] }

/-- At a symbol start the row of a byte applies PARSE1 to it. -/
theorem exec_symStartRow_call {s : State} (hn : s.calls.decErr = none) (he : s.calls.decEsc = false) (b : Byte) :
    exec (symStartRow .call b) s = .next { s with calls := afterParse s.calls (Codec.parse1 false b) } := by
  by_cases hb : b = 0xFD#8
  · subst hb
    have hout : s.calls.decOut ++ [] = s.calls.decOut := List.append_nil _
    rw [parse1_prefix, afterParse, Option.toList_none, hout]
    exact decPrefix_call hn he
  · rw [parse1_literal hb, afterParse, ← he, Option.toList_some]
    by_cases hs : b = 0xFE#8
    · subst hs
      exact decLiteral_call hn he 0xFE#8
    · by_cases hf : b = 0xFF#8
      · subst hf
        exact decLiteral_call hn he 0xFF#8
      · have hlit := literal_of_ne hb hs hf
        rw [symStartRow_literal _ hlit]
        exact decLit_call hn he hlit

/-- In operand position the row of a byte applies PARSE1 to it. -/
theorem exec_operandRow_call {s : State} (hn : s.calls.decErr = none) (he : s.calls.decEsc = true) (d : Byte) :
    exec (operandRow .call d) s = .next { s with calls := afterParse s.calls (Codec.parse1 true d) } := by
  by_cases hd : 3#8 ≤ d
  · rw [operandRow_reserved _ hd, parse1_reserved hd]
    exact decEscRsvd_call hn he hd
  · rcases legal_cases hd with rfl | rfl | rfl <;> exact decPair_call_eq_next hn he _

/-- The row of a byte in context S applies PARSE1 to the call's flag and the byte (R104). -/
theorem exec_stuffedRow_call {s : State} (hn : s.calls.decErr = none) (b : Byte) :
    exec (if s.calls.decEsc then operandRow .call b else symStartRow .call b) s =
      .next { s with calls := afterParse s.calls (Codec.parse1 s.calls.decEsc b) } := by
  cases he : s.calls.decEsc with
  | false => exact exec_symStartRow_call hn he b
  | true => exact exec_operandRow_call hn he b

/-! ## Turns -/

/-- `n` steps, at the state type the machine's own functions are written in. -/
def runSteps (n : Nat) (s : State) : Host.Outcome State Fault Refusal :=
  Host.Core.run core n s

theorem agentRun_eq_runSteps (a : Agent) (n : Nat) (s : State) :
    agentRun a n s = runSteps n { s with turns := List.replicate n a ++ s.turns } := rfl

theorem runSteps_zero (s : State) : runSteps 0 s = .next s := rfl

theorem core_run_succ {M : Host.Core} {n : Nat} {s t : M.State} (h : M.step s = .next t) :
    M.run (n + 1) s = M.run n t := by
  rw [Host.Core.run, h]

theorem runSteps_succ {n : Nat} {s t : State} (h : step s = .next t) : runSteps (n + 1) s = runSteps n t :=
  core_run_succ (M := core) h

/-! ## A whole call of `encode` (R101) -/

/-- One turn of the encoder takes the next raw byte and appends its encoding. -/
theorem step_encoder {s : State} {ts : List Agent} {b : Byte} {rest : List Byte} (ht : s.turns = .encoder :: ts)
    (hi : s.calls.encIn = b :: rest) :
    step s = .next { s with turns := ts, calls := { s.calls with
      encIn := rest, encOut := s.calls.encOut ++ Codec.enc1 b } } := by
  have hfetch : fetch .encoder { s with turns := ts } =
      .take (encoderRow b) { s with turns := ts, calls := { s.calls with encIn := rest } } := by
    simp only [fetch, fetchEncoder, hi, decode]
  rw [step_of_turn ht, agentStep_of_take hfetch, exec_encoderRow]
  rfl

theorem run_encoder {x : List Byte} {s : State} {ts : List Agent}
    (ht : s.turns = List.replicate x.length .encoder ++ ts) (hi : s.calls.encIn = x) :
    runSteps x.length s = .next { s with turns := ts, calls := { s.calls with
      encIn := [], encOut := s.calls.encOut ++ Codec.encodeBytes x } } := by
  induction x generalizing s with
  | nil =>
    have ht : s.turns = ts := ht
    rw [List.length_nil, runSteps_zero, encodeBytes_nil, List.append_nil, ← hi, ← ht]
  | cons b x ih =>
    rw [List.length_cons, runSteps_succ (step_encoder ht hi), ih rfl rfl, encodeBytes_cons, ← List.append_assoc]

/-! ## A whole call of `decode` (R105) -/

/-- One turn of the decoder takes the next wire byte and applies PARSE1 to it. -/
theorem step_decoder_byte {s : State} {ts : List Agent} {b : Byte} {rest : List Byte} (ht : s.turns = .decoder :: ts)
    (hn : s.calls.decErr = none) (hi : s.calls.decIn = b :: rest) :
    step s = .next { s with
      turns := ts, calls := afterParse { s.calls with decIn := rest } (Codec.parse1 s.calls.decEsc b) } := by
  have hfetch : fetch .decoder { s with turns := ts } =
      .take (if s.calls.decEsc then operandRow .call b else symStartRow .call b)
        { s with turns := ts, calls := { s.calls with decIn := rest } } := by
    simp only [fetch, fetchDecoder, hn, hi, decode_stuffed]
  rw [step_of_turn ht, agentStep_of_take hfetch]
  exact exec_stuffedRow_call (s := { s with turns := ts, calls := { s.calls with decIn := rest } }) hn b

/-- At the end of the input the decoder's turn raises the error of an unpaired escape byte. -/
theorem step_decoder_unpaired {s : State} {ts : List Agent} (ht : s.turns = .decoder :: ts)
    (hn : s.calls.decErr = none) (hi : s.calls.decIn = []) (he : s.calls.decEsc = true) :
    step s = .next (raiseCall .malformedEscape { s with turns := ts }) := by
  have hfetch : fetch .decoder { s with turns := ts } = .take (.decEscTrunc .call) { s with turns := ts } := by
    simp only [fetch, fetchDecoder, hn, hi, he, if_true]
  rw [step_of_turn ht, agentStep_of_take hfetch]
  exact decEscTrunc_call hn he hi

/-- The call of `decode` has ended: with an error, or at the end of its input with no escape byte unpaired. -/
def DecodeEnded (c : Calls) : Prop :=
  c.decErr ≠ none ∨ (c.decIn = [] ∧ c.decEsc = false)

theorem fetch_decoder_of_ended {s : State} (h : DecodeEnded s.calls) : fetch .decoder s = .hold := by
  simp only [fetch, fetchDecoder]
  cases hn : s.calls.decErr with
  | some k => rfl
  | none =>
    obtain ⟨hi, he⟩ := h.resolve_left (fun hne => hne hn)
    simp [hi, he]

/-- Turns after the end of the call only pass. -/
theorem run_decoder_ended {n : Nat} {s : State} {ts : List Agent} (ht : s.turns = List.replicate n .decoder ++ ts)
    (h : DecodeEnded s.calls) : runSteps n s = .next { s with turns := ts } := by
  induction n generalizing s with
  | zero =>
    have ht : s.turns = ts := ht
    rw [runSteps_zero, ← ht]
  | succ n ih =>
    have hstep : step s = .next { s with turns := List.replicate n .decoder ++ ts } := by
      rw [step_of_turn (ts := List.replicate n .decoder ++ ts) ht]
      exact agentStep_of_hold (by decide) (fetch_decoder_of_ended h)
    rw [runSteps_succ hstep]
    exact ih rfl h

/-- What the call's fields hold when it has ended with a result: an error returns its kind and nothing else
(R15, R105). -/
def CallAnswers (c : Calls) : Codec.Result → Prop
  | .ok y => c.decErr = none ∧ c.decOut = y ∧ c.decIn = []
  | .error k => c.decErr = some k ∧ c.decOut = []

/-- From any flag and any bytes given so far, a turn for each byte left and one for the end answer the rest of the
parser's run after those bytes. -/
theorem run_decoder {x : List Byte} {s : State} {ts : List Agent}
    (ht : s.turns = List.replicate (x.length + 1) .decoder ++ ts) (hi : s.calls.decIn = x)
    (hn : s.calls.decErr = none) :
    ∃ c, runSteps (x.length + 1) s = .next { s with turns := ts, calls := c } ∧
      CallAnswers c ((Codec.parseAll s.calls.decEsc x).prepend s.calls.decOut) := by
  induction x generalizing s with
  | nil =>
    cases he : s.calls.decEsc with
    | false => exact ⟨s.calls, run_decoder_ended ht (.inr ⟨hi, he⟩), hn, (List.append_nil _).symm, hi⟩
    | true => exact ⟨_, runSteps_succ (step_decoder_unpaired ht hn hi he), rfl, rfl⟩
  | cons b x ih =>
    rw [List.length_cons, runSteps_succ (step_decoder_byte ht hn hi)]
    cases hp : Codec.parse1 s.calls.decEsc b with
    | error k =>
      rw [parseAll_of_error hp]
      exact ⟨_, run_decoder_ended rfl (.inl (Option.some_ne_none k)), rfl, rfl⟩
    | next esc emitted =>
      rw [parseAll_of_next hp, prepend_prepend]
      exact ih rfl rfl hn

/-- Settles O37: the encoder appends the encoding of one byte a turn; the decoder runs the parser, which is `decode`
(R106), from the flag at 0 and nothing given. -/
theorem standaloneCallsComputeTheFunctions : Obligations.StandaloneCallsComputeTheFunctions := by
  intro s x
  refine ⟨fun hi ho => ?_, fun hi ho he hn => ?_⟩
  · rw [agentRun_eq_runSteps]
    exact ⟨_, run_encoder rfl hi, rfl, by simp [ho], rfl, rfl, rfl⟩
  · rw [agentRun_eq_runSteps]
    obtain ⟨c, hrun, hc⟩ := run_decoder (s := { s with turns := _ }) (ts := s.turns) rfl hi hn
    have hc : CallAnswers c (Codec.decodeBytes x) := by
      rw [decodeBytes_eq_parseAll, ← prepend_nil (Codec.parseAll false x), ← ho, ← he]
      exact hc
    refine ⟨_, hrun, rfl, rfl, rfl, fun y hy => ?_, fun k hk => ?_⟩
    · rwa [hy] at hc
    · rwa [hk] at hc

end Sys2Proof.CodecRules

/-! PROOFS. The frame builder and the TX unit (spec/41_frame_builder.md): the statements `BuildFrameChecksTheSize`,
`BoundaryPayload`, `BuiltFrameLaws`, `SubmitBuildsOrRejects`, `SubmissionWhileSendingDoesNotHappen`, `EmitHandsOneByte`
and `EmitStepsSendTheBuiltFrame`, with what they rest on. -/
namespace Sys2Proof.FrameRules
open Sys2Proof.Machine Sys2Proof.Laws Sys2Proof.Scope Sys2Proof.StateRules Sys2Proof.MemoryRules
  Sys2Proof.EncodingRules Sys2Proof.CodecRules

section Functions
open Sys2Proof.Codec

/-! ## The two size checks (R131, R133) -/

/-- The check after stuffing decides alone: a frame is at least as long as the check before stuffing counts. -/
theorem buildFrame_eq (m : Nat) (p : List Byte) :
    buildFrame m p = if m < (frameBytes p).length then .error .payloadTooLarge else .ok (frameBytes p) := by
  have hle : p.length + Config.lenWidth + 2 ≤ (frameBytes p).length := by
    rw [length_frameBytes, Config.lenWidth]
    omega
  unfold buildFrame
  split
  · next h => rw [if_pos (Nat.lt_of_lt_of_le h hle)]
  · rfl

theorem buildFrame_eq_error_iff {m : Nat} {p : List Byte} :
    buildFrame m p = .error .payloadTooLarge ↔ m < (frameBytes p).length := by
  simp [buildFrame_eq]

theorem buildFrame_eq_ok_iff {m : Nat} {p : List Byte} :
    buildFrame m p = .ok (frameBytes p) ↔ (frameBytes p).length ≤ m := by
  simp [buildFrame_eq]

/-- Settles O17: the check after stuffing decides, against the frame's size (R72), which is at least `n + 4`. -/
theorem buildFrameChecksTheSize : Obligations.BuildFrameChecksTheSize := by
  intro m p
  rw [← length_frameBytes]
  refine ⟨buildFrame_eq_error_iff, buildFrame_eq_ok_iff, fun h => buildFrame_eq_error_iff.mpr ?_⟩
  rw [length_frameBytes]
  omega

/-- The length field of a value of 16 bits needs no escape exactly when neither its quotient nor its remainder by 256
is reserved (R50). -/
theorem reservedCount_lenBytes_eq_zero_iff {l : Nat} (h : l ≤ 65535) :
    reservedCount (lenBytes l) = 0 ↔ l / 256 < 253 ∧ l % 256 < 253 := by
  have hhi : (BitVec.ofNat 8 (l / 256)).toNat = l / 256 := Nat.mod_eq_of_lt (by omega)
  have hlo : (BitVec.ofNat 8 (l % 256)).toNat = l % 256 := Nat.mod_eq_of_lt (by omega)
  rw [reservedCount_eq_zero_iff, lenBytes, List.forall_mem_cons, List.forall_mem_singleton, hhi, hlo]

/-- Settles O18: without any escape the frame is exactly `MAX_FRAME_LEN` bytes long, so one escape is too many. -/
theorem boundaryPayload : Obligations.BoundaryPayload := by
  intro m p hl hg hp
  have hlen : p.length + 2 = m - 2 := by omega
  have hfree := reservedCount_lenBytes_eq_zero_iff (l := m - 2) (by omega)
  rw [buildFrame_eq_ok_iff, length_frameBytes, hlen, ← hfree]
  omega

/-! ## What a built frame decodes and scans to (R142) -/

/-- The two bytes of a length value, read as one value again (R50, R74). -/
theorem be16_lenBytes (l : Nat) : be16 (BitVec.ofNat 8 (l / 256)) (BitVec.ofNat 8 (l % 256)) = BitVec.ofNat 16 l := by
  apply BitVec.eq_of_toNat_eq
  simp only [be16, BitVec.toNat_ofNat]
  omega

/-- The second loop of `scan_frame` takes a body without end marker whole when body and marker stay within the limit
(R157, R158). -/
theorem scanAcc_body {m pos cnt : Nat} {acc body : List Byte} (rest : List Byte) (hb : Config.endMarker ∉ body)
    (hm : cnt + body.length + 1 ≤ m) :
    scanAcc m pos cnt acc (body ++ Config.endMarker :: rest) = scanFinish (pos + body.length + 1) (acc ++ body) := by
  induction body generalizing pos cnt acc with
  | nil => simp [scanAcc]
  | cons b body ih =>
    rw [List.mem_cons, not_or] at hb
    rw [List.length_cons] at hm ⊢
    rw [List.cons_append, scanAcc, if_neg (Ne.symm hb.1), if_neg (by omega), ih hb.2 (by omega), List.append_assoc,
      List.singleton_append, Nat.add_right_comm pos 1, Nat.add_assoc pos]

/-- `scan_frame` on an encoded body between markers, within the limit, comes to the decoding of the body (R171). -/
theorem scanFrame_encoded {m : Nat} {x : List Byte} (rest : List Byte) (hm : (encodeBytes x).length + 1 ≤ m) :
    scanFrame m (Config.startMarker :: (encodeBytes x ++ Config.endMarker :: rest)) =
      scanFinish ((encodeBytes x).length + 2) (encodeBytes x) := by
  have hno : Config.endMarker ∉ encodeBytes x := fun h => (encodeBytes_ne_marker h).2 rfl
  rw [scanFrame, scanHunt, if_pos rfl, scanAcc_body rest hno (by omega), List.nil_append]
  congr 1
  omega

theorem scanFinish_encoded (pos : Nat) (hi lo : Byte) (p : List Byte) :
    scanFinish pos (encodeBytes (hi :: lo :: p)) = .ok (be16 hi lo) p pos := by
  rw [scanFinish, decodeBytes_encodeBytes]

/-- Between the markers a frame is the encoding of length bytes and payload (R71). -/
theorem frameBytes_interior (p : List Byte) :
    ((frameBytes p).drop 1).take ((frameBytes p).length - 2) = encodeBytes (lenBytes (p.length + 2) ++ p) := by
  rw [frameBytes_eq]
  simp

/-- `scan_frame` on a stream that begins with a frame within the limit recovers length value and payload, and consumes
the frame (R142). -/
theorem scanFrame_frameBytes {m : Nat} {p : List Byte} (rest : List Byte) (hm : (frameBytes p).length ≤ m) :
    scanFrame m (frameBytes p ++ rest) = .ok (BitVec.ofNat 16 (p.length + 2)) p (frameBytes p).length := by
  have hlen : (frameBytes p).length = (encodeBytes (lenBytes (p.length + 2) ++ p)).length + 2 := by
    simp [frameBytes_eq]
  calc scanFrame m (frameBytes p ++ rest)
      = scanFrame m (Config.startMarker ::
          (encodeBytes (lenBytes (p.length + 2) ++ p) ++ Config.endMarker :: rest)) := by simp [frameBytes_eq]
    _ = scanFinish (frameBytes p).length (encodeBytes (lenBytes (p.length + 2) ++ p)) := by
      rw [scanFrame_encoded rest (by omega), hlen]
    _ = .ok (BitVec.ofNat 16 (p.length + 2)) p (frameBytes p).length := by
      rw [← be16_lenBytes]
      exact scanFinish_encoded ..

/-- Settles O19: the frame's shape (R40), `decode` undoing `encode` between the markers (R109), and the scanner's two
loops taking a start marker and a body without end marker. -/
theorem builtFrameLaws : Obligations.BuiltFrameLaws := by
  intro m p f rest _ _ h
  have hm := length_le_of_buildFrame h
  obtain rfl := eq_frameBytes_of_buildFrame h
  obtain ⟨hfirst, hlast, h4, hin⟩ := frameBytes_shape p
  refine ⟨h4, hm, hfirst, hlast, hin, ?_, scanFrame_frameBytes rest hm⟩
  rw [frameBytes_interior]
  exact decodeBytes_encodeBytes _

end Functions

/-! ## A submission (R136 to R138) -/

section Submission
variable {s : State} {p : List Byte}

theorem exec_txSubmit_of_idle (h : s.tx.state = .idle) : exec (.txSubmit p) s = buildFrameIntoTxb p s :=
  if_pos h

theorem exec_build_of_idle (h : s.tx.state = .idle) : exec (.build p) s = buildFrameIntoTxb p s :=
  if_pos h

theorem exec_txSubmit_of_sending (h : s.tx.state = .sending) : exec (.txSubmit p) s = .next s :=
  if_neg (by simp [h])

theorem buildFrameIntoTxb_of_error {k : ErrorKind} (h : Codec.buildFrame s.maxFrameLen p = .error k) :
    buildFrameIntoTxb p s = .next (raiseTx s) := by
  rw [buildFrameIntoTxb, h]

/-- The state with the frame `f` in TXB from index 0 on and nothing of it sent (R138). -/
def loadFrame (f : List Byte) (s : State) : State :=
  { s with tx := { state := .sending, txb := Memory.writeBlock s.tx.txb 0 f, len := f.length, idx := 0, status := .ok } }

theorem buildFrameIntoTxb_of_ok {f : List Byte} (h : Codec.buildFrame s.maxFrameLen p = .ok f) :
    buildFrameIntoTxb p s = .next (loadFrame f s) := by
  have hfits : 0 + f.length ≤ capacity .txb s := by rw [Nat.zero_add]; exact length_le_of_buildFrame h
  simp only [buildFrameIntoTxb, h, memWriteBlock_of_le hfits]
  rfl

/-- In TX `Idle` a rejection leaves the unit there (R217). -/
theorem raiseTx_of_idle (h : s.tx.state = .idle) :
    raiseTx s = { s with tx := { s.tx with status := .payloadTooLarge, len := 0, idx := 0 } } := by
  rw [raiseTx, ← h]

end Submission

/-- Settles O20: both rows are BUILD in TX `Idle`, which raises the error or loads the frame (R138). -/
theorem submitBuildsOrRejects : Obligations.SubmitBuildsOrRejects := by
  intro s p hs
  rw [exec_txSubmit_of_idle hs, exec_build_of_idle hs]
  refine ⟨fun he => ?_, fun r hr => ?_⟩
  · rw [buildFrameIntoTxb_of_error he, raiseTx_of_idle hs]
    exact ⟨rfl, rfl⟩
  · have hb := buildFrameIntoTxb_of_ok hr
    refine ⟨_, hb, hb, rfl, fun i hi => read_writeBlock_zero _ hi, fun i hi => ?_⟩
    exact (read_writeBlock ..).trans (if_neg (by omega))

/-- Settles O21: the row's guard fails while `Sending`, and the host's step is the one that leaves an unaccepted
command offered (O42). -/
theorem submissionWhileSendingDoesNotHappen : Obligations.SubmissionWhileSendingDoesNotHappen := by
  intro s p hs
  refine ⟨exec_txSubmit_of_sending hs, fun rest ts hh ht => ?_⟩
  have hrefused : accepted (.txSubmit p) s = false := by simp [accepted, txReady, hs]
  obtain ⟨hhost, -⟩ := unacceptedEventsStayOffered s ts
  exact hhost ht _ _ hh hrefused

/-! ## Sending (R139, R141) -/

/-- Settles O22: EMIT makes the read of `TXB[tx_idx]`, and its guard fails in `Idle` or with the line not ready. -/
theorem emitHandsOneByte : Obligations.EmitHandsOneByte := by
  intro s
  refine ⟨fun b hs hr hb => execEmit_of_memRead hs hr hb, fun h => if_neg fun ⟨hs, hr⟩ => ?_⟩
  rcases h with h | h
  · simp [h] at hs
  · simp [h] at hr

/-- The state with the bytes `bs`, next in TXB, handed to the line (R139). -/
def handOver (bs : List Byte) (s : State) : State :=
  { s with line := { s.line with txSent := s.line.txSent ++ bs },
           tx := { s.tx with idx := s.tx.idx + bs.length,
                             state := if s.tx.idx + bs.length = s.tx.len then .idle else .sending } }

theorem handOver_cons (b : Byte) (bs : List Byte) (s : State) :
    handOver (b :: bs) s = handOver bs (handOver [b] s) := by
  simp [handOver, Nat.add_assoc, Nat.add_comm 1]

section Turns
variable {s : State} {ts : List Agent}

/-- One turn of the TX unit, while `Sending` with the line ready, hands over one byte. -/
theorem step_tx {b : Byte} (ht : s.turns = .tx :: ts) (hs : s.tx.state = .sending) (hr : s.line.ready = true)
    (hb : memRead .txb s.tx.idx s = some b) : step s = .next { handOver [b] s with turns := ts } := by
  rw [step_of_turn ht, agentStep_of_take (fetch_tx_of_sending (s := { s with turns := ts }) hs hr)]
  exact execEmit_of_memRead (s := { s with turns := ts }) hs hr hb

/-- As many turns as TXB has valid bytes `bs` from `tx_idx` on hand over these bytes. The unit is `Sending` just while
`tx_idx` has not come to `tx_len`. -/
theorem run_tx {bs : List Byte} (ht : s.turns = List.replicate bs.length .tx ++ ts)
    (hs : s.tx.state = if s.tx.idx = s.tx.len then .idle else .sending) (hr : s.line.ready = true)
    (hread : ∀ i, i < bs.length → memRead .txb (s.tx.idx + i) s = bs[i]?) :
    runSteps bs.length s = .next { handOver bs s with turns := ts } := by
  induction bs generalizing s with
  | nil =>
    have ht : s.turns = ts := ht
    simp only [List.length_nil, runSteps_zero, handOver, List.append_nil, Nat.add_zero, ← hs, ← ht]
  | cons b bs ih =>
    have hb : memRead .txb s.tx.idx s = some b := hread 0 (Nat.succ_pos _)
    have hlt : s.tx.idx < s.tx.len := (memRead_eq_some.mp hb).1
    rw [if_neg (Nat.ne_of_lt hlt)] at hs
    have hnext (i : Nat) (hi : i < bs.length) : memRead .txb (s.tx.idx + 1 + i) s = bs[i]? := by
      rw [Nat.add_assoc, Nat.add_comm 1]
      exact hread (i + 1) (Nat.succ_lt_succ hi)
    rw [List.length_cons, runSteps_succ (step_tx ht hs hr hb), handOver_cons b bs]
    exact ih rfl rfl hr hnext

/-- `k` turns after the frame `f` is loaded, the line has been handed its first `k` bytes (R141). -/
theorem agentRun_tx_loadFrame {f : List Byte} {k : Nat} (hf : f.length ≤ s.maxFrameLen) (hpos : 0 < f.length)
    (hr : s.line.ready = true) (hk : k ≤ f.length) :
    agentRun .tx k (loadFrame f s) = .next (handOver (f.take k) (loadFrame f s)) := by
  have hlen : (f.take k).length = k := List.length_take_of_le hk
  have hread (i : Nat) (hi : i < (f.take k).length) : memRead .txb (0 + i) (loadFrame f s) = (f.take k)[i]? := by
    have hif : i < f.length := by omega
    rw [Nat.zero_add, List.getElem?_take_of_lt (by omega)]
    exact (if_pos ⟨hif, Nat.lt_of_lt_of_le hif hf⟩).trans (read_writeBlock_zero _ hif)
  rw [agentRun_eq_runSteps]
  have hrun := run_tx (s := { loadFrame f s with turns := List.replicate k .tx ++ s.turns }) (bs := f.take k)
    (ts := s.turns) (by rw [hlen]) (if_neg (Nat.ne_of_lt hpos)).symm hr hread
  rwa [hlen] at hrun

end Turns

/-- Settles O23: a rejection leaves the unit in `Idle`, where no EMIT is enabled; else the turns hand over the frame that
BUILD has loaded. -/
theorem emitStepsSendTheBuiltFrame : Obligations.EmitStepsSendTheBuiltFrame := by
  intro s p hs
  rw [exec_txSubmit_of_idle hs]
  refine ⟨fun he => ⟨_, buildFrameIntoTxb_of_error he, rfl, rfl, rfl⟩, fun f hf => ?_⟩
  refine ⟨_, buildFrameIntoTxb_of_ok hf, fun hr k hk => ?_⟩
  have hpos : 0 < f.length := by
    obtain ⟨-, -, h4, -⟩ := frameBytes_shape p
    rw [eq_frameBytes_of_buildFrame hf]
    omega
  refine ⟨_, agentRun_tx_loadFrame (length_le_of_buildFrame hf) hpos hr hk, rfl, ?_, rfl⟩
  simp [handOver, loadFrame, hk]

end Sys2Proof.FrameRules

/-! PROOFS. The frame scanner (spec/42_frame_scanner.md), one row and one step at a time: the statements
`ScanStartClearsAndHunts`, `HuntRows`, `AccRows`, `DecLiteralRows`, `DecPrefixRow`, `DecPairRows`,
`DecReservedOperandRow`, `FinRows`, `RxStepRunsTheByteOffered`, `RxStepRunsTheByteStored`, `DecStepAppliesParse1`,
`RxStateTransitions` and `DoneHoldsTheResult`, with what they rest on. -/
namespace Sys2Proof.ScannerRows
open Sys2Proof.Machine Sys2Proof.Laws Sys2Proof.Scope Sys2Proof.StateRules Sys2Proof.MemoryRules

/-! ## The rows of the line's bytes (R152 to R159) -/

/-- Settles O24: SCAN_START recovers the unit under its guard, which holds in `Idle` and `Done` only. -/
theorem scanStartClearsAndHunts : Obligations.ScanStartClearsAndHunts := by
  intro s
  refine ⟨fun h => if_pos h, fun h => if_neg ?_⟩
  rcases h with h | h | h <;> simp [h]

/-- Settles O25: the guards of the three rows hold. -/
theorem huntRows : Obligations.HuntRows := by
  intro s b hs
  exact ⟨if_pos hs, fun hb hc => if_pos ⟨hs, hb, hc⟩, fun hb hc => if_pos ⟨hs, hb, hc⟩⟩

/-- The state with the byte `b` stored in the body (R158). -/
def storeByte (b : Byte) (s : State) : State :=
  { s with rx := { s.rx with rxb := Memory.write s.rx.rxb s.rx.len b, len := s.rx.len + 1, count := s.rx.count + 1 } }

theorem exec_accData {s : State} {b : Byte} (hs : s.rx.state = .accumulatingUntilEnd) (hb : b ≠ 0xFF#8)
    (hc : s.rx.count + 1 < s.maxFrameLen) (hl : s.rx.len < s.maxFrameLen - 1) :
    exec (.accData b) s = .next (storeByte b s) := by
  refine (if_pos ⟨hs, hb, hc⟩).trans ?_
  rw [memWrite_of_lt b hl]
  rfl

/-- Settles O26: the guards of the three rows hold, and RXB has room for a byte that is not the last of the limit. -/
theorem accRows : Obligations.AccRows := by
  intro s b hs
  refine ⟨if_pos hs, fun hb hc hl => ⟨_, exec_accData hs hb hc (by omega), rfl, ?_, fun i hi => ?_⟩,
    fun hb hc => if_pos ⟨hs, hb, hc⟩⟩
  · exact read_write_same ..
  · exact read_write_other _ _ _ _ hi

/-! ## The rows of the stored bytes, and the end of the body (R164 to R170) -/

section Rows
variable {s : State}

/-- The state with the raw byte `b` emitted (R164, R166). -/
def emitByte (b : Byte) (s : State) : State :=
  { s with rx := { s.rx with out := Memory.write s.rx.out s.rx.outLen b, outLen := s.rx.outLen + 1,
                             escPending := false, decIdx := s.rx.decIdx + 1 } }

theorem decEmit_scanner_of_lt (b : Byte) (ho : s.rx.outLen < s.maxFrameLen - 1) :
    decEmit .scanner b s = .next (emitByte b s) :=
  decEmit_scanner_eq_next.mpr ⟨ho, rfl⟩

theorem read_emitByte_same (b : Byte) (s : State) : Memory.read (emitByte b s).rx.out s.rx.outLen = some b :=
  read_write_same ..

theorem read_emitByte_other (b : Byte) (s : State) (i : Nat) (hi : i ≠ s.rx.outLen) :
    Memory.read (emitByte b s).rx.out i = Memory.read s.rx.out i :=
  read_write_other _ _ _ _ hi

/-- Settles O27: the three rows are those of the byte at a symbol start, which emits it. -/
theorem decLiteralRows : Obligations.DecLiteralRows := by
  intro s b hs hi he ho hl hb
  have hrow : exec (symStartRow .scanner b) s = .next (emitByte b s) := by
    rw [symStartRow_exec hs hi he hb, decEmit_scanner_of_lt b (by omega)]
  refine ⟨emitByte b s, fun h => ?_, fun h => ?_, fun h => ?_, ?_, read_emitByte_same b s, read_emitByte_other b s⟩
  · rwa [symStartRow_literal .scanner (by bv_omega)] at hrow
  · subst h; exact hrow
  · subst h; exact hrow
  · simp only [emitByte, he]

/-- Settles O28: the row's guard holds. -/
theorem decPrefixRow : Obligations.DecPrefixRow :=
  fun _ hs hi he => if_pos (decEnabled_scanner hs hi he)

/-- The three rows of a legal operand are those of the operands 0, 1 and 2, and the byte is 253 more (R166). -/
theorem pairRow_eq_operandRow {i : Instr} {b : Byte}
    (h : (i = .decEsc0 .scanner ∧ b.toNat = 253) ∨ (i = .decEsc1 .scanner ∧ b.toNat = 254) ∨
      (i = .decEsc2 .scanner ∧ b.toNat = 255)) :
    ∃ d : Byte, ¬3#8 ≤ d ∧ i = operandRow .scanner d ∧ Config.specialByte + d = b := by
  rcases h with ⟨rfl, h⟩ | ⟨rfl, h⟩ | ⟨rfl, h⟩
  · exact ⟨0#8, by decide, rfl, BitVec.eq_of_toNat_eq h.symm⟩
  · exact ⟨1#8, by decide, rfl, BitVec.eq_of_toNat_eq h.symm⟩
  · exact ⟨2#8, by decide, rfl, BitVec.eq_of_toNat_eq h.symm⟩

/-- Settles O29: each row emits 253 and its operand. -/
theorem decPairRows : Obligations.DecPairRows := by
  intro s hs hi he ho hl i b h
  obtain ⟨d, hd, rfl, rfl⟩ := pairRow_eq_operandRow h
  refine ⟨emitByte (Config.specialByte + d) s, ?_, rfl, read_emitByte_same _ s, read_emitByte_other _ s⟩
  rw [operandRow_exec hs hi he hd, decEmit_scanner_of_lt _ (by omega)]

/-- Settles O30: the row's guard holds. -/
theorem decReservedOperandRow : Obligations.DecReservedOperandRow := by
  intro s d hs hi he hd
  have hd : 3#8 ≤ d := by bv_omega
  exact if_pos ⟨decEnabled_scanner hs hi he, hd⟩

/-- Settles O31: the guards of the three rows hold, and FIN.OK makes the two reads. -/
theorem finRows : Obligations.FinRows := by
  intro s hs hl
  refine ⟨fun he => if_pos (finEnabled_of hs hl he), fun he ho hi lo h0 h1 => ?_,
    fun he ho => if_pos ⟨finEnabled_of hs hl he, ho⟩⟩
  refine (if_pos ⟨finEnabled_of hs hl he, ho⟩).trans ?_
  rw [h0, h1]
  rfl

end Rows

/-! ## What the RX unit finds -/

section Finds
variable {s : State}

theorem rxReady_iff : rxReady s = true ↔ s.rx.state = .scanningForStart ∨ s.rx.state = .accumulatingUntilEnd := by
  simp [rxReady]

theorem fetch_rx_of_ready (h : rxReady s = true) : fetch .rx s = fetchLineByte s := by
  rcases rxReady_iff.mp h with h | h <;> simp only [fetch, fetchRx, h]

theorem fetch_rx_of_decoding (h : s.rx.state = .decoding) : fetch .rx s = fetchBodyByte s := by
  simp only [fetch, fetchRx, h]

theorem rxReady_of_lineContext {c : Context} (h : lineContext s = some c) : rxReady s = true := by
  unfold lineContext at h
  split at h
  · next hs => exact rxReady_iff.mpr (.inl hs)
  · next hs => exact rxReady_iff.mpr (.inr hs)
  all_goals cases h

/-- A byte of the line is taken off it with its row (R153). -/
theorem fetch_rx_of_byte {c : Context} {b : Byte} {rest : List Byte} {i : Instr} (hc : lineContext s = some c)
    (hq : s.line.rxQueue = b :: rest) (hd : decode c [b] = .instr i []) :
    fetch .rx s = .take i (leaveOnLine rest s) := by
  simp only [fetch_rx_of_ready (rxReady_of_lineContext hc), fetchLineByte, hc, hq, hd]

theorem fetch_rx_of_dry (hr : rxReady s = true) (hq : s.line.rxQueue = []) : fetch .rx s = .hold := by
  rw [fetch_rx_of_ready hr, fetchLineByte, hq]
  cases lineContext s <;> rfl

/-- The stored byte at `dec_idx` is read with its row in context S (R163). -/
theorem fetch_rx_of_body {b : Byte} (hs : s.rx.state = .decoding) (hi : s.rx.decIdx < s.rx.len)
    (hb : memRead .rxb s.rx.decIdx s = some b) :
    fetch .rx s = .take (if s.rx.escPending then operandRow .scanner b else symStartRow .scanner b) s := by
  simp only [fetch_rx_of_decoding hs, fetchBodyByte, if_pos hi, hb, decode_stuffed]

/-- At the end of the body the unit finds the case of FIN (R168). -/
theorem fetch_rx_of_end (hs : s.rx.state = .decoding) (hl : s.rx.decIdx = s.rx.len) :
    fetch .rx s = .take (finRow s) s := by
  simp only [fetch_rx_of_decoding hs, fetchBodyByte, hl, Nat.lt_irrefl, if_false, if_true]

/-- In context H only a byte past the limit has no row (log 14). -/
theorem exists_huntRow {r : Room} (hr : r ≠ .past) (b : Byte) : ∃ i, huntRow r b = some i := by
  unfold huntRow
  split
  · exact ⟨_, rfl⟩
  · cases r with
    | below | last => exact ⟨_, rfl⟩
    | past => exact absurd rfl hr

/-- In context A only a byte past the limit has no row (log 14). -/
theorem exists_accRow {r : Room} (hr : r ≠ .past) (b : Byte) : ∃ i, accRow r b = some i := by
  unfold accRow
  split
  · exact ⟨_, rfl⟩
  · cases r with
    | below | last => exact ⟨_, rfl⟩
    | past => exact absurd rfl hr

theorem room_ne_past (h : s.rx.count + 1 ≤ s.maxFrameLen) : room s ≠ .past := by
  rcases Nat.lt_or_eq_of_le h with h | h
  · simp [room_below h]
  · simp [room_last h]

/-- While the unit is ready the limit has room for a byte more (R33). -/
theorem count_lt_of_ready (h : Inv s) (hr : rxReady s = true) : s.rx.count + 1 ≤ s.maxFrameLen := by
  have hm : 4 ≤ s.maxFrameLen := h.paramLeast
  rcases rxReady_iff.mp hr with hs | hs
  · obtain ⟨hc, -⟩ := h.rxInv.scanningRange hs
    omega
  · obtain ⟨-, hc, -⟩ := h.rxInv.accumulatingRange hs
    omega

/-- Under the invariants every byte has a row while the unit is ready. -/
theorem exists_lineRow (h : Inv s) (hr : rxReady s = true) (b : Byte) :
    ∃ c i, lineContext s = some c ∧ decode c [b] = .instr i [] := by
  have hroom := room_ne_past (count_lt_of_ready h hr)
  rcases rxReady_iff.mp hr with hs | hs
  · obtain ⟨i, hi⟩ := exists_huntRow hroom b
    exact ⟨.hunt (room s), i, by simp only [lineContext, hs], by simp only [decode, hi, Decoded.ofRow]⟩
  · obtain ⟨i, hi⟩ := exists_accRow hroom b
    exact ⟨.acc (room s), i, by simp only [lineContext, hs], by simp only [decode, hi, Decoded.ofRow]⟩

theorem eq_some_of_ofRow {row : Option Instr} {i : Instr} {rest rest' : List Byte}
    (h : Decoded.ofRow row rest = .instr i rest') : row = some i := by
  cases row with
  | none => cases h
  | some j => cases h; rfl

/-- The row of a byte writes the RX unit only: the byte has been taken off the line before (log 5). -/
theorem line_of_lineRow {c : Context} {b : Byte} {i : Instr} {t : State} (hc : lineContext s = some c)
    (hd : decode c [b] = .instr i []) (h : exec i s = .next t) : t.line = s.line := by
  unfold lineContext at hc
  split at hc <;> cases hc
  · next hs =>
    obtain ⟨r, rfl⟩ := huntMove_frame (huntRow_move hs (eq_some_of_ofRow hd) h)
    rfl
  · next hs =>
    obtain ⟨r, rfl⟩ := accMove_frame (accRow_move hs (eq_some_of_ofRow hd) h)
    rfl

end Finds

/-! ## One step (R153, R163) -/

section Steps
variable {s : State} {ts : List Agent}

theorem step_of_take {i : Instr} {u : State} (ht : s.turns = .rx :: ts)
    (h : fetch .rx { s with turns := ts } = .take i u) : step s = exec i u :=
  (step_of_turn ht).trans (agentStep_of_take h)

theorem step_of_hold (ht : s.turns = .rx :: ts) (h : fetch .rx { s with turns := ts } = .hold) :
    step s = .next { s with turns := ts } :=
  (step_of_turn ht).trans (agentStep_of_hold (by decide) h)

/-- A step of the RX unit that is not ready leaves the line alone. -/
theorem rx_step_line_of_not_ready {t : State} (hr : rxReady s = false) (h : agentStep .rx s = .next t) :
    t.line = s.line := by
  have hready : ¬(s.rx.state = .scanningForStart ∨ s.rx.state = .accumulatingUntilEnd) := by
    rw [← rxReady_iff, hr]
    exact Bool.false_ne_true
  rcases rx_step_cases h with rfl | ⟨hs, -⟩ | ⟨hs, -⟩ | ⟨-, -, b, -, hm⟩ | ⟨-, -, hm⟩
  · rfl
  · exact absurd (.inl hs) hready
  · exact absurd (.inr hs) hready
  · obtain ⟨r, rfl⟩ := decMove_frame hm
    rfl
  · obtain ⟨r, rfl⟩ := finMove_frame hm
    rfl

/-- Settles O38: the unit takes the byte off the line with its row; under the invariants every byte has a row, and the
row leaves the line alone. -/
theorem rxStepRunsTheByteOffered : Obligations.RxStepRunsTheByteOffered := by
  intro s ts ht
  have hrun {c b rest i} (hc : lineContext s = some c) (hq : s.line.rxQueue = b :: rest)
      (hd : decode c [b] = .instr i []) :
      step s = exec i { s with turns := ts, line := { s.line with rxQueue := rest } } :=
    step_of_take ht (fetch_rx_of_byte (s := { s with turns := ts }) hc hq hd)
  refine ⟨fun c b rest i => hrun, fun hinv hr b rest hq => ?_, fun hr t h => ?_, fun hr hq => ?_⟩
  · obtain ⟨c, i, hc, hd⟩ := exists_lineRow hinv hr b
    obtain ⟨t, hstep⟩ := stepNeverStops s hinv
    refine ⟨t, hstep, ?_⟩
    rw [hrun hc hq hd] at hstep
    rw [line_of_lineRow (s := { s with turns := ts, line := { s.line with rxQueue := rest } }) hc hd hstep]
  · rw [step_of_turn ht] at h
    exact rx_step_line_of_not_ready (s := { s with turns := ts }) hr h
  · exact step_of_hold ht (fetch_rx_of_dry (s := { s with turns := ts }) hr hq)

/-- Settles O39: the unit finds the row of the stored byte, or the case of FIN at the end of the body. -/
theorem rxStepRunsTheByteStored : Obligations.RxStepRunsTheByteStored := by
  intro s ts ht hs
  refine ⟨fun b i hi hb hd => ?_, fun hl => ?_, fun hl he => ?_⟩
  · rw [step_of_take ht (fetch_rx_of_body (s := { s with turns := ts }) hs hi hb)]
    obtain ⟨rfl, -⟩ := Decoded.instr.inj ((decode_stuffed .scanner s.rx.escPending b).symm.trans hd)
    rfl
  · exact step_of_take ht (fetch_rx_of_end (s := { s with turns := ts }) hs hl)
  · have hen : truncEnabled .scanner s = true := by simp [truncEnabled, hs, hl, he]
    exact if_pos hen

end Steps

/-! ## DEC applies PARSE1 (R163) -/

section Parse
variable {s : State}

/-- The RX unit after a parser step (R164 to R167). -/
def afterParse1 (r : RxUnit) : Codec.ParseStep → RxUnit
  | .next esc none => { r with escPending := esc, decIdx := r.decIdx + 1 }
  | .next esc (some v) =>
    { r with out := Memory.write r.out r.outLen v, outLen := r.outLen + 1, escPending := esc, decIdx := r.decIdx + 1 }
  | .error k => { r with status := (rxStatusOf k).getD r.status, state := .done }

/-- The row of a stored byte applies PARSE1 to the flag and the byte (R163). -/
theorem exec_stuffedRow_scanner {b : Byte} (hs : s.rx.state = .decoding) (hi : s.rx.decIdx < s.rx.len)
    (ho : s.rx.outLen < s.maxFrameLen - 1) :
    exec (if s.rx.escPending then operandRow .scanner b else symStartRow .scanner b) s =
      .next { s with rx := afterParse1 s.rx (Codec.parse1 s.rx.escPending b) } := by
  cases he : s.rx.escPending with
  | false =>
    by_cases hb : b = 0xFD#8
    · subst hb
      exact decPrefixRow s hs hi he
    · rw [parse1_literal hb]
      exact (symStartRow_exec hs hi he hb).trans (decEmit_scanner_of_lt b ho)
  | true =>
    by_cases hb : 3#8 ≤ b
    · rw [parse1_reserved hb, if_pos rfl, operandRow_reserved .scanner hb]
      exact if_pos ⟨decEnabled_scanner hs hi he, hb⟩
    · rw [parse1_legal (legal_iff.mpr hb)]
      exact (operandRow_exec hs hi he hb).trans (decEmit_scanner_of_lt _ ho)

/-- The one error of PARSE1 (R104). -/
theorem parse1_error {esc : Bool} {b : Byte} {k : ErrorKind} (h : Codec.parse1 esc b = .error k) :
    k = .invalidEscapeOperand := by
  unfold Codec.parse1 at h
  split at h <;> split at h <;> cases h
  rfl

/-- Settles O41: the step runs the row of the stored byte, and OUT has room for what it emits (R33). -/
theorem decStepAppliesParse1 : Obligations.DecStepAppliesParse1 := by
  intro s ts b hinv ht hs hi hb
  have ho : s.rx.outLen < s.maxFrameLen - 1 := decEmit_write_within hinv hi
  refine ⟨{ s with turns := ts, rx := afterParse1 s.rx (Codec.parse1 s.rx.escPending b) }, ?_, rfl, ?_⟩
  · rw [step_of_take ht (fetch_rx_of_body (s := { s with turns := ts }) hs hi hb)]
    exact exec_stuffedRow_scanner (s := { s with turns := ts }) hs hi ho
  · cases hp : Codec.parse1 s.rx.escPending b with
    | error k =>
      obtain rfl := parse1_error hp
      exact ⟨rfl, rfl, rfl, rfl, rfl⟩
    | next esc emitted =>
      cases emitted with
      | none => exact ⟨hs, rfl, rfl, rfl, nofun, fun _ _ => rfl⟩
      | some v =>
        refine ⟨hs, rfl, rfl, rfl, fun w hw => ?_, fun i hi => read_write_other _ _ _ _ (Nat.ne_of_lt hi)⟩
        obtain rfl := Option.some.inj hw
        exact read_write_same ..

end Parse

/-! ## The transitions of `rx_state` (R181), and `Done` (R173) -/

section Transitions
variable {s t : State}

/-- Taking the turn changes the turns only (log 1). -/
theorem nextTurn_eq (s : State) : ∃ ts n, (nextTurn s).2 = { s with turns := ts, tick := n } := by
  unfold nextTurn
  split <;> exact ⟨_, _, rfl⟩

/-- An agent other than the host and the RX unit leaves the RX unit alone (R10). -/
theorem agentStep_rx_eq {a : Agent} (hr : a ≠ .rx) (hh : a ≠ .host) (h : agentStep a s = .next t) : t.rx = s.rx := by
  cases a with
  | rx => exact absurd rfl hr
  | host => exact absurd rfl hh
  | tx =>
    obtain ⟨x, sent, rfl⟩ := tx_step_frame h
    rfl
  | line =>
    obtain rfl := Host.Outcome.next.inj h
    exact lineStep_rx s
  | encoder | decoder | framer =>
    obtain ⟨c, rfl⟩ := call_step_frame (by simp) h
    rfl

theorem huntMove_transition {b : Byte} (h : HuntMove b s t) (hne : t.rx.state ≠ s.rx.state) :
    (b = 0xFE#8 ∧ t.rx.state = .accumulatingUntilEnd) ∨
    (b ≠ 0xFE#8 ∧ s.rx.count + 1 = s.maxFrameLen ∧ t.rx.state = .done ∧ t.rx.status = .startMarkerNotFound) := by
  rcases h with ⟨hb, rfl⟩ | ⟨-, -, rfl⟩ | ⟨hb, hc, rfl⟩
  · exact .inl ⟨hb, rfl⟩
  · exact absurd rfl hne
  · exact .inr ⟨hb, hc, rfl, rfl⟩

theorem accMove_transition {b : Byte} (h : AccMove b s t) (hne : t.rx.state ≠ s.rx.state) :
    (b = 0xFF#8 ∧ t.rx.state = .decoding) ∨
    (b ≠ 0xFF#8 ∧ s.rx.count + 1 = s.maxFrameLen ∧ t.rx.state = .done ∧ t.rx.status = .endMarkerNotFound) := by
  rcases h with ⟨hb, rfl⟩ | ⟨-, -, -, rfl⟩ | ⟨hb, hc, rfl⟩
  · exact .inl ⟨hb, rfl⟩
  · exact absurd rfl hne
  · exact .inr ⟨hb, hc, rfl, rfl⟩

theorem decMove_transition {b : Byte} (h : DecMove b s t) (hne : t.rx.state ≠ s.rx.state) :
    s.rx.escPending = true ∧ 3 ≤ b.toNat ∧ t.rx.state = .done ∧ t.rx.status = .invalidEscapeOperand := by
  rcases h with ⟨-, -, he⟩ | ⟨-, -, rfl⟩ | ⟨-, -, he⟩ | ⟨he, hb, rfl⟩
  · obtain ⟨-, rfl⟩ := decEmit_scanner_eq_next.mp he
    exact absurd rfl hne
  · exact absurd rfl hne
  · obtain ⟨-, rfl⟩ := decEmit_scanner_eq_next.mp he
    exact absurd rfl hne
  · exact ⟨he, hb, rfl, rfl⟩

/-- Settles O46: the moves of the RX unit and the commands of the host, each with its event and condition; the other
agents leave the RX unit alone. -/
theorem rxStateTransitions : Obligations.RxStateTransitions := by
  intro s t h hne
  obtain ⟨ts, n, hu⟩ := nextTurn_eq s
  rw [step, hu] at h
  generalize (nextTurn s).1 = a at h ⊢
  cases a with
  | host =>
    refine .inl ⟨rfl, ?_⟩
    rcases host_step_cases h with rfl | ⟨rest, hh, rfl⟩ | ⟨rest, hh, hs, rfl⟩ | ⟨p, rest, -, -, hb⟩
    · exact absurd rfl hne
    · exact .inl ⟨congrArg List.head? hh, rfl⟩
    · exact .inr ⟨congrArg List.head? hh, hs, rfl⟩
    · obtain ⟨x, rfl⟩ := buildFrameIntoTxb_frame hb
      exact absurd rfl hne
  | rx =>
    refine .inr ⟨rfl, ?_⟩
    rcases rx_step_cases h with rfl | ⟨hs, b, rest, hq, hm⟩ | ⟨hs, b, rest, hq, hm⟩ | ⟨hs, hi, b, hb, hm⟩ | ⟨hs, hl, hm⟩
    · exact absurd rfl hne
    · have hq : s.line.rxQueue = b :: rest := hq
      rcases huntMove_transition hm hne with ⟨rfl, ht⟩ | ⟨hb, ht⟩
      · exact .inl ⟨hs, congrArg List.head? hq, ht⟩
      · exact .inr (.inl ⟨hs, by simp [hq], by simpa [hq] using hb, ht⟩)
    · have hq : s.line.rxQueue = b :: rest := hq
      rcases accMove_transition hm hne with ⟨rfl, ht⟩ | ⟨hb, ht⟩
      · exact .inr (.inr (.inl ⟨hs, congrArg List.head? hq, ht⟩))
      · exact .inr (.inr (.inr (.inl ⟨hs, by simp [hq], by simpa [hq] using hb, ht⟩)))
    · obtain ⟨he, hr, ht⟩ := decMove_transition hm hne
      exact .inr (.inr (.inr (.inr (.inl ⟨hs, hi, he, ⟨b, hb, hr⟩, ht⟩))))
    · rcases hm with ⟨he, rfl⟩ | ⟨he, ho, _, _, -, -, rfl⟩ | ⟨he, ho, rfl⟩
      · exact .inr (.inr (.inr (.inr (.inr (.inl ⟨hs, hl, he, rfl, rfl⟩)))))
      · exact .inr (.inr (.inr (.inr (.inr (.inr (.inl ⟨hs, hl, he, ho, rfl, rfl⟩))))))
      · exact .inr (.inr (.inr (.inr (.inr (.inr (.inr ⟨hs, hl, he, ho, rfl, rfl⟩))))))
  | tx | line | encoder | decoder | framer =>
    exact absurd (congrArg RxUnit.state (agentStep_rx_eq (by decide) (by decide) h)) hne

/-- The host's step leaves the RX unit alone, or takes a RESET or SCAN_START (R173). -/
theorem host_step_rx (h : agentStep .host s = .next t) :
    t.rx = s.rx ∨ s.host.head? = some .reset ∨ s.host.head? = some .scanStart := by
  rcases host_step_cases h with rfl | ⟨rest, hh, rfl⟩ | ⟨rest, hh, -, rfl⟩ | ⟨p, rest, -, -, hb⟩
  · exact .inl rfl
  · exact .inr (.inl (congrArg List.head? hh))
  · exact .inr (.inr (congrArg List.head? hh))
  · obtain ⟨x, rfl⟩ := buildFrameIntoTxb_frame hb
    exact .inl rfl

/-- Settles O49: in `Done` the RX unit finds nothing, so only the host's commands write it; the outputs on an error are
those of the status (R34) and the invariants. -/
theorem doneHoldsTheResult : Obligations.DoneHoldsTheResult := by
  intro s t hs h
  obtain ⟨ts, n, hu⟩ := nextTurn_eq s
  rw [step, hu] at h
  rw [hu]
  have hrest (ha : (nextTurn s).1 = .rx) : t = { s with turns := ts, tick := n } := by
    rw [ha, agentStep_of_hold (by decide) (fetch_rx_of_resting (s := { s with turns := ts, tick := n }) (.inr hs))] at h
    exact (Host.Outcome.next.inj h).symm
  refine ⟨?_, hrest, fun hinv hne => ⟨if_neg hne, hinv.rxInv.declaredOnlyOk hne⟩⟩
  by_cases hr : (nextTurn s).1 = .rx
  · exact .inl (by rw [hrest hr])
  · by_cases hh : (nextTurn s).1 = .host
    · rw [hh] at h
      exact (host_step_rx h).imp_right fun hc => ⟨hh, hc⟩
    · exact .inl (agentStep_rx_eq (s := { s with turns := ts, tick := n }) hr hh h)

end Transitions

end Sys2Proof.ScannerRows

/-! PROOFS. The function `scan_frame` (spec/42_frame_scanner.md, R151, R171 to R177): the statements
`ScanFrameIsReadUntil`, `BytesConsumedByOutcome`, `ScannerRecoversBuiltFrames` and `EveryDeclaredLengthIsPassedOn`, with
what they rest on. -/
namespace Sys2Proof.ScanFunction
open Sys2Proof.Codec Sys2Proof.Laws Sys2Proof.StateRules Sys2Proof.MemoryRules Sys2Proof.EncodingRules
  Sys2Proof.CodecRules Sys2Proof.FrameRules

/-! ## The byte source (R151) -/

section ReadUntil
variable {d : Byte} {n : Nat} {st : List Byte}

/-- The marker `d` is found behind fewer than `n` bytes that are not `d`. -/
theorem readUntil_found {skipped : List Byte} (rest : List Byte) (hd : d ∉ skipped) (hn : skipped.length < n) :
    readUntil d n (skipped ++ d :: rest) = .found (skipped ++ [d]) rest := by
  induction skipped generalizing n with
  | nil =>
    obtain ⟨n, rfl⟩ := Nat.exists_eq_add_of_lt hn
    simp [readUntil]
  | cons b skipped ih =>
    rw [List.mem_cons, not_or] at hd
    obtain ⟨n, rfl⟩ := Nat.exists_eq_add_of_lt hn
    rw [List.cons_append, readUntil, if_neg (Ne.symm hd.1), ih hd.2 (Nat.lt_of_succ_lt_succ hn)]
    rfl

/-- `n` bytes that are not `d` exhaust the limit. -/
theorem readUntil_notFound {skipped : List Byte} (rest : List Byte) (hd : d ∉ skipped) :
    readUntil d skipped.length (skipped ++ rest) = .notFound skipped rest := by
  induction skipped with
  | nil => simp [readUntil]
  | cons b skipped ih =>
    rw [List.mem_cons, not_or] at hd
    rw [List.cons_append, List.length_cons, readUntil, if_neg (Ne.symm hd.1), ih hd.2]
    rfl

/-- What an answer of `read_until(d, n)` on `st` says of `st` (R151). -/
def AnswerOf (d : Byte) (n : Nat) (st : List Byte) : ReadUntil → Prop
  | .found taken rest => ∃ skipped, taken = skipped ++ [d] ∧ d ∉ skipped ∧ skipped.length < n ∧ st = skipped ++ d :: rest
  | .notFound taken rest => d ∉ taken ∧ taken.length = n ∧ st = taken ++ rest
  | .dry => st.length < n

/-- A byte that is not `d` in front of the stream is one more byte skipped. -/
theorem answerOf_cons {b : Byte} (hb : b ≠ d) {r : ReadUntil} (h : AnswerOf d n st r) :
    AnswerOf d (n + 1) (b :: st) (r.cons b) := by
  cases r with
  | found taken rest =>
    obtain ⟨skipped, rfl, hd, hn, rfl⟩ := h
    exact ⟨b :: skipped, rfl, by simp [hd, hb.symm], Nat.succ_lt_succ hn, rfl⟩
  | notFound taken rest =>
    obtain ⟨hd, rfl, rfl⟩ := h
    exact ⟨by simp [hd, hb.symm], rfl, rfl⟩
  | dry => exact Nat.succ_lt_succ h

theorem answerOf_readUntil (d : Byte) (n : Nat) (st : List Byte) : AnswerOf d n st (readUntil d n st) := by
  induction n generalizing st with
  | zero => exact ⟨List.not_mem_nil, rfl, rfl⟩
  | succ n ih =>
    cases st with
    | nil => exact Nat.succ_pos n
    | cons b st =>
      rw [readUntil]
      split
      · next hb => exact ⟨[], by simp [hb], List.not_mem_nil, Nat.succ_pos n, by simp [hb]⟩
      · next hb => exact answerOf_cons hb (ih st)

/-- Bytes after those taken do not change what is found. -/
theorem readUntil_append_of_found {taken rest : List Byte} (more : List Byte)
    (h : readUntil d n st = .found taken rest) : readUntil d n (st ++ more) = .found taken (rest ++ more) := by
  have hr := answerOf_readUntil d n st
  rw [h] at hr
  obtain ⟨skipped, rfl, hd, hn, rfl⟩ := hr
  rw [List.append_assoc]
  exact readUntil_found (rest ++ more) hd hn

theorem readUntil_append_of_notFound {taken rest : List Byte} (more : List Byte)
    (h : readUntil d n st = .notFound taken rest) : readUntil d n (st ++ more) = .notFound taken (rest ++ more) := by
  have hr := answerOf_readUntil d n st
  rw [h] at hr
  obtain ⟨hd, rfl, rfl⟩ := hr
  rw [List.append_assoc]
  exact readUntil_notFound (rest ++ more) hd

end ReadUntil

/-! ## The two loops of `scan_frame` are `read_until` (R151, R171) -/

section Loops

/-- The second loop's result, from the answer of `read_until` for the end marker: `pos` bytes were consumed before, and
`body` accumulated. -/
def accResult (pos : Nat) (body : List Byte) : ReadUntil → ScanResult
  | .dry => .blocked
  | .notFound taken _ => .err .endMarkerNotFound (pos + taken.length)
  | .found taken _ => scanFinish (pos + taken.length) (body ++ taken.dropLast)

/-- The first loop's result, from the answer of `read_until` for the start marker: `pos` bytes were consumed before. -/
def huntResult (m pos : Nat) : ReadUntil → ScanResult
  | .dry => .blocked
  | .notFound taken _ => .err .startMarkerNotFound (pos + taken.length)
  | .found taken rest => accResult (pos + taken.length) [] (readUntil Config.endMarker m rest)

/-- A byte skipped in front of an answer for the end marker is a byte accumulated. -/
theorem accResult_cons {n pos : Nat} {body st : List Byte} (b : Byte) :
    accResult pos body ((readUntil Config.endMarker n st).cons b) =
      accResult (pos + 1) (body ++ [b]) (readUntil Config.endMarker n st) := by
  have hr := answerOf_readUntil Config.endMarker n st
  cases h : readUntil Config.endMarker n st with
  | dry => rfl
  | notFound taken rest => simp [ReadUntil.cons, accResult, Nat.add_assoc, Nat.add_comm 1]
  | found taken rest =>
    rw [h] at hr
    obtain ⟨skipped, rfl, -⟩ := hr
    have hlast : (b :: (skipped ++ [Config.endMarker])).dropLast = b :: skipped :=
      List.dropLast_concat (l₁ := b :: skipped)
    simp [ReadUntil.cons, accResult, Nat.add_assoc, Nat.add_comm 1, hlast]

theorem huntResult_cons {m pos : Nat} (b : Byte) (r : ReadUntil) :
    huntResult m pos (r.cons b) = huntResult m (pos + 1) r := by
  cases r <;> simp [ReadUntil.cons, huntResult, Nat.add_assoc, Nat.add_comm 1]

/-- The second loop with `n + 1` bytes of the limit left. -/
theorem scanAcc_eq {m pos cnt n : Nat} {body st : List Byte} (hm : cnt + n + 1 = m) :
    scanAcc m pos cnt body st = accResult pos body (readUntil Config.endMarker (n + 1) st) := by
  induction st generalizing pos cnt n body with
  | nil => rfl
  | cons b st ih =>
    rw [scanAcc, readUntil]
    by_cases hb : b = Config.endMarker
    · simp [hb, accResult]
    · rw [if_neg hb, if_neg hb, accResult_cons]
      cases n with
      | zero => rw [if_pos (by omega)]; simp [readUntil, accResult]
      | succ n => rw [if_neg (by omega), ih (n := n) (by omega)]

/-- The first loop with `n + 1` bytes of the limit left. -/
theorem scanHunt_eq {m pos cnt n : Nat} {st : List Byte} (hm : cnt + n + 1 = m) :
    scanHunt m pos cnt st = huntResult m pos (readUntil Config.startMarker (n + 1) st) := by
  induction st generalizing pos cnt n with
  | nil => rfl
  | cons b st ih =>
    rw [scanHunt, readUntil]
    by_cases hb : b = Config.startMarker
    · rw [if_pos hb, if_pos hb, scanAcc_eq (n := m - 1) (by omega), Nat.sub_add_cancel (by omega)]
      rfl
    · rw [if_neg hb, if_neg hb, huntResult_cons]
      cases n with
      | zero => rw [if_pos (by omega)]; simp [readUntil, huntResult]
      | succ n => rw [if_neg (by omega), ih (n := n) (by omega)]

theorem scanFrame_eq {m : Nat} (hm : 1 ≤ m) (st : List Byte) :
    scanFrame m st = huntResult m 0 (readUntil Config.startMarker m st) := by
  rw [scanFrame, scanHunt_eq (n := m - 1) (by omega), Nat.sub_add_cancel hm]

end Loops

/-! ## Streams (R171) -/

section Streams
variable {m n pos : Nat} {body : List Byte}

theorem getElem?_of_drop_eq_cons {st rest : List Byte} {b : Byte} (h : st.drop pos = b :: rest) :
    st[pos]? = some b ∧ st.drop (pos + 1) = rest := by
  refine ⟨?_, ?_⟩
  · rw [← Nat.add_zero pos, ← List.getElem?_drop, h]
    rfl
  · rw [← List.drop_drop, h]
    rfl

theorem getElem?_of_drop_eq_nil {st : List Byte} (h : st.drop pos = []) : st[pos]? = none :=
  List.getElem?_eq_none (List.drop_eq_nil_iff.mp h)

theorem scanStreamAcc_finite (st : List Byte) :
    scanStreamAcc (finiteStream st) n pos body = accResult pos body (readUntil Config.endMarker n (st.drop pos)) := by
  induction n generalizing pos body with
  | zero => rfl
  | succ n ih =>
    rw [scanStreamAcc, finiteStream]
    cases hst : st.drop pos with
    | nil =>
      rw [getElem?_of_drop_eq_nil hst]
      rfl
    | cons b rest =>
      obtain ⟨hb, hrest⟩ := getElem?_of_drop_eq_cons hst
      simp only [hb, readUntil]
      split
      · simp [accResult]
      · rw [accResult_cons, ← hrest]
        exact ih

theorem scanStreamHunt_finite (st : List Byte) :
    scanStreamHunt m (finiteStream st) n pos = huntResult m pos (readUntil Config.startMarker n (st.drop pos)) := by
  induction n generalizing pos with
  | zero => rfl
  | succ n ih =>
    rw [scanStreamHunt, finiteStream]
    cases hst : st.drop pos with
    | nil =>
      rw [getElem?_of_drop_eq_nil hst]
      rfl
    | cons b rest =>
      obtain ⟨hb, hrest⟩ := getElem?_of_drop_eq_cons hst
      simp only [hb, readUntil]
      split
      · rw [huntResult, ← hrest]
        exact scanStreamAcc_finite st
      · rw [huntResult_cons, ← hrest]
        exact ih

theorem scanStream_finite (hm : 1 ≤ m) (st : List Byte) : scanStream m (finiteStream st) = scanFrame m st := by
  rw [scanStream, scanStreamHunt_finite, scanFrame_eq hm, List.drop_zero]

/-- The second loop reads no byte past the limit. -/
theorem scanStreamAcc_congr {st st' : ByteStream} (h : ∀ i, i < pos + n → st i = st' i) :
    scanStreamAcc st n pos body = scanStreamAcc st' n pos body := by
  induction n generalizing pos body with
  | zero => rfl
  | succ n ih =>
    have hrest (body : List Byte) := ih (pos := pos + 1) (body := body) fun i hi => h i (by omega)
    simp only [scanStreamAcc, h pos (by omega), hrest]

/-- The two loops read no byte past the two limits. -/
theorem scanStreamHunt_congr {st st' : ByteStream} (h : ∀ i, i < pos + n + m → st i = st' i) :
    scanStreamHunt m st n pos = scanStreamHunt m st' n pos := by
  induction n generalizing pos with
  | zero => rfl
  | succ n ih =>
    have hacc := scanStreamAcc_congr (n := m) (pos := pos + 1) (body := []) fun i hi => h i (by omega)
    have hrest := ih (pos := pos + 1) fun i hi => h i (by omega)
    simp only [scanStreamHunt, h pos (by omega), hacc, hrest]

/-- An infinite stream scans as its first `2 * MAX_FRAME_LEN` bytes or more do. -/
theorem scanStream_infinite (hm : 1 ≤ m) (byteAt : Nat → Byte) (hn : 2 * m ≤ n) :
    scanStream m (infiniteStream byteAt) = scanFrame m ((List.range n).map byteAt) := by
  rw [← scanStream_finite hm]
  refine scanStreamHunt_congr fun i hi => ?_
  simp [infiniteStream, finiteStream, List.getElem?_range (show i < n by omega)]

end Streams

/-! ## Results -/

section Results
variable {m : Nat} {st : List Byte}

/-- The last part of `scan_frame` gives a message or an error of the body, at the position it is given. -/
theorem scanFinish_cases (pos : Nat) (body : List Byte) :
    (∃ k, k ≠ .startMarkerNotFound ∧ k ≠ .endMarkerNotFound ∧ scanFinish pos body = .err k pos) ∨
    ∃ declared payload, scanFinish pos body = .ok declared payload pos := by
  have hout := outcomeCondition_decodeBytes body
  unfold scanFinish
  split
  · next k hk =>
    rw [hk] at hout
    exact .inl ⟨k, by rintro rfl; exact hout, by rintro rfl; exact hout, rfl⟩
  · exact .inr ⟨_, _, rfl⟩
  · exact .inl ⟨_, by decide, by decide, rfl⟩

/-- Bytes after those consumed do not change a result. -/
theorem scanFrame_append (hm : 1 ≤ m) (more : List Byte) (h : scanFrame m st ≠ .blocked) :
    scanFrame m (st ++ more) = scanFrame m st := by
  rw [scanFrame_eq hm] at h
  rw [scanFrame_eq hm, scanFrame_eq hm]
  cases hs : readUntil Config.startMarker m st with
  | dry =>
    rw [hs] at h
    exact absurd rfl h
  | notFound taken rest => rw [readUntil_append_of_notFound more hs]; rfl
  | found taken rest =>
    rw [readUntil_append_of_found more hs, huntResult, huntResult]
    cases he : readUntil Config.endMarker m rest with
    | dry =>
      rw [hs, huntResult, he] at h
      exact absurd rfl h
    | notFound taken' rest' => rw [readUntil_append_of_notFound more he]; rfl
    | found taken' rest' => rw [readUntil_append_of_found more he]; rfl

/-- `h` bytes of `st` end with the marker `d`, the only one among them, within the limit `m`. -/
def MarkerAt (d : Byte) (m : Nat) (st : List Byte) (h : Nat) : Prop :=
  1 ≤ h ∧ h ≤ m ∧ st[h - 1]? = some d ∧ d ∉ st.take (h - 1)

theorem markerAt_of_found {d : Byte} {taken rest : List Byte} (h : readUntil d m st = .found taken rest) :
    MarkerAt d m st taken.length ∧ rest = st.drop taken.length := by
  have hr := answerOf_readUntil d m st
  rw [h] at hr
  obtain ⟨skipped, rfl, hd, hn, rfl⟩ := hr
  refine ⟨⟨?_, ?_, ?_, ?_⟩, ?_⟩ <;> simp [hd]
  omega

/-- The results of `scan_frame`, with the places of the markers (R177). -/
theorem scanFrame_cases (hm : 1 ≤ m) (st : List Byte) :
    (scanFrame m st = .blocked ∧ st.length < 2 * m) ∨
    scanFrame m st = .err .startMarkerNotFound m ∨
    (∃ h, MarkerAt Config.startMarker m st h ∧ scanFrame m st = .err .endMarkerNotFound (h + m)) ∨
    ∃ h e body, MarkerAt Config.startMarker m st h ∧ MarkerAt Config.endMarker m (st.drop h) e ∧
      scanFrame m st = scanFinish (h + e) body := by
  rw [scanFrame_eq hm]
  have hr := answerOf_readUntil Config.startMarker m st
  cases hs : readUntil Config.startMarker m st with
  | dry =>
    rw [hs] at hr
    have hr : st.length < m := hr
    exact .inl ⟨rfl, by omega⟩
  | notFound taken rest =>
    rw [hs] at hr
    obtain ⟨-, rfl, -⟩ := hr
    exact .inr (.inl (by rw [huntResult, Nat.zero_add]))
  | found taken rest =>
    obtain ⟨hmark, rfl⟩ := markerAt_of_found hs
    have hr := answerOf_readUntil Config.endMarker m (st.drop taken.length)
    rw [huntResult, Nat.zero_add]
    cases he : readUntil Config.endMarker m (st.drop taken.length) with
    | dry =>
      rw [he] at hr
      have hr : (st.drop taken.length).length < m := hr
      obtain ⟨-, hle, -⟩ := hmark
      rw [List.length_drop] at hr
      exact .inl ⟨rfl, by omega⟩
    | notFound taken' rest' =>
      rw [he] at hr
      obtain ⟨-, rfl, -⟩ := hr
      exact .inr (.inr (.inl ⟨_, hmark, rfl⟩))
    | found taken' rest' =>
      obtain ⟨hmark', -⟩ := markerAt_of_found he
      exact .inr (.inr (.inr ⟨_, _, _, hmark, hmark', rfl⟩))

/-- `2 * MAX_FRAME_LEN` bytes are enough for a result (R177). -/
theorem scanFrame_ne_blocked (hm : 1 ≤ m) (hl : 2 * m ≤ st.length) : scanFrame m st ≠ .blocked := by
  rcases scanFrame_cases hm st with ⟨-, hlt⟩ | hres | ⟨h, -, hres⟩ | ⟨h, e, body, -, -, hres⟩
  · omega
  · simp [hres]
  · simp [hres]
  · rcases scanFinish_cases (h + e) body with ⟨k, -, -, hfin⟩ | ⟨declared, payload, hfin⟩ <;> simp [hres, hfin]

/-- Settles O53: each loop, of a list or of a stream, is `read_until` for its marker, and reads nothing past its
limit. -/
theorem scanFrameIsReadUntil : Obligations.ScanFrameIsReadUntil := by
  intro m st hm
  refine ⟨?_, fun more => scanFrame_append hm more, scanStream_finite hm st, fun byteAt => ⟨?_, fun n hn => ?_⟩⟩
  · rw [scanFrame_eq hm]
    cases readUntil Config.startMarker m st with
    | dry => rfl
    | notFound taken rest => rw [huntResult, Nat.zero_add]
    | found taken rest =>
      rw [huntResult, Nat.zero_add]
      cases hr : readUntil Config.endMarker m rest <;> simp only [accResult, hr, List.nil_append]
  · rw [scanStream_infinite hm byteAt (Nat.le_refl _)]
    exact scanFrame_ne_blocked hm (by simp)
  · exact scanStream_infinite hm byteAt hn

/-- Settles O56: the four results, each with the places of the markers it rests on. -/
theorem bytesConsumedByOutcome : Obligations.BytesConsumedByOutcome := by
  intro m st hm
  rcases scanFrame_cases (by omega : 1 ≤ m) st with ⟨hres, -⟩ | hres | ⟨h, ⟨h1, hle, hat, hno⟩, hres⟩ |
    ⟨h, e, body, ⟨h1, hle, hat, hno⟩, ⟨e1, ele, eat, eno⟩, hres⟩
  · simp [hres]
  · have hc : m ≤ 2 * m := by omega
    simpa [hres] using hc
  · have hc : h + m ≤ 2 * m := by omega
    simpa [hres] using And.intro hc ⟨h1, hle, hat, hno⟩
  · rw [List.getElem?_drop, ← Nat.add_sub_assoc e1] at eat
    have hc : h + e ≤ 2 * m := by omega
    have hplaces : ∃ h' e', 1 ≤ h' ∧ h' ≤ m ∧ 1 ≤ e' ∧ e' ≤ m ∧ st[h' - 1]? = some 0xFE#8 ∧
        0xFE#8 ∉ st.take (h' - 1) ∧ st[h' + e' - 1]? = some 0xFF#8 ∧ 0xFF#8 ∉ (st.drop h').take (e' - 1) ∧
        h + e = h' + e' := ⟨h, e, h1, hle, e1, ele, hat, hno, eat, eno, rfl⟩
    rcases scanFinish_cases (h + e) body with ⟨k, hks, hke, hfin⟩ | ⟨declared, payload, hfin⟩
    · simpa [hres, hfin, hks, hke] using And.intro hc hplaces
    · simpa [hres, hfin] using And.intro hc hplaces

/-! ## Frames recovered (R174, R176) -/

/-- `scan_frame` on an encoded body between markers, behind bytes without a start marker, each loop within the limit
(R171). -/
theorem scanFrame_skipped_encoded {g x : List Byte} (rest : List Byte) (hg : Config.startMarker ∉ g)
    (hgm : g.length + 1 ≤ m) (hxm : (encodeBytes x).length + 1 ≤ m) :
    scanFrame m (g ++ Config.startMarker :: (encodeBytes x ++ Config.endMarker :: rest)) =
      scanFinish (g.length + ((encodeBytes x).length + 2)) (encodeBytes x) := by
  have hno : Config.endMarker ∉ encodeBytes x := fun h => (encodeBytes_ne_marker h).2 rfl
  rw [scanFrame_eq (by omega), readUntil_found _ hg hgm, huntResult, readUntil_found rest hno hxm, accResult]
  congr 1
  · simp
    omega
  · simp

/-- The bytes before a frame within the limit are consumed with it, and it is recovered as it is alone (R176). -/
theorem scanFrame_skipped_frame {g p : List Byte} (rest : List Byte) (hg : Config.startMarker ∉ g)
    (hgm : g.length + 1 ≤ m) (hm : (frameBytes p).length ≤ m) :
    scanFrame m (g ++ frameBytes p ++ rest) =
      .ok (BitVec.ofNat 16 (p.length + 2)) p (g.length + (frameBytes p).length) := by
  have hlen : (frameBytes p).length = (encodeBytes (lenBytes (p.length + 2) ++ p)).length + 2 := by
    simp [frameBytes_eq]
  calc scanFrame m (g ++ frameBytes p ++ rest)
      = scanFrame m (g ++ Config.startMarker ::
          (encodeBytes (lenBytes (p.length + 2) ++ p) ++ Config.endMarker :: rest)) := by simp [frameBytes_eq]
    _ = scanFinish (g.length + (frameBytes p).length) (encodeBytes (lenBytes (p.length + 2) ++ p)) := by
      rw [scanFrame_skipped_encoded rest hg hgm (by omega), hlen]
    _ = .ok (BitVec.ofNat 16 (p.length + 2)) p (g.length + (frameBytes p).length) := by
      rw [← be16_lenBytes]
      exact scanFinish_encoded ..

/-- Settles O57: the length field is the encoding of the declared value, which the scanner reads back as it is. -/
theorem everyDeclaredLengthIsPassedOn : Obligations.EveryDeclaredLengthIsPassedOn := by
  intro m declared p rest hm hl
  have hbe : be16 (BitVec.ofNat 8 (declared.toNat / 256)) (BitVec.ofNat 8 (declared.toNat % 256)) = declared := by
    rw [be16_lenBytes, BitVec.ofNat_toNat, BitVec.setWidth_eq]
  rw [scanFrame_encoded rest hl]
  exact (scanFinish_encoded _ _ _ p).trans (by rw [hbe])

/-- Settles O55: the junk is skipped within the limit, and a built frame fits it, so its length value fits 16 bits. -/
theorem scannerRecoversBuiltFrames : Obligations.ScannerRecoversBuiltFrames := by
  intro m p f g rest hm4 hmg hf hg hgl
  have hm := length_le_of_buildFrame hf
  obtain rfl := eq_frameBytes_of_buildFrame hf
  refine ⟨scanFrame_frameBytes rest hm, scanFrame_skipped_frame rest hg (by omega) hm, ?_⟩
  rw [length_frameBytes] at hm
  rw [BitVec.toNat_ofNat, Nat.mod_eq_of_lt (by omega), Nat.add_comm]

end Results

end Sys2Proof.ScanFunction

/-! PROOFS. A scan attempt of the RX unit is a run of `scan_frame` (spec/42_frame_scanner.md, R175 and R178): the
statements `ScannerRunIsScanFrame` and `NoLeakageBetweenAttempts`, with what they rest on. Between the RX unit, whose
buffers hold the remains of earlier attempts, and the function `scan_frame` stands `Attempt`: what the present attempt
has come to. Each turn of the unit follows one step of it (`rx_step_follows`), and its run is `scan_frame`
(`reaches_scanFrame`). -/
namespace Sys2Proof.ScanAttempt
open Sys2Proof.Machine Sys2Proof.Laws Sys2Proof.Scope Sys2Proof.StateRules Sys2Proof.EncodingRules Sys2Proof.CodecRules
  Sys2Proof.ScannerRows Sys2Proof.ScanFunction

/-! ## The bytes an attempt has written -/

section Stored
variable {mem : Memory} {i : Nat} {b : Byte} {bs : List Byte}

/-- The bytes `bs` stand in the buffer from index `i` on. -/
def StoredAt (mem : Memory) (i : Nat) (bs : List Byte) : Prop :=
  ∀ k, k < bs.length → Memory.read mem (i + k) = bs[k]?

theorem storedAt_nil (mem : Memory) (i : Nat) : StoredAt mem i [] := nofun

/-- A byte written behind the bytes that stand there from index 0 on. -/
theorem storedAt_write (h : StoredAt mem 0 bs) (b : Byte) : StoredAt (Memory.write mem bs.length b) 0 (bs ++ [b]) := by
  intro k hk
  rw [List.length_append, List.length_singleton] at hk
  rw [read_write, Nat.zero_add]
  split
  · next e => simp [e]
  · next hne =>
    have hlt : k < bs.length := by omega
    rw [List.getElem?_append_left hlt, ← h k hlt, Nat.zero_add]

theorem read_of_storedAt (h : StoredAt mem i (b :: bs)) : Memory.read mem i = some b :=
  h 0 (Nat.succ_pos _)

theorem storedAt_tail (h : StoredAt mem i (b :: bs)) : StoredAt mem (i + 1) bs := by
  intro k hk
  rw [Nat.add_assoc, Nat.add_comm 1]
  exact h (k + 1) (Nat.succ_lt_succ hk)

end Stored

/-! ## Attempts -/

/-- What a scan attempt has come to, with no trace of the attempts before it. -/
inductive Attempt where
  /-- `ScanningForStart`, with `n` bytes consumed. -/
  | hunting (n : Nat)
  /-- `AccumulatingUntilEnd`, with the body so far. -/
  | accumulating (body : List Byte)
  /-- `Decoding`: the body's bytes not yet parsed, what is emitted so far, and the parser flag. -/
  | decoding (rest out : List Byte) (esc : Bool)
  /-- `Done`, with an error. -/
  | failed (k : ErrorKind)
  /-- `Done`, with a message. -/
  | received (declared : Half) (payload : List Byte)

/-- The attempt's end, from the decoding of the body (R171). -/
def endOf : Codec.Result → Attempt
  | .error k => .failed k
  | .ok (hi :: lo :: p) => .received (Codec.be16 hi lo) p
  | .ok _ => .failed .frameTooShort

/-- One step of an attempt for the parameter `m`, with the receive sequence (R154 to R170); where the unit holds, the
step changes nothing. -/
def attemptStep (m : Nat) : Attempt × List Byte → Attempt × List Byte
  | (.hunting n, []) => (.hunting n, [])
  | (.hunting n, b :: queue) =>
    if b = Config.startMarker then (.accumulating [], queue)
    else if n + 1 < m then (.hunting (n + 1), queue)
    else if n + 1 = m then (.failed .startMarkerNotFound, queue)
    else (.hunting n, b :: queue)
  | (.accumulating body, []) => (.accumulating body, [])
  | (.accumulating body, b :: queue) =>
    if b = Config.endMarker then (.decoding body [] false, queue)
    else if body.length + 1 < m then (.accumulating (body ++ [b]), queue)
    else if body.length + 1 = m then (.failed .endMarkerNotFound, queue)
    else (.accumulating body, b :: queue)
  | (.decoding [] out esc, queue) =>
    match Codec.parseEnd esc with
    | some k => (.failed k, queue)
    | none => (endOf (.ok out), queue)
  | (.decoding (b :: rest) out esc, queue) =>
    match Codec.parse1 esc b with
    | .next esc' emitted => (.decoding rest (out ++ emitted.toList) esc', queue)
    | .error k => (.failed k, queue)
  | (.failed k, queue) => (.failed k, queue)
  | (.received declared payload, queue) => (.received declared payload, queue)

/-- The registers that no step of an attempt has written before the body is decoded (R33). -/
structure Fresh (r : RxUnit) : Prop where
  decIdx : r.decIdx = 0
  outLen : r.outLen = 0
  escPending : r.escPending = false
  status : r.status = .none
  declaredLength : r.declaredLength = 0#16

/-- The RX unit stands where the attempt does. Nothing is said of the buffers' bytes at or above the valid lengths. -/
inductive Shows (m : Nat) (r : RxUnit) : Attempt → Prop where
  | hunting (hs : r.state = .scanningForStart) (hl : r.len = 0) (hf : Fresh r) : Shows m r (.hunting r.count)
  | accumulating {body : List Byte} (hs : r.state = .accumulatingUntilEnd) (hc : r.count = body.length)
      (hl : r.len = body.length) (hm : r.len ≤ m - 1) (hb : StoredAt r.rxb 0 body) (hf : Fresh r) :
      Shows m r (.accumulating body)
  | decoding {rest out : List Byte} (hs : r.state = .decoding) (hl : r.decIdx + rest.length = r.len)
      (hm : r.len ≤ m - 1) (ho : r.outLen = out.length) (hi : r.outLen ≤ r.decIdx) (hb : StoredAt r.rxb r.decIdx rest)
      (hout : StoredAt r.out 0 out) (hst : r.status = .none) (hd : r.declaredLength = 0#16) :
      Shows m r (.decoding rest out r.escPending)
  | failed {k : ErrorKind} (hs : r.state = .done) (hst : rxStatusOf k = some r.status) (hd : r.declaredLength = 0#16) :
      Shows m r (.failed k)
  | received {payload : List Byte} (hs : r.state = .done) (hst : r.status = .ok) (ho : r.outLen = payload.length + 2)
      (hm : r.outLen ≤ m - 1) (hout : StoredAt r.out 2 payload) : Shows m r (.received r.declaredLength payload)

/-! ## The outputs of an attempt (R34, R178) -/

/-- `rx_state` in an attempt. -/
def Attempt.state : Attempt → RxState
  | .hunting _ => .scanningForStart
  | .accumulating _ => .accumulatingUntilEnd
  | .decoding _ _ _ => .decoding
  | .failed _ => .done
  | .received _ _ => .done

/-- `rx_status` in an attempt; none for an error that the RX unit never raises. -/
def Attempt.status : Attempt → Option RxStatus
  | .hunting _ | .accumulating _ | .decoding _ _ _ => some .none
  | .failed k => rxStatusOf k
  | .received _ _ => some .ok

/-- `declared_length` in an attempt. -/
def Attempt.declared : Attempt → Half
  | .hunting _ | .accumulating _ | .decoding _ _ _ | .failed _ => 0#16
  | .received declared _ => declared

/-- `res_payload` in an attempt. -/
def Attempt.payload : Attempt → List Byte
  | .hunting _ | .accumulating _ | .decoding _ _ _ | .failed _ => []
  | .received _ payload => payload

section Outputs
variable {m : Nat} {r : RxUnit} {t : State} {a : Attempt}

theorem state_of_shows (h : Shows m r a) : r.state = a.state := by
  cases h <;> assumption

theorem status_of_shows (h : Shows m r a) : a.status = some r.status := by
  cases h with
  | hunting hs hl hf => exact congrArg some hf.status.symm
  | accumulating hs hc hl hm hb hf => exact congrArg some hf.status.symm
  | decoding hs hl hm ho hi hb hout hst hd => exact congrArg some hst.symm
  | failed hs hst hd => exact hst
  | received hs hst ho hm hout => exact congrArg some hst.symm

theorem declared_of_shows (h : Shows m r a) : r.declaredLength = a.declared := by
  cases h with
  | hunting hs hl hf => exact hf.declaredLength
  | accumulating hs hc hl hm hb hf => exact hf.declaredLength
  | decoding hs hl hm ho hi hb hout hst hd => exact hd
  | failed hs hst hd => exact hd
  | received => rfl

theorem rxStatusOf_ne_ok (k : ErrorKind) : rxStatusOf k ≠ some .ok := by
  cases k <;> decide

/-- The payload reads as the bytes decoded after the length field, or as empty. -/
theorem resPayload_of_shows (h : Shows t.maxFrameLen t.rx a) : resPayload t = some a.payload := by
  have hst := status_of_shows h
  cases h with
  | hunting | accumulating | decoding => exact if_neg (by simp [← Option.some.inj hst])
  | failed => exact if_neg fun hok => rxStatusOf_ne_ok _ (hst.trans (congrArg some hok))
  | received hs hok ho hm hout =>
    refine (if_pos hok).trans (memReadBlock_eq_some.mpr ⟨by simp [Attempt.payload, ho], fun k hk => ?_⟩)
    have hk : k < t.rx.outLen - 2 := hk
    have hlt : 2 + k < t.rx.outLen := by omega
    exact (if_pos ⟨hlt, Nat.lt_of_lt_of_le hlt hm⟩).trans (hout k (by omega))

end Outputs

/-! ## A turn of the RX unit follows a step of the attempt -/

section Turns
variable {s : State}

/-- SCAN_START begins a fresh attempt, whatever the unit held (R152). -/
theorem shows_recoverRx (s : State) : Shows s.maxFrameLen (recoverRx s).rx (.hunting 0) :=
  .hunting rfl rfl ⟨rfl, rfl, rfl, rfl, rfl⟩

/-- The RX unit's turn takes the machine to the attempt and the receive sequence `y`, and writes nothing else. -/
def Follows (s : State) (y : Attempt × List Byte) : Prop :=
  ∃ r, agentStep .rx s = .next (setReceive r y.2 s) ∧ Shows s.maxFrameLen r y.1

theorem follows_of_hold {a : Attempt} (h : fetch .rx s = .hold) (ha : Shows s.maxFrameLen s.rx a) :
    Follows s (a, s.line.rxQueue) :=
  ⟨s.rx, agentStep_of_hold (by decide) h, ha⟩

/-- The byte offered is past the limit: no row reads it, and the unit holds (log 14). -/
theorem fetch_rx_of_past {c : Context} {b : Byte} {rest : List Byte} (hc : lineContext s = some c)
    (hq : s.line.rxQueue = b :: rest) (hd : decode c [b] = .reject .pastLimit) : fetch .rx s = .hold := by
  simp only [fetch_rx_of_ready (rxReady_of_lineContext hc), fetchLineByte, hc, hq, hd]

theorem rx_step_of_byte {c : Context} {b : Byte} {rest : List Byte} {i : Instr} (hc : lineContext s = some c)
    (hq : s.line.rxQueue = b :: rest) (hd : decode c [b] = .instr i []) :
    agentStep .rx s = exec i (leaveOnLine rest s) :=
  agentStep_of_take (fetch_rx_of_byte hc hq hd)

theorem hunting_follows {n : Nat} (h : Shows s.maxFrameLen s.rx (.hunting n)) :
    Follows s (attemptStep s.maxFrameLen (.hunting n, s.line.rxQueue)) := by
  cases h with
  | hunting hs hl hf =>
    have hc : lineContext s = some (.hunt (room s)) := by simp only [lineContext, hs]
    cases hq : s.line.rxQueue with
    | nil =>
      rw [attemptStep, ← hq]
      exact follows_of_hold (fetch_rx_of_dry (rxReady_of_lineContext hc) hq) (.hunting hs hl hf)
    | cons b rest =>
      have hrow {i : Instr} (hi : huntRow (room s) b = some i) : agentStep .rx s = exec i (leaveOnLine rest s) :=
        rx_step_of_byte hc hq (by simp only [decode, hi, Decoded.ofRow])
      obtain ⟨hstart, hskip, hlimit⟩ := huntRows (leaveOnLine rest s) b hs
      rw [attemptStep]
      by_cases hb : b = 0xFE#8
      · rw [if_pos hb]
        exact ⟨_, (hrow (if_pos hb)).trans hstart, .accumulating rfl rfl hl (by simp [hl]) (storedAt_nil _ _) { hf with }⟩
      · obtain ⟨hbelow, hlast⟩ := huntRow_of_ne hb
        rw [if_neg hb]
        rcases Nat.lt_trichotomy (s.rx.count + 1) s.maxFrameLen with hn | hn | hn
        · rw [if_pos hn]
          exact ⟨_, (hrow (room_below hn ▸ hbelow)).trans (hskip hb hn), .hunting hs hl { hf with }⟩
        · rw [if_neg (by omega), if_pos hn]
          exact ⟨_, (hrow (room_last hn ▸ hlast)).trans (hlimit hb hn), .failed rfl rfl hf.declaredLength⟩
        · rw [if_neg (by omega), if_neg (by omega), ← hq]
          refine follows_of_hold (fetch_rx_of_past hc hq ?_) (.hunting hs hl hf)
          rw [room_past hn, decode_hunt, huntRow, if_neg hb]
          rfl

theorem accumulating_follows {body : List Byte} (h : Shows s.maxFrameLen s.rx (.accumulating body)) :
    Follows s (attemptStep s.maxFrameLen (.accumulating body, s.line.rxQueue)) := by
  have hshow := h
  cases h with
  | accumulating hs hn hl hm hbody hf =>
    have hc : lineContext s = some (.acc (room s)) := by simp only [lineContext, hs]
    cases hq : s.line.rxQueue with
    | nil =>
      rw [attemptStep, ← hq]
      exact follows_of_hold (fetch_rx_of_dry (rxReady_of_lineContext hc) hq) hshow
    | cons b rest =>
      have hrow {i : Instr} (hi : accRow (room s) b = some i) : agentStep .rx s = exec i (leaveOnLine rest s) :=
        rx_step_of_byte hc hq (by simp only [decode, hi, Decoded.ofRow])
      obtain ⟨hend, -, hlimit⟩ := accRows (leaveOnLine rest s) b hs
      rw [attemptStep]
      by_cases hb : b = 0xFF#8
      · rw [if_pos hb]
        refine ⟨_, (hrow (if_pos hb)).trans hend, ?_⟩
        rw [← hf.escPending]
        exact .decoding rfl (by simp [hf.decIdx, hl]) hm hf.outLen (by simp [hf.outLen]) (by simpa [hf.decIdx] using hbody)
          (storedAt_nil _ _) hf.status hf.declaredLength
      · obtain ⟨hbelow, hlast⟩ := accRow_of_ne hb
        rw [if_neg hb, ← hn]
        rcases Nat.lt_trichotomy (s.rx.count + 1) s.maxFrameLen with hlt | hlt | hlt
        · have hstore := exec_accData (s := leaveOnLine rest s) hs hb hlt (show s.rx.len < s.maxFrameLen - 1 by omega)
          rw [if_pos hlt]
          refine ⟨_, (hrow (room_below hlt ▸ hbelow)).trans hstore, .accumulating hs ?_ ?_ ?_ ?_ { hf with }⟩
          · simp [hn]
          · simp [hl]
          · show s.rx.len + 1 ≤ s.maxFrameLen - 1
            omega
          · show StoredAt (Memory.write s.rx.rxb s.rx.len b) 0 (body ++ [b])
            rw [hl]
            exact storedAt_write hbody b
        · rw [if_neg (by omega), if_pos hlt]
          exact ⟨_, (hrow (room_last hlt ▸ hlast)).trans (hlimit hb hlt), .failed rfl rfl hf.declaredLength⟩
        · rw [if_neg (by omega), if_neg (by omega), ← hq]
          refine follows_of_hold (fetch_rx_of_past hc hq ?_) hshow
          rw [room_past hlt, decode_acc, accRow, if_neg hb]
          rfl

/-- The row of the next stored byte applies PARSE1, as the attempt does (R163). -/
theorem storedByte_follows {b : Byte} {rest out : List Byte} {esc : Bool}
    (h : Shows s.maxFrameLen s.rx (.decoding (b :: rest) out esc)) :
    Follows s (attemptStep s.maxFrameLen (.decoding (b :: rest) out esc, s.line.rxQueue)) := by
  cases h with
  | decoding hs hl hm ho hi hbody hout hst hd =>
    rw [List.length_cons] at hl
    have hlt : s.rx.decIdx < s.rx.len := by omega
    have hread : memRead .rxb s.rx.decIdx s = some b :=
      memRead_eq_some.mpr ⟨hlt, Nat.lt_of_lt_of_le hlt hm, read_of_storedAt hbody⟩
    have hstep := (agentStep_of_take (fetch_rx_of_body hs hlt hread)).trans
      (exec_stuffedRow_scanner hs hlt (show s.rx.outLen < s.maxFrameLen - 1 by omega))
    rw [attemptStep]
    cases hp : Codec.parse1 s.rx.escPending b with
    | error k =>
      obtain rfl := parse1_error hp
      rw [hp] at hstep
      exact ⟨_, hstep, .failed rfl rfl hd⟩
    | next esc emitted =>
      rw [hp] at hstep
      have hl' : s.rx.decIdx + 1 + rest.length = s.rx.len := by omega
      refine ⟨_, hstep, ?_⟩
      cases emitted with
      | none =>
        simp only [Option.toList_none, List.append_nil]
        exact .decoding (r := afterParse1 s.rx (.next esc none)) hs hl' hm ho (Nat.le_succ_of_le hi)
          (storedAt_tail hbody) hout hst hd
      | some v =>
        refine .decoding (r := afterParse1 s.rx (.next esc (some v))) hs hl' hm ?_ (Nat.succ_le_succ hi)
          (storedAt_tail hbody) ?_ hst hd
        · simp [afterParse1, ho]
        · rw [afterParse1, ho]
          exact storedAt_write hout v

/-- The case of FIN is the attempt's end (R168 to R170, R215). -/
theorem endOfBody_follows {out : List Byte} {esc : Bool} (h : Shows s.maxFrameLen s.rx (.decoding [] out esc)) :
    Follows s (attemptStep s.maxFrameLen (.decoding [] out esc, s.line.rxQueue)) := by
  cases h with
  | decoding hs hl hm ho hi _ hout _ hd =>
    rw [List.length_nil, Nat.add_zero] at hl
    have hstep := agentStep_of_take (fetch_rx_of_end hs hl)
    obtain ⟨hmal, hok, hshort⟩ := finRows s hs hl
    rw [attemptStep]
    cases he : s.rx.escPending with
    | true =>
      rw [show finRow s = .finMalformed by simp [finRow, he], hmal he] at hstep
      exact ⟨_, hstep, .failed rfl rfl hd⟩
    | false =>
      match out with
      | [] | [_] =>
        have hlt : s.rx.outLen < 2 := by simp [ho]
        rw [show finRow s = .finShort by simp [finRow, he, Nat.not_le.mpr hlt], hshort he hlt] at hstep
        exact ⟨_, hstep, .failed rfl rfl hd⟩
      | b0 :: b1 :: p =>
        rw [List.length_cons, List.length_cons] at ho
        have h2 : 2 ≤ s.rx.outLen := by omega
        have hread {i : Nat} {b : Byte} (hi : i < 2) (hb : Memory.read s.rx.out i = some b) :
            memRead .out i s = some b :=
          memRead_eq_some.mpr ⟨Nat.lt_of_lt_of_le hi h2, show i < s.maxFrameLen - 1 by omega, hb⟩
        have h0 := hread (by decide) (read_of_storedAt hout)
        have h1 := hread (by decide) (read_of_storedAt (storedAt_tail hout))
        rw [show finRow s = .finOk by simp [finRow, he, h2], hok he h2 _ _ h0 h1] at hstep
        exact ⟨_, hstep, .received rfl rfl ho (show s.rx.outLen ≤ s.maxFrameLen - 1 by omega)
          (storedAt_tail (storedAt_tail hout))⟩

/-- A turn of the RX unit follows a step of the attempt it shows, whatever the buffers hold besides. -/
theorem rx_step_follows {a : Attempt} (h : Shows s.maxFrameLen s.rx a) :
    Follows s (attemptStep s.maxFrameLen (a, s.line.rxQueue)) := by
  cases a with
  | hunting n => exact hunting_follows h
  | accumulating body => exact accumulating_follows h
  | decoding rest out esc =>
    cases rest with
    | nil => exact endOfBody_follows h
    | cons b rest => exact storedByte_follows h
  | failed k => exact follows_of_hold (fetch_rx_of_resting (.inr (state_of_shows h))) h
  | received declared payload => exact follows_of_hold (fetch_rx_of_resting (.inr (state_of_shows h))) h

/-- `n` turns of the RX unit follow `n` steps of the attempt. -/
theorem agentRun_follows {a : Attempt} (n : Nat) (h : Shows s.maxFrameLen s.rx a) :
    ∃ t, agentRun .rx n s = .next t ∧ t.maxFrameLen = s.maxFrameLen ∧
      Shows s.maxFrameLen t.rx ((attemptStep s.maxFrameLen)^[n] (a, s.line.rxQueue)).1 ∧
      t.line.rxQueue = ((attemptStep s.maxFrameLen)^[n] (a, s.line.rxQueue)).2 := by
  rw [agentRun_eq_runSteps]
  generalize s.turns = ts
  induction n generalizing s a with
  | zero => exact ⟨_, runSteps_zero _, rfl, h, rfl⟩
  | succ n ih =>
    obtain ⟨r, hstep, hr⟩ := rx_step_follows (s := { s with turns := List.replicate n .rx ++ ts }) h
    obtain ⟨t, hrun, ht⟩ := ih (s := setReceive r _ s) hr
    have hturn : ({ s with turns := List.replicate (n + 1) .rx ++ ts } : State).turns =
        .rx :: (List.replicate n .rx ++ ts) := rfl
    exact ⟨t, (runSteps_succ ((step_of_turn hturn).trans hstep)).trans hrun, ht⟩

/-- `n` turns of the RX unit after SCAN_START follow `n` steps of a fresh attempt. -/
theorem agentRun_recoverRx (n : Nat) (s : State) :
    ∃ t, agentRun .rx n (recoverRx s) = .next t ∧ t.maxFrameLen = s.maxFrameLen ∧
      Shows s.maxFrameLen t.rx ((attemptStep s.maxFrameLen)^[n] (.hunting 0, s.line.rxQueue)).1 ∧
      t.line.rxQueue = ((attemptStep s.maxFrameLen)^[n] (.hunting 0, s.line.rxQueue)).2 :=
  agentRun_follows (s := recoverRx s) n (shows_recoverRx s)

end Turns

/-! ## An attempt's run is `scan_frame` (R171) -/

section Runs
variable {m : Nat} {queue : List Byte}

/-- Some number of steps takes the attempt and the receive sequence `x` to what meets `P`. -/
def Reaches (m : Nat) (x : Attempt × List Byte) (P : Attempt × List Byte → Prop) : Prop :=
  ∃ n, P ((attemptStep m)^[n] x)

theorem reaches_now {x : Attempt × List Byte} {P : Attempt × List Byte → Prop} (h : P x) : Reaches m x P :=
  ⟨0, h⟩

theorem reaches_later {x y : Attempt × List Byte} {P : Attempt × List Byte → Prop} (hxy : attemptStep m x = y)
    (h : Reaches m y P) : Reaches m x P := by
  obtain ⟨n, hn⟩ := h
  exact ⟨n + 1, by rwa [Function.iterate_succ_apply, hxy]⟩

/-- Decoding ends as the parser's run over the rest of the body does, with the bytes emitted before (R106). -/
theorem reaches_endOf (rest out : List Byte) (esc : Bool) :
    Reaches m (.decoding rest out esc, queue) (· = (endOf ((Codec.parseAll esc rest).prepend out), queue)) := by
  induction rest generalizing out esc with
  | nil =>
    refine reaches_later rfl (reaches_now ?_)
    cases esc <;> simp [attemptStep, Codec.parseAll, Codec.parseEnd, endOf]
  | cons b rest ih =>
    cases hp : Codec.parse1 esc b with
    | error k =>
      refine reaches_later rfl (reaches_now ?_)
      simp [attemptStep, hp, parseAll_of_error hp, endOf]
    | next esc' emitted =>
      refine reaches_later (y := (.decoding rest (out ++ emitted.toList) esc', queue)) ?_ ?_
      · simp only [attemptStep, hp]
      · rw [parseAll_of_next hp, prepend_prepend]
        exact ih ..

/-- How an attempt on the stream `st` ends: with the result of `scan_frame` and its bytes removed, or dry. -/
def EndsAs (st : List Byte) : Codec.ScanResult → Attempt × List Byte → Prop
  | .ok declared payload c, y => y = (.received declared payload, st.drop c) ∧ c ≤ st.length
  | .err k c, y => y = (.failed k, st.drop c) ∧ c ≤ st.length
  | .blocked, y => (∃ n, y = (.hunting n, [])) ∨ ∃ body, y = (.accumulating body, [])

theorem endsAs_scanFinish {st : List Byte} {pos : Nat} (hpos : pos ≤ st.length) (body : List Byte) :
    EndsAs st (Codec.scanFinish pos body) (endOf (Codec.decodeBytes body), st.drop pos) := by
  unfold Codec.scanFinish
  cases Codec.decodeBytes body with
  | error k => exact ⟨rfl, hpos⟩
  | ok bytes =>
    match bytes with
    | [] | [_] | _ :: _ :: _ => exact ⟨rfl, hpos⟩

theorem reaches_scanAcc {st rest body : List Byte} {pos : Nat} (hst : st.drop pos = rest) (hpos : pos ≤ st.length)
    (hm : body.length < m) :
    Reaches m (.accumulating body, rest) (EndsAs st (Codec.scanAcc m pos body.length body rest)) := by
  induction rest generalizing pos body with
  | nil => exact reaches_now (.inr ⟨body, rfl⟩)
  | cons b rest ih =>
    obtain ⟨hb, hrest⟩ := getElem?_of_drop_eq_cons hst
    have hpos : pos + 1 ≤ st.length := List.getElem?_eq_some_iff.mp hb |>.1
    rw [Codec.scanAcc]
    by_cases hend : b = Config.endMarker
    · rw [if_pos hend]
      refine reaches_later (if_pos hend) ?_
      obtain ⟨n, hn⟩ := reaches_endOf (m := m) (queue := rest) body [] false
      refine ⟨n, ?_⟩
      rw [hn, ← decodeBytes_eq_parseAll, prepend_nil, ← hrest]
      exact endsAs_scanFinish hpos body
    · rw [if_neg hend]
      by_cases hlast : body.length + 1 = m
      · rw [if_pos hlast]
        refine reaches_later (y := (.failed .endMarkerNotFound, rest)) ?_ (reaches_now ⟨by rw [hrest], hpos⟩)
        rw [attemptStep, if_neg hend, if_neg (by omega), if_pos hlast]
      · rw [if_neg hlast]
        have hnext : (body ++ [b]).length = body.length + 1 := by simp
        refine reaches_later (y := (.accumulating (body ++ [b]), rest)) ?_ ?_
        · rw [attemptStep, if_neg hend, if_pos (by omega)]
        · rw [← hnext]
          exact ih hrest hpos (by omega)

theorem reaches_scanHunt {st rest : List Byte} {pos n : Nat} (hst : st.drop pos = rest) (hpos : pos ≤ st.length)
    (hm : n < m) : Reaches m (.hunting n, rest) (EndsAs st (Codec.scanHunt m pos n rest)) := by
  induction rest generalizing pos n with
  | nil => exact reaches_now (.inl ⟨n, rfl⟩)
  | cons b rest ih =>
    obtain ⟨hb, hrest⟩ := getElem?_of_drop_eq_cons hst
    have hpos : pos + 1 ≤ st.length := List.getElem?_eq_some_iff.mp hb |>.1
    rw [Codec.scanHunt]
    by_cases hstart : b = Config.startMarker
    · rw [if_pos hstart]
      exact reaches_later (if_pos hstart) (reaches_scanAcc (body := []) hrest hpos (Nat.zero_lt_of_lt hm))
    · rw [if_neg hstart]
      by_cases hlast : n + 1 = m
      · rw [if_pos hlast]
        refine reaches_later (y := (.failed .startMarkerNotFound, rest)) ?_ (reaches_now ⟨by rw [hrest], hpos⟩)
        rw [attemptStep, if_neg hstart, if_neg (by omega), if_pos hlast]
      · rw [if_neg hlast]
        refine reaches_later (y := (.hunting (n + 1), rest)) ?_ (ih hrest hpos (by omega))
        rw [attemptStep, if_neg hstart, if_pos (by omega)]

/-- A fresh attempt on the stream `st` ends as `scan_frame` does (R171, R175). -/
theorem reaches_scanFrame (hm : 0 < m) (st : List Byte) :
    Reaches m (.hunting 0, st) (EndsAs st (Codec.scanFrame m st)) :=
  reaches_scanHunt List.drop_zero (Nat.zero_le _) hm

end Runs

/-- Settles O54: the unit's turns follow the attempt, which ends as `scan_frame` does. -/
theorem scannerRunIsScanFrame : Obligations.ScannerRunIsScanFrame := by
  intro s hinv hs
  have hm : 0 < s.maxFrameLen := Nat.lt_of_lt_of_le (by decide) hinv.paramLeast
  obtain ⟨n, hend⟩ := reaches_scanFrame hm s.line.rxQueue
  obtain ⟨t, hrun, hparam, hshow, hqueue⟩ := agentRun_recoverRx n s
  refine ⟨recoverRx s, if_pos hs, n, t, hrun, ?_⟩
  generalize (attemptStep s.maxFrameLen)^[n] (.hunting 0, s.line.rxQueue) = y at hend hshow hqueue
  have hstate := state_of_shows hshow
  have hstatus := status_of_shows hshow
  cases hres : Codec.scanFrame s.maxFrameLen s.line.rxQueue with
  | ok declared payload c =>
    rw [hres] at hend
    obtain ⟨rfl, hc⟩ := hend
    exact ⟨fetch_rx_of_resting (.inr hstate), hstate, (Option.some.inj hstatus).symm, declared_of_shows hshow,
      resPayload_of_shows (hparam ▸ hshow), hc, hqueue⟩
  | err k c =>
    rw [hres] at hend
    obtain ⟨rfl, hc⟩ := hend
    exact ⟨fetch_rx_of_resting (.inr hstate), hstate, hstatus, hc, hqueue⟩
  | blocked =>
    rw [hres] at hend
    rcases hend with ⟨n, rfl⟩ | ⟨body, rfl⟩
    · exact ⟨fetch_rx_of_dry (rxReady_iff.mpr (.inl hstate)) hqueue, hqueue, .inl hstate,
        (Option.some.inj hstatus).symm⟩
    · exact ⟨fetch_rx_of_dry (rxReady_iff.mpr (.inr hstate)) hqueue, hqueue, .inr hstate,
        (Option.some.inj hstatus).symm⟩

/-- Settles O58: both units show a fresh attempt after SCAN_START, and follow the same steps of it. -/
theorem noLeakageBetweenAttempts : Obligations.NoLeakageBetweenAttempts := by
  intro s s' n u hm hq hs hs' t t' ht ht' hu
  obtain rfl := Host.Outcome.next.inj ((if_pos hs).symm.trans ht)
  obtain rfl := Host.Outcome.next.inj ((if_pos hs').symm.trans ht')
  obtain ⟨v, hv, hparam, hshow, hqueue⟩ := agentRun_recoverRx n s
  obtain rfl := Host.Outcome.next.inj (hv.symm.trans hu)
  obtain ⟨u', hu', hparam', hshow', hqueue'⟩ := agentRun_recoverRx n s'
  rw [← hm] at hparam'
  rw [← hm, ← hq] at hshow' hqueue'
  refine ⟨u', hu', ?_, Option.some.inj ?_, ?_, ?_, ?_⟩
  · rw [state_of_shows hshow, state_of_shows hshow']
  · rw [← status_of_shows hshow, ← status_of_shows hshow']
  · rw [declared_of_shows hshow, declared_of_shows hshow']
  · rw [← hparam'] at hshow'
    rw [← hparam] at hshow
    rw [resPayload_of_shows hshow', resPayload_of_shows hshow, hparam', hparam]
  · rw [hqueue, hqueue']

end Sys2Proof.ScanAttempt

/-! PROOFS. The host's side of the contract (spec/43_host_contract.md, R193 to R197, and R247): the statement
`HostSideRules`, with what it rests on. -/
namespace Sys2Proof.HostRules
open Sys2Proof.Machine Sys2Proof.Machine.HostSide

/-! ## The classifier -/

@[simp] theorem classify_zero : classify 0#16 = .diagnostic := rfl

theorem classify_of_ne_zero {d : Half} (h : d ≠ 0#16) : classify d = .dataReply :=
  if_neg h

theorem classify_eq_diagnostic_iff {d : Half} : classify d = .diagnostic ↔ d = 0#16 := by
  by_cases h : d = 0#16
  · simp [h]
  · simp [h, classify_of_ne_zero h]

theorem classify_eq_dataReply_iff {d : Half} : classify d = .dataReply ↔ d ≠ 0#16 := by
  by_cases h : d = 0#16
  · simp [h]
  · simp [h, classify_of_ne_zero h]

/-! ## The length check -/

/-- A diagnostic is never checked, whatever the policy (R247). -/
@[simp] theorem lengthCheck_zero (enforce : Bool) (p : List Byte) : lengthCheck enforce 0#16 p = none := rfl

theorem lengthCheck_of_ne_zero {d : Half} (h : d ≠ 0#16) (enforce : Bool) (p : List Byte) :
    lengthCheck enforce d p =
      if enforce = true ∧ d.toNat ≠ Config.lenWidth + p.length then some .lengthMismatch else none := by
  rw [lengthCheck, classify_of_ne_zero h]

theorem lengthCheck_not_enforced (d : Half) (p : List Byte) : lengthCheck false d p = none := by
  by_cases h : d = 0#16
  · rw [h, lengthCheck_zero]
  · rw [lengthCheck_of_ne_zero h, if_neg fun hc => Bool.false_ne_true hc.1]

theorem lengthCheck_enforced_iff {d : Half} {p : List Byte} :
    lengthCheck true d p = some .lengthMismatch ↔ d ≠ 0#16 ∧ d.toNat ≠ 2 + p.length := by
  by_cases h : d = 0#16
  · simp [h]
  · simp [h, lengthCheck_of_ne_zero h]

/-! ## The handshake -/

section Handshake
variable {recognise : List Byte → Option (Option (List Byte))} {text : List Byte}

/-- The readiness frame ends the handshake: it is not shown, and the frames after it are not read (R197). -/
theorem awaitReady_of_recognised {identity : Option (List Byte)} (h : recognise text = some identity)
    (later : List (List Byte)) :
    awaitReady recognise (text :: later) = { shown := [], ready := true, identity := identity } := by
  rw [awaitReady, h]

theorem awaitReady_of_unrelated (h : recognise text = none) (rest : List (List Byte)) :
    awaitReady recognise (text :: rest) =
      { awaitReady recognise rest with shown := text :: (awaitReady recognise rest).shown } := by
  rw [awaitReady, h]

/-- Texts the recogniser does not know are shown in order before what the rest of the handshake comes to. -/
theorem awaitReady_append_of_unrelated {unrelated : List (List Byte)} (h : ∀ d ∈ unrelated, recognise d = none)
    (rest : List (List Byte)) :
    awaitReady recognise (unrelated ++ rest) =
      { awaitReady recognise rest with shown := unrelated ++ (awaitReady recognise rest).shown } := by
  induction unrelated with
  | nil => rfl
  | cons d unrelated ih =>
    obtain ⟨hd, hrest⟩ := List.forall_mem_cons.mp h
    rw [List.cons_append, awaitReady_of_unrelated hd, ih hrest, List.cons_append]

end Handshake

/-- Settles O60: the classifier by its test, the length check by its two policies, and the handshake by induction on the
frames before readiness. -/
theorem hostSideRules : Obligations.HostSideRules := by
  refine ⟨fun _ => ⟨classify_eq_diagnostic_iff, classify_eq_dataReply_iff⟩,
    fun d p => ⟨lengthCheck_not_enforced d p, lengthCheck_enforced_iff⟩, ?_⟩
  intro recognise unrelated text identity later hunrelated htext
  rw [awaitReady_append_of_unrelated hunrelated, awaitReady_of_recognised htext, List.append_nil]

end Sys2Proof.HostRules

/-! PROOFS. Reset and the time decoding takes (spec/70_reset_and_hazards.md, R240 and R254): the statements
`ResetCommandRestoresTheTable` and `DecodingEndsInBoundedSteps`, with what they rest on. -/
namespace Sys2Proof.ResetAndTiming
open Sys2Proof.Machine Sys2Proof.Laws Sys2Proof.Scope Sys2Proof.StateRules Sys2Proof.MemoryRules Sys2Proof.CodecRules
  Sys2Proof.ScannerRows

/-! ## RESET (R240) -/

theorem exec_reset (s : State) : exec .reset s = .next (resetBlock s) := rfl

/-- Settles O32: RESET answers `resetBlock s`, which puts both units' reset values into `s` and nothing else. -/
theorem resetCommandRestoresTheTable : Obligations.ResetCommandRestoresTheTable := by
  intro s
  refine ⟨resetBlock s, exec_reset s, ?_⟩
  and_intros <;> rfl

/-! ## The turns decoding takes (R254) -/

section Decoding
variable {s : State} {n : Nat}

/-- The unit needs at most `n` turns to be `Done`: one for each byte of the body still to read, and one for FIN. -/
def DoneWithin (n : Nat) (r : RxUnit) : Prop :=
  r.state = .done ∨ r.state = .decoding ∧ r.len < r.decIdx + n

/-- Reading a byte of the body raises the error of PARSE1, or moves `dec_idx` on by one (R163 to R167). -/
theorem doneWithin_afterParse1 {r : RxUnit} (hs : r.state = .decoding) (hn : r.len < r.decIdx + (n + 1))
    (p : Codec.ParseStep) : DoneWithin n (afterParse1 r p) := by
  have hn : r.len < r.decIdx + 1 + n := by omega
  cases p with
  | error k => exact .inl rfl
  | next esc emitted =>
    cases emitted with
    | none => exact .inr ⟨hs, hn⟩
    | some v => exact .inr ⟨hs, hn⟩

/-- Each case of FIN ends in `Done` (R168 to R170). -/
theorem finMove_done {t : State} (h : FinMove s t) : t.rx.state = .done := by
  rcases h with ⟨-, rfl⟩ | ⟨-, -, _, _, -, -, rfl⟩ | ⟨-, -, rfl⟩ <;> rfl

/-- A turn at the end of the body ends in `Done`, and writes the RX unit only. -/
theorem rx_turn_of_end (h : Inv s) (hs : s.rx.state = .decoding) (hl : s.rx.decIdx = s.rx.len) :
    ∃ r, agentStep .rx s = .next { s with rx := r } ∧ r.state = .done := by
  obtain ⟨t, hstep⟩ := agentStep_answers h .rx
  have hfin : FinMove s t := finRow_move hs hl ((agentStep_of_take (fetch_rx_of_end hs hl)).symm.trans hstep)
  have hdone := finMove_done hfin
  obtain ⟨r, rfl⟩ := finMove_frame hfin
  exact ⟨r, hstep, hdone⟩

/-- A turn of the RX unit uses up one of the turns to `Done`, and writes the RX unit only. -/
theorem rx_turn_doneWithin (h : Inv s) (hn : DoneWithin (n + 1) s.rx) :
    ∃ r, agentStep .rx s = .next { s with rx := r } ∧ DoneWithin n r := by
  rcases hn with hs | ⟨hs, hn⟩
  · exact ⟨s.rx, agentStep_of_hold (by decide) (fetch_rx_of_resting (.inr hs)), .inl hs⟩
  · rcases Nat.lt_or_eq_of_le h.rxInv.decIdxRange with hi | hl
    · obtain ⟨b, hb⟩ := memRead_rxb_of_lt h hi
      exact ⟨_, (agentStep_of_take (fetch_rx_of_body hs hi hb)).trans
        (exec_stuffedRow_scanner hs hi (decEmit_write_within h hi)), doneWithin_afterParse1 hs hn _⟩
    · obtain ⟨r, hstep, hdone⟩ := rx_turn_of_end h hs hl
      exact ⟨r, hstep, .inl hdone⟩

/-- `dec_idx` is not past the body's end, so decoding has a turn to take (R33). -/
theorem done_of_doneWithin_zero (h : Inv s) (hn : DoneWithin 0 s.rx) : s.rx.state = .done :=
  hn.resolve_right fun ⟨_, hlt⟩ => Nat.not_lt.mpr h.rxInv.decIdxRange hlt

/-- After as many turns as it needs, the RX unit is `Done`, and nothing outside it is written. -/
theorem agentRun_doneWithin (h : Inv s) (hn : DoneWithin n s.rx) :
    ∃ r, agentRun .rx n s = .next { s with rx := r } ∧ r.state = .done := by
  rw [agentRun_eq_runSteps]
  generalize s.turns = ts
  induction n generalizing s with
  | zero => exact ⟨s.rx, runSteps_zero _, done_of_doneWithin_zero h hn⟩
  | succ n ih =>
    have hinv : Inv { s with turns := List.replicate n .rx ++ ts } := { h with }
    obtain ⟨r, hstep, hr⟩ := rx_turn_doneWithin hinv hn
    obtain ⟨r', hrun, hdone⟩ := ih (s := { s with rx := r }) { (agentStep_keeps_inv hinv hstep).1 with } hr
    have hturn : ({ s with turns := List.replicate (n + 1) .rx ++ ts } : State).turns =
        .rx :: (List.replicate n .rx ++ ts) := rfl
    exact ⟨r', (runSteps_succ ((step_of_turn hturn).trans hstep)).trans hrun, hdone⟩

end Decoding

/-- Settles O59: one turn for each byte still to read and one for FIN; the body is shorter than the limit (R33). -/
theorem decodingEndsInBoundedSteps : Obligations.DecodingEndsInBoundedSteps := by
  intro s h hs
  have hleast : 4 ≤ s.maxFrameLen := h.paramLeast
  have hlen := h.rxInv.lenRange
  have hwithin : DoneWithin (s.rx.len - s.rx.decIdx + 1) s.rx := .inr ⟨hs, by omega⟩
  obtain ⟨r, hrun, hdone⟩ := agentRun_doneWithin h hwithin
  exact ⟨_, _, Nat.le_refl _, by omega, hrun, hdone, rfl⟩

end Sys2Proof.ResetAndTiming

/-! PROOFS. Decoder and encoder (spec/30_encoding.md, R76, R77 and R80): the statements `DecodeEncodeRoundTrip` and
`DecodedBytesAreEncoded`, with what they rest on. -/
namespace Sys2Proof.WireCode
open Sys2Proof.Laws Sys2Proof.StateRules Sys2Proof.EncodingRules Sys2Proof.ScannerRows

/-! ## A whole frame (R71) -/

theorem splitAtEnd_marker (s : List Byte) : splitAtEnd (Config.endMarker :: s) = some ([], s) := rfl

theorem splitAtEnd_cons_of_ne {b : Byte} (h : b ≠ Config.endMarker) (s : List Byte) :
    splitAtEnd (b :: s) = (splitAtEnd s).map fun split => (b :: split.1, split.2) := by
  rw [splitAtEnd, if_neg h]
  cases splitAtEnd s <;> rfl

/-- A body without end marker is split off whole. -/
theorem splitAtEnd_body {body : List Byte} (h : Config.endMarker ∉ body) (rest : List Byte) :
    splitAtEnd (body ++ Config.endMarker :: rest) = some (body, rest) := by
  induction body with
  | nil => exact splitAtEnd_marker rest
  | cons b body ih =>
    obtain ⟨hb, hbody⟩ := List.ne_and_not_mem_of_not_mem_cons h
    rw [List.cons_append, splitAtEnd_cons_of_ne hb.symm, ih hbody, Option.map_some]

/-- The split drops the end marker only. -/
theorem eq_of_splitAtEnd {s body rest : List Byte} (h : splitAtEnd s = some (body, rest)) :
    s = body ++ Config.endMarker :: rest := by
  induction s generalizing body with
  | nil => cases h
  | cons b s ih =>
    by_cases hb : b = Config.endMarker
    · subst hb
      cases h
      rfl
    · rw [splitAtEnd_cons_of_ne hb] at h
      obtain ⟨⟨tail, rest'⟩, hs, hsplit⟩ := Option.map_eq_some_iff.mp h
      cases hsplit
      rw [ih hs, List.cons_append]

/-- Between the markers stands the encoding of length bytes and payload, which holds no end marker (R103) and which
`decode` undoes (R109). -/
theorem frameRow_frameBytes {p : List Byte} (h : p.length + Config.lenWidth ≤ 65535) (rest : List Byte) :
    frameRow (Codec.frameBytes p ++ rest) = .instr (.frame p) rest := by
  have hframe := frameBytes_eq p
  have hdec := decodeBytes_encodeBytes (Codec.lenBytes (p.length + Config.lenWidth) ++ p)
  have hno := @encodeBytes_ne_marker (Codec.lenBytes (p.length + Config.lenWidth) ++ p)
  generalize Codec.encodeBytes (Codec.lenBytes (p.length + Config.lenWidth) ++ p) = body at hframe hdec hno
  have hsplit : splitAtEnd (body ++ [Config.endMarker] ++ rest) = some (body, rest) := by
    rw [List.append_assoc]
    exact splitAtEnd_body (fun he => (hno he).2 rfl) rest
  rw [hframe, List.cons_append]
  simp only [frameRow, if_true, hsplit, hdec, Codec.lenBytes, List.cons_append, List.nil_append]
  exact if_pos ⟨h, hframe⟩

/-- The frame read is the one whose payload was found: the bytes up to the end marker are compared with it. -/
theorem eq_frame_of_frameRow {bytes rest : List Byte} {i : Instr} (h : frameRow bytes = .instr i rest) :
    ∃ p, i = .frame p ∧ p.length + Config.lenWidth ≤ 65535 ∧ bytes = Codec.frameBytes p ++ rest := by
  unfold frameRow at h
  split at h
  · cases h
  · next b s =>
    split at h
    · next hb =>
      split at h
      · cases h
      · next body after hs =>
        split at h
        · next p _ =>
          split at h
          · next hp =>
            obtain ⟨hlen, hframe⟩ := hp
            cases h
            refine ⟨p, rfl, hlen, ?_⟩
            rw [hb, eq_of_splitAtEnd hs, hframe]
            simp
          · cases h
        · cases h
    · cases h

/-! ## What each row reads off the bytes -/

/-- The bytes are the words of the well-formed instruction `i` and then `rest`. -/
def ReadsAs (bytes : List Byte) (i : Instr) (rest : List Byte) : Prop :=
  i.wf = true ∧ bytes = encode i ++ rest

theorem readsAs_huntRow {r : Room} {b : Byte} {i : Instr} (rest : List Byte) (h : huntRow r b = some i) :
    ReadsAs (b :: rest) i rest := by
  by_cases hb : b = Config.startMarker
  · subst hb
    cases h
    exact ⟨rfl, rfl⟩
  · rw [huntRow.eq_def, if_neg hb] at h
    cases r with
    | past => cases h
    | below | last =>
      cases h
      exact ⟨bne_iff_ne.mpr hb, rfl⟩

theorem readsAs_accRow {r : Room} {b : Byte} {i : Instr} (rest : List Byte) (h : accRow r b = some i) :
    ReadsAs (b :: rest) i rest := by
  by_cases hb : b = Config.endMarker
  · subst hb
    cases h
    exact ⟨rfl, rfl⟩
  · rw [accRow.eq_def, if_neg hb] at h
    cases r with
    | past => cases h
    | below | last =>
      cases h
      exact ⟨bne_iff_ne.mpr hb, rfl⟩

theorem readsAs_symStartRow (u : Reader) (b : Byte) (rest : List Byte) :
    ReadsAs (b :: rest) (symStartRow u b) rest := by
  by_cases hb : b < 0xFD#8
  · rw [symStartRow_literal u hb]
    exact ⟨decide_eq_true hb, rfl⟩
  · rcases special_cases (BitVec.not_lt.mp hb) with rfl | rfl | rfl <;> exact ⟨rfl, rfl⟩

theorem readsAs_operandRow (u : Reader) (d : Byte) (rest : List Byte) :
    ReadsAs (0xFD#8 :: d :: rest) (operandRow u d) rest := by
  by_cases hd : 3#8 ≤ d
  · rw [operandRow_reserved u hd]
    exact ⟨decide_eq_true hd, rfl⟩
  · rcases legal_cases hd with rfl | rfl | rfl <;> exact ⟨rfl, rfl⟩

theorem readsAs_encoderRow (b : Byte) (rest : List Byte) : ReadsAs (b :: rest) (encoderRow b) rest := by
  by_cases hb : b < 0xFD#8
  · rw [encoderRow_literal hb]
    exact ⟨decide_eq_true hb, rfl⟩
  · rcases special_cases (BitVec.not_lt.mp hb) with rfl | rfl | rfl <;> exact ⟨rfl, rfl⟩

theorem readsAs_frameRow {bytes rest : List Byte} {i : Instr} (h : frameRow bytes = .instr i rest) :
    ReadsAs bytes i rest := by
  obtain ⟨p, rfl, hlen, hbytes⟩ := eq_frame_of_frameRow h
  exact ⟨decide_eq_true hlen, hbytes⟩

theorem readsAs_controlRow {k : Control} {bytes rest : List Byte} {i : Instr}
    (h : controlRow k bytes = .instr i rest) : ReadsAs bytes i rest := by
  cases k with
  | txSubmit | build =>
    cases h
    exact ⟨rfl, (List.append_nil bytes).symm⟩
  | reset | scanStart | emit | finMalformed | finOk | finShort =>
    cases bytes with
    | nil =>
      cases h
      exact ⟨rfl, rfl⟩
    | cons b bytes => cases h

/-- A row that may be absent takes its one byte. -/
theorem readsAs_of_ofRow {row : Option Instr} {b : Byte} {bytes rest : List Byte} {i : Instr}
    (hrow : row = some i → ReadsAs (b :: bytes) i bytes) (h : Decoded.ofRow row bytes = .instr i rest) :
    ReadsAs (b :: bytes) i rest := by
  have hsome := eq_some_of_ofRow h
  subst hsome
  cases h
  exact hrow rfl

/-- A last escape byte is a symbol of its own, one before another byte a pair, and any other byte a literal (R75). -/
theorem readsAs_symbol {u : Reader} {b : Byte} {bytes rest : List Byte} {i : Instr}
    (h : decode (.symbol u) (b :: bytes) = .instr i rest) : ReadsAs (b :: bytes) i rest := by
  by_cases hb : b = Config.specialByte
  · subst hb
    cases bytes with
    | nil =>
      cases h
      exact ⟨rfl, rfl⟩
    | cons d bytes =>
      cases h
      exact readsAs_operandRow u d _
  · have hlit : decode (.symbol u) (b :: bytes) = .instr (symStartRow u b) bytes := by
      cases bytes <;> exact if_neg hb
    rw [hlit] at h
    cases h
    exact readsAs_symStartRow u b _

/-! ## Encoder and decoder agree -/

/-- Settles O2: a row without operand computes; an operand of its row's class is in no row that is tested before it; the
frame's body holds no end marker. -/
theorem decodeEncodeRoundTrip : Obligations.DecodeEncodeRoundTrip := by
  intro i hi
  cases i with
  | huntSkip b => exact congrArg (Decoded.ofRow · []) (huntRow_of_ne (bne_iff_ne.mp hi)).1
  | huntLimit b => exact congrArg (Decoded.ofRow · []) (huntRow_of_ne (bne_iff_ne.mp hi)).2
  | accData b => exact congrArg (Decoded.ofRow · []) (accRow_of_ne (bne_iff_ne.mp hi)).1
  | accLimit b => exact congrArg (Decoded.ofRow · []) (accRow_of_ne (bne_iff_ne.mp hi)).2
  | decLit u b => exact congrArg (Decoded.instr · []) (symStartRow_literal u (of_decide_eq_true hi))
  | decEscRsvd u d => exact congrArg (Decoded.instr · []) (operandRow_reserved u (of_decide_eq_true hi))
  | encLit b => exact congrArg (Decoded.instr · []) (encoderRow_literal (of_decide_eq_true hi))
  | frame p =>
    have hframe := frameRow_frameBytes (of_decide_eq_true hi) []
    rwa [List.append_nil] at hframe
  | huntStart | accEnd | decPassFE | decPassFF | decPrefix | decEsc0 | decEsc1 | decEsc2 | decEscTrunc | encEsc0
  | encEsc1 | encEsc2 | reset | scanStart | txSubmit | build | emit | finMalformed | finOk | finShort => rfl

/-- Settles O3: each context hands the bytes to its rows, and a row takes its own words off the front. -/
theorem decodedBytesAreEncoded : Obligations.DecodedBytesAreEncoded := by
  intro c bytes rest i hc h
  match c, bytes, h with
  | .operand u, _, _ => exact absurd rfl (hc u)
  | .control _, _, h => exact readsAs_controlRow h
  | .frame, _, h => exact readsAs_frameRow h
  | .hunt _, _ :: bytes, h => exact readsAs_of_ofRow (readsAs_huntRow bytes) h
  | .acc _, _ :: bytes, h => exact readsAs_of_ofRow (readsAs_accRow bytes) h
  | .symStart u, b :: _, h =>
    cases h
    exact readsAs_symStartRow u b rest
  | .symbol _, _ :: _, h => exact readsAs_symbol h
  | .encoder, b :: _, h =>
    cases h
    exact readsAs_encoderRow b rest

end Sys2Proof.WireCode
